-- ==== Sys2Proof/Word.lean ====
section
/-! DEFINITION. Word.lean: the register word and the byte lane. The width is fixed at 32 bits (00_scope.md R5, R6).
How a word is read as an integer, written from one, or split into byte lanes stands in Decode.lean and
Machine/Operands.lean. -/

namespace Sys2Proof

/-- The content of one register, and every value that crosses the bus: `W = 32` bits (R5, R6). -/
abbrev Word := BitVec 32

/-- One byte lane of the bus (R65). -/
abbrev Byte := BitVec 8

end Sys2Proof
end

