-- ==== Sys2Proof/Syntax.lean ====
section
/-! DEFINITION. Syntax.lean: the twelve commands, one constructor per row of spec/opcode_table.json (30_encoding.md R92),
in the table's order. A command word carries no operand (R94): every operand is a fixed register, so no constructor has
a field. The words that are not commands are `Sys2Proof.Illegal` of Decode.lean. -/

namespace Sys2Proof

/-- A command of the core (R92). -/
inductive Instr where
  /-- `0x00` NOP: does nothing but complete (R274). -/
  | nop
  /-- `0x01` REDUCE: `RN <- N mod P` (R123). -/
  | reduce
  /-- `0x02` INV: `RN <- N^-1 mod P` (R124). -/
  | inv
  /-- `0x03` PDBL: `R <- P1 + P1` (R155). -/
  | pdbl
  /-- `0x04` PADD: `R <- P1 + P2` (R156). -/
  | padd
  /-- `0x05` PMUL: `R <- K * P1` (R157). -/
  | pmul
  /-- `0x06` ENUM: the curve list of P, A and B into the point memory (R191). -/
  | enum
  /-- `0x07` ENCODE: the message MSG onto a point of the curve list (R213). -/
  | encode
  /-- `0x08` KEYGEN: `QA <- DA * G`, `QB <- DB * G` (R230). -/
  | keygen
  /-- `0x09` SHARED: `SA <- DA * QB`, `SB <- DB * QA`, and their comparison (R231). -/
  | shared
  /-- `0x0A` ENCRYPT: `C <- QM + SA`, `SP <- QA` (R232). -/
  | encrypt
  /-- `0x0B` ECDH: the five steps ENUM, KEYGEN, SHARED, ENCODE, ENCRYPT in one command (R233). -/
  | ecdh
deriving DecidableEq, Repr

end Sys2Proof
end

