-- ==== Sys2Proof/WellFormed.lean ====
section
/-! DEFINITION. WellFormed.lean: the command word's format (30_encoding.md R90) and its two checks (R91). -/

namespace Sys2Proof

/-- The one instruction format: RSV in bits [31:8], OPC in bits [7:0] (R90). -/
structure CommandWord where
  /-- Bits [31:8], reserved: a legal word has 0 here. -/
  rsv : BitVec 24
  /-- Bits [7:0], the opcode. -/
  opc : BitVec 8
deriving DecidableEq, Repr

/-- The first check of R91: `w[31:8] = 0`. -/
def CommandWord.rsvZero (c : CommandWord) : Bool := c.rsv == 0

/-- The second check of R91: `w[7:0] <= 0x0B`. -/
def CommandWord.opcKnown (c : CommandWord) : Bool := decide (c.opc.toNat ≤ 0x0B)

/-- A legal command word (R91). -/
def CommandWord.wellFormed (c : CommandWord) : Bool := c.rsvZero && c.opcKnown

/-- Every command is well formed: the word has no register, immediate or mode field (R90, R94), so a term of `Instr` leaves
nothing to check. -/
def Instr.wellFormed : Instr → Bool
  | .nop | .reduce | .inv | .pdbl | .padd | .pmul | .enum | .encode | .keygen | .shared | .encrypt | .ecdh => true

end Sys2Proof
end

