-- ==== Sys2Proof/Decode.lean ====
section
/-! DEFINITION. Decode.lean: from a command word, or from the bytes of one, to a command, and back
(30_encoding.md R90 to R93). Decoding is total: what is no command is rejected under a name. -/

namespace Sys2Proof

/-- Why a word or a byte sequence is no command. -/
inductive Illegal where
  /-- The reserved bits [31:8] are not zero (R91, R93). -/
  | reservedBits
  /-- The reserved bits are zero and OPC lies in 0x0C to 0xFF (R91, R93). -/
  | reservedOpcode
  /-- The byte sequence is not one 32-bit word (every command is one word, R90). Raised by `decodeBytes` only. -/
  | notOneWord
deriving DecidableEq, Repr

/-- The fields of a word (R90). -/
def splitWord (w : Word) : CommandWord where
  rsv := w.extractLsb' 8 24
  opc := w.extractLsb' 0 8

/-- The opcode map (R92). -/
def opcodeMap (opc : BitVec 8) : Option Instr :=
  match opc.toNat with
  | 0x00 => some .nop
  | 0x01 => some .reduce
  | 0x02 => some .inv
  | 0x03 => some .pdbl
  | 0x04 => some .padd
  | 0x05 => some .pmul
  | 0x06 => some .enum
  | 0x07 => some .encode
  | 0x08 => some .keygen
  | 0x09 => some .shared
  | 0x0A => some .encrypt
  | 0x0B => some .ecdh
  | _ => none

/-- `decode(w)` of R91. -/
def decode (w : Word) : Except Illegal Instr :=
  if (splitWord w).rsvZero then
    match opcodeMap (splitWord w).opc with
    | some i => .ok i
    | none => .error .reservedOpcode
  else .error .reservedBits

/-- A word from its four byte lanes: lane `k` holds bits [8k+7:8k], little-endian (20_memory.md R65). -/
def wordOfLanes (b0 b1 b2 b3 : Byte) : Word := b3 ++ b2 ++ b1 ++ b0

/-- The byte lane `k` of a word (20_memory.md R65). -/
def laneOf (w : Word) (k : Nat) : Byte := w.extractLsb' (8 * k) 8

/-- The four byte lanes of a word, the lowest offset first (20_memory.md R65). -/
def lanesOf (w : Word) : List Byte := [laneOf w 0, laneOf w 1, laneOf w 2, laneOf w 3]

/-- The decoder on bytes as the bus carries them, lowest offset first; total on any bytes. -/
def decodeBytes : List Byte → Except Illegal Instr
  | [b0, b1, b2, b3] => decode (wordOfLanes b0 b1 b2 b3)
  | _ => .error .notOneWord

/-- The opcode of a command (R92). -/
def opcodeOf : Instr → BitVec 8
  | .nop => 0x00
  | .reduce => 0x01
  | .inv => 0x02
  | .pdbl => 0x03
  | .padd => 0x04
  | .pmul => 0x05
  | .enum => 0x06
  | .encode => 0x07
  | .keygen => 0x08
  | .shared => 0x09
  | .encrypt => 0x0A
  | .ecdh => 0x0B

/-- The word of a command: `{RSV, OPC}` with RSV zero (R90, R92). -/
def encode (i : Instr) : Word := (0 : BitVec 24) ++ opcodeOf i

/-- The bytes of a command as the bus carries them. -/
def encodeBytes (i : Instr) : List Byte := lanesOf (encode i)

/-- The command the decoder reads from an opcode-table word given as a number: the low `nbits` bits are the table's, every
bit above them is 0, and an instruction here is one 32-bit word, laid out in its byte lanes. -/
def decodeTableWord (nbits w : Nat) : Option Instr :=
  if w % 2 ^ nbits < 2 ^ 32 then
    match decodeBytes (lanesOf (BitVec.ofNat 32 (w % 2 ^ nbits))) with
    | .ok i => some i
    | .error _ => none
  else none

end Sys2Proof
end

