-- ==== Sys2Proof/Config.lean ====
section
/-! DEFINITION. Config.lean: what is fixed when the hardware is built, and the values the spec leaves open.

`NPT`, the capacity of the point memory, is a parameter of every claim (00_scope.md R5, 92_eei_decisions.md D2): it is held
in the CAP register of `Machine.State`, which nothing writes, so a statement about every state is a statement about every
`NPT`. Only its default, the value `Machine.State.reset` starts from, stands here.

The two open values have no body: nothing can be proved about which value they are. -/

namespace Sys2Proof

/-- The constant in the ID register: "ECC" and revision 1 (10_state.md R22). -/
def Config.idWord : Word := 0x45434301

/-- The default of `NPT` (00_scope.md R5). -/
def Config.defaultNpt : Word := 4096

/-- FREE VALUE (20_memory.md R66, 93_implementation_defined.md I3). What a read of a result register, PCOUNT, PX or PY
answers while a command is in progress: any 32-bit value, a fresh one for each such read. The argument is the number
of draws made before. -/
opaque Config.busyReadWord : Nat → Word

/-- FREE VALUE (10_state.md R36 and R43, 42_enumerator.md R192, 93_implementation_defined.md I4). The unspecified content
of point-memory entry `i` when the memory holds no value there. -/
opaque Config.unspecifiedEntry : Nat → Int × Int

end Sys2Proof
end

