-- ==== Sys2Proof/Machine/State.lean ====
section
/-! DEFINITION. Machine/State.lean: the state the spec gives the machine (10_state.md R21, R24, R36, R44), the values the
commands compute with (00_scope.md R9, R10), what the outside world does to it (10_state.md R20), and the state after
reset (10_state.md R42).

The last three fields of `State` are the MODEL's own and no state of the hardware: `agenda`, `responses` and `draws`
(notes/assumptions/1.md, 2.md and 4.md). -/

namespace Sys2Proof.Machine

/-- Why the block turns a bus access away. The step itself never ends in a fault: a bus error is the block's answer to
one access, it changes no state, and the machine goes on (20_memory.md R60, 60_exceptions.md R305). -/
inductive Fault where
  /-- A bus error at offset `off` for an access of `size` bytes (R60, R62, R63, R64). Raised by `Machine.busRead` and
  `Machine.busWrite`, recorded in the access's `Response`. Safe: it is the spec's own answer. -/
  | busError (off size : Nat)
deriving DecidableEq, Repr

/-- Why a step has no meaning. -/
inductive Refusal where
  /-- An instruction that has no meaning yet. Raised by no arm of `Machine.exec`. Safe: the model stops. -/
  | notModelled (mnemonic : String)
  /-- An access at or above offset `0x200`: it is the platform's and this block does not decode it (20_memory.md R61,
  93_implementation_defined.md I6: "refuse"). Raised by `Machine.hostTurn`. Safe: the model stops. -/
  | outsideWindow (off size : Nat)
deriving DecidableEq, Repr

/-- The error codes of 60_exceptions.md R301, None apart. -/
inductive ErrCode where
  /-- 1: `inverse` found no `x`. -/
  | noInverseExists
  /-- 2: no candidate x has a curve point. -/
  | encodingNotFound
  /-- 3: the curve list is empty when ENCODE starts. -/
  | degenerateCurve
  /-- 4: the command word is illegal. -/
  | illegalCommand
  /-- 5: `sext_32(P) < 2`. -/
  | badModulus
  /-- 6: an affine operand has a coordinate outside `[0, p)`. -/
  | badPoint
  /-- 7: a scalar operand is negative. -/
  | badScalar
  /-- 8: the curve list has more than `NPT` points. -/
  | pointMemOverflow
  /-- 9: PTVALID is 0 when ENCODE starts. -/
  | notEnumerated
  /-- 10: the two shared secrets differ. -/
  | secretMismatch
deriving DecidableEq, Repr

/-- A point: the tagged form of 00_scope.md R9. -/
inductive Point where
  /-- The point at infinity. -/
  | inf
  /-- The affine point `(x, y)`. -/
  | aff (x y : Int)
deriving DecidableEq, Repr

/-- The register triples `(TX, TY, TINF)` of the register map (10_state.md R21). -/
inductive PointReg where
  /-- Operand 1 (R29). -/
  | p1
  /-- Operand 2 (R29). -/
  | p2
  /-- The point result (R33). -/
  | r
  /-- Public point of A (R35). -/
  | qa
  /-- Public point of B (R35). -/
  | qb
  /-- Shared secret computed by A (R35). -/
  | sa
  /-- Shared secret computed by B (R35). -/
  | sb
  /-- Encoded message point (R35). -/
  | qm
  /-- Cipher point (R35). -/
  | c
  /-- Sender public point (R35). -/
  | sp
deriving DecidableEq, Repr

/-- The register names of the register map (10_state.md R21). The three registers of a triple `T` are `ptX T`, `ptY T` and
`ptInf T`: QAX is `ptX .qa`, P1INF is `ptInf .p1`. -/
inductive RegName where
  | id | cmd | status | cap | p | a | b | n | k | rn | gx | gy | da | db | msg | mreg | hreg | pcount | pidx | px | py
  | ptX (t : PointReg) | ptY (t : PointReg) | ptInf (t : PointReg)
deriving DecidableEq, Repr

/-- The content of a register triple. An INF register keeps only bit 0 (10_state.md R30), so its content is a `Bool`. -/
structure Triple where
  /-- TX. -/
  x : Word
  /-- TY. -/
  y : Word
  /-- Bit 0 of TINF: 1 is the point at infinity. -/
  inf : Bool
deriving DecidableEq, Repr

/-- The fields of STATUS (10_state.md R24). The reserved bits [7:5] and [31:16] are stored nowhere: they read 0. -/
structure Status where
  /-- Bit [0]: a command is in progress. -/
  busy : Bool
  /-- Bit [1]: a command has completed. -/
  done : Bool
  /-- Bit [2]: the last completed command ended in error. -/
  err : Bool
  /-- Bit [3]: the curve list belongs to the current P, A and B. -/
  ptvalid : Bool
  /-- Bit [4]: sticky, a host write was discarded. -/
  busywr : Bool
  /-- Bits [11:8]: the error code. -/
  errcode : BitVec 4
  /-- Bits [15:12]: the step of ECDH in which the error occurred. -/
  errstep : BitVec 4
deriving DecidableEq, Repr

/-- One bus access of the host (20_memory.md R61 to R67): `n` bytes at byte offset `off` of the register window. -/
inductive Access where
  /-- `BusRead(off, n)`. -/
  | read (off n : Nat)
  /-- `BusWrite(off, n, v)`. -/
  | write (off n : Nat) (v : Word)
deriving DecidableEq, Repr

/-- One step of one of the three agents (10_state.md R20). -/
inductive Turn where
  /-- The host makes one access. -/
  | host (a : Access)
  /-- The core takes its step, *complete*, if it is enabled. -/
  | core
  /-- The reset input is asserted. -/
  | reset
deriving DecidableEq, Repr

/-- What the block answers to one access: for a read the data, and in both cases the error response if there is one
(20_memory.md R60). -/
inductive Response where
  /-- The answer to a read. -/
  | read (data : Word) (error : Option Fault)
  /-- The answer to a write. -/
  | write (error : Option Fault)
deriving DecidableEq, Repr

/-- The point memory PTMEM (10_state.md R36): the entries that hold a value, as pairs of an index and a pair `(x, y)`, in
one canonical form (`Memory.wf`). An index that is not listed holds an unspecified value (R36, R43). -/
abbrev Memory := List (Nat × (Int × Int))

/-- The machine's state (10_state.md R44). ID is a constant and has no field (`Machine.regRead`); PX and PY are views of
the point memory (R37). The command in progress is CMD with STATUS.BUSY (R39). -/
structure State where
  /-- CMD: the last accepted command word (R23). -/
  cmd : Word
  /-- STATUS (R24). -/
  status : Status
  /-- CAP: `NPT`, the capacity of the point memory (R25). Nothing writes it. -/
  cap : Word
  /-- P: the modulus (R26). -/
  p : Word
  /-- A: the coefficient `a` (R26). -/
  a : Word
  /-- B: the coefficient `b` (R26). -/
  b : Word
  /-- N: the integer operand of REDUCE and INV (R28). -/
  n : Word
  /-- K: the scalar operand of PMUL (R28). -/
  k : Word
  /-- P1X, P1Y, P1INF (R29). -/
  p1 : Triple
  /-- P2X, P2Y, P2INF (R29). -/
  p2 : Triple
  /-- RN: the integer result (R33). -/
  rn : Word
  /-- RX, RY, RINF: the point result (R33). -/
  r : Triple
  /-- GX: base point x (R34). -/
  gx : Word
  /-- GY: base point y (R34). -/
  gy : Word
  /-- DA: private scalar of A (R34). -/
  da : Word
  /-- DB: private scalar of B (R34). -/
  db : Word
  /-- MSG: the plaintext integer (R34). -/
  msg : Word
  /-- QAX, QAY, QAINF: public point of A (R35). -/
  qa : Triple
  /-- QBX, QBY, QBINF: public point of B (R35). -/
  qb : Triple
  /-- SAX, SAY, SAINF: shared secret computed by A (R35). -/
  sa : Triple
  /-- SBX, SBY, SBINF: shared secret computed by B (R35). -/
  sb : Triple
  /-- MREG: the codec's power of two (R35). -/
  mreg : Word
  /-- HREG: the codec's slot width (R35). -/
  hreg : Word
  /-- QMX, QMY, QMINF: encoded message point (R35). -/
  qm : Triple
  /-- CX, CY, CINF: cipher point (R35). -/
  c : Triple
  /-- SPX, SPY, SPINF: sender public point (R35). -/
  sp : Triple
  /-- PCOUNT: the number of points in the curve list (R36). -/
  pcount : Nat
  /-- PIDX: the curve-list read index (R37). -/
  pidx : Word
  /-- PTMEM: the point memory (R36). -/
  ptmem : Memory
  /-- MODEL's own: the turns the agents are to take, the next one first (notes/assumptions/1.md). -/
  agenda : List Turn
  /-- MODEL's own: the block's answers to the accesses made so far, the newest first (notes/assumptions/2.md). -/
  responses : List Response
  /-- MODEL's own: how many free values have been drawn (notes/assumptions/4.md). -/
  draws : Nat
deriving DecidableEq, Repr

/-- What running a command's pseudocode leaves (00_scope.md R10): the state with the registers it has written, and the
error that ended it, if any. -/
structure Ran where
  /-- The state with the registers the pseudocode wrote. -/
  state : State
  /-- `none` for `Ok`, `some code` for `Err(code)`. -/
  error : Option ErrCode
deriving DecidableEq, Repr

/-- A triple after reset: `Aff(0, 0)` (R42). -/
def Triple.zero : Triple := ⟨0, 0, false⟩

/-- STATUS after reset: every field 0 (R42). -/
def Status.zero : Status := ⟨false, false, false, false, false, 0, 0⟩

/-- The state after reset of the hardware built with `NPT = npt` (R42): CAP holds `NPT`, every other register holds 0, and
no value is held in the point memory (R43). The three fields of the model's own start empty. -/
def State.resetOf (npt : Word) : State where
  cmd := 0
  status := .zero
  cap := npt
  p := 0
  a := 0
  b := 0
  n := 0
  k := 0
  p1 := .zero
  p2 := .zero
  rn := 0
  r := .zero
  gx := 0
  gy := 0
  da := 0
  db := 0
  msg := 0
  qa := .zero
  qb := .zero
  sa := .zero
  sb := .zero
  mreg := 0
  hreg := 0
  qm := .zero
  c := .zero
  sp := .zero
  pcount := 0
  pidx := 0
  ptmem := []
  agenda := []
  responses := []
  draws := 0

/-- The machine right after reset, built with the default `NPT` (00_scope.md R5). -/
def State.reset : State := State.resetOf Config.defaultNpt

end Sys2Proof.Machine
end

