-- ==== Sys2Proof/Machine/Flags.lean ====
section
/-! DEFINITION. Machine/Flags.lean: STATUS, the only flags (10_state.md R24, R38): the word the host reads, the numbers of
the error codes (60_exceptions.md R301), and what issue, completion, a parameter write, a discarded write and a write of
STATUS do to the fields. -/

namespace Sys2Proof.Machine

/-- One flag as one bit. -/
def flagBit (f : Bool) : BitVec 1 := BitVec.ofBool f

/-- The STATUS word: BUSY in bit 0, DONE 1, ERR 2, PTVALID 3, BUSYWR 4, ERRCODE 11:8, ERRSTEP 15:12, 0 elsewhere (R24). -/
def statusWord (f : Status) : Word :=
  (0 : BitVec 16) ++ f.errstep ++ f.errcode ++ (0 : BitVec 3) ++ flagBit f.busywr ++ flagBit f.ptvalid ++ flagBit f.err
    ++ flagBit f.done ++ flagBit f.busy

/-- The number of an error code (60_exceptions.md R301). -/
def errNumber : ErrCode → BitVec 4
  | .noInverseExists => 1
  | .encodingNotFound => 2
  | .degenerateCurve => 3
  | .illegalCommand => 4
  | .badModulus => 5
  | .badPoint => 6
  | .badScalar => 7
  | .pointMemOverflow => 8
  | .notEnumerated => 9
  | .secretMismatch => 10

/-- ERRCODE for an outcome: 0 for `Ok` (60_exceptions.md R301). -/
def errNumberOf : Option ErrCode → BitVec 4
  | none => 0
  | some e => errNumber e

/-- STATUS after issue: BUSY set, DONE and the error report cleared, PTVALID and BUSYWR unchanged (45_control.md R270). -/
def statusIssued (f : Status) : Status :=
  { f with busy := true, done := false, err := false, errcode := 0, errstep := 0 }

/-- STATUS after completion with an outcome; `step` is the ECDH step that failed, 0 for every other command
(45_control.md R271, 44_orchestrator.md R234). PTVALID and BUSYWR are not completion's to write. -/
def statusCompleted (e : Option ErrCode) (step : BitVec 4) (f : Status) : Status :=
  { f with busy := false, done := true, err := e.isSome, errcode := errNumberOf e, errstep := if e.isSome then step else 0 }

/-- STATUS with PTVALID as given (10_state.md R27, 42_enumerator.md R191). -/
def statusPtvalid (v : Bool) (f : Status) : Status := { f with ptvalid := v }

/-- STATUS after a host write was discarded (20_memory.md R67). -/
def statusDiscarded (f : Status) : Status := { f with busywr := true }

/-- STATUS after the host wrote `v` to it: bit 4 of `v` clears BUSYWR, nothing else changes (10_state.md R24, 20_memory.md
R67). -/
def statusWritten (v : Word) (f : Status) : Status := { f with busywr := f.busywr && !v.getLsbD 4 }

end Sys2Proof.Machine
end

