-- ==== Sys2Proof/Machine/Operands.lean ====
section
/-! DEFINITION. Machine/Operands.lean: how a command reads its operands and writes its results: `sext_32`, `zext_32` and
`enc_32` (00_scope.md R8), the point forms (10_state.md R31, R32, R34) and the operand checks (40_modular.md R122,
41_curve_group.md R150, R151). A check raises its error in `Except ErrCode`, the `Result` of 00_scope.md R10. -/

namespace Sys2Proof.Machine

/-- `sext_32(v)` (R8). -/
def sext32 (v : Word) : Int := v.toInt

/-- `zext_32(v)` (R8). -/
def zext32 (v : Word) : Int := v.toNat

/-- `enc_32(n)` (R8). -/
def enc32 (n : Int) : Word := BitVec.ofInt 32 n

/-! The register triples (10_state.md R29, R33, R35). -/

/-- The content of a triple. -/
def getTriple (t : PointReg) (s : State) : Triple :=
  match t with
  | .p1 => s.p1
  | .p2 => s.p2
  | .r => s.r
  | .qa => s.qa
  | .qb => s.qb
  | .sa => s.sa
  | .sb => s.sb
  | .qm => s.qm
  | .c => s.c
  | .sp => s.sp

/-- Writing a triple. -/
def setTriple (t : PointReg) (v : Triple) (s : State) : State :=
  match t with
  | .p1 => { s with p1 := v }
  | .p2 => { s with p2 := v }
  | .r => { s with r := v }
  | .qa => { s with qa := v }
  | .qb => { s with qb := v }
  | .sa => { s with sa := v }
  | .sb => { s with sb := v }
  | .qm => { s with qm := v }
  | .c => { s with c := v }
  | .sp => { s with sp := v }

/-! The point forms. -/

/-- `pointIn(T)` (10_state.md R31). -/
def pointIn (t : PointReg) (s : State) : Point :=
  if (getTriple t s).inf then .inf else .aff (sext32 (getTriple t s).x) (sext32 (getTriple t s).y)

/-- The triple that holds a point (10_state.md R32). -/
def tripleOf : Point → Triple
  | .inf => ⟨0, 0, true⟩
  | .aff x y => ⟨enc32 x, enc32 y, false⟩

/-- `pointOut(T, V)` (10_state.md R32). -/
def pointOut (t : PointReg) (v : Point) (s : State) : State := setTriple t (tripleOf v) s

/-- The base point `G`, always affine (10_state.md R34). -/
def basePoint (s : State) : Point := .aff (sext32 s.gx) (sext32 s.gy)

/-- `checkModulus()`: every command but NOP starts with it (40_modular.md R122). -/
def checkModulus (s : State) : Except ErrCode Int :=
  if sext32 s.p < 2 then .error .badModulus else .ok (sext32 s.p)

/-- Whether a point passes `checkPoint` for `p`: `Inf` always, `Aff(x, y)` when both coordinates are in `[0, p)`
(41_curve_group.md R150). -/
def inRange (v : Point) (p : Int) : Bool :=
  match v with
  | .inf => true
  | .aff x y => decide (0 ≤ x) && decide (x < p) && decide (0 ≤ y) && decide (y < p)

/-- `checkPoint(V, p)` (41_curve_group.md R150). -/
def checkPoint (v : Point) (p : Int) : Except ErrCode Unit :=
  if inRange v p then .ok () else .error .badPoint

/-- `checkScalar(k)` (41_curve_group.md R151). -/
def checkScalar (k : Int) : Except ErrCode Unit :=
  if k < 0 then .error .badScalar else .ok ()

end Sys2Proof.Machine
end

