-- ==== Sys2Proof/Machine/Ops.lean ====
section
/-! DEFINITION. Machine/Ops.lean: the operations every command and every bus access is made of: the point memory, the
register window, committing a command's results, and recording a command's end, with or without
an error. The block has no traps (60_exceptions.md R300): `complete` is what taking a command error is on this hardware
(R308), and the error report stays until the next `issue` or reset (R309), so there is no return beside it. -/

namespace Sys2Proof.Machine

/-! The point memory (10_state.md R36). -/

/-- The value entry `i` holds, if it holds one. -/
def Memory.read (m : Memory) (i : Nat) : Option (Int × Int) :=
  match m with
  | [] => none
  | (j, v) :: rest => if j = i then some v else Memory.read rest i

/-- `PTMEM[i] <- v`, in the canonical form. -/
def Memory.write (m : Memory) (i : Nat) (v : Int × Int) : Memory :=
  match m with
  | [] => [(i, v)]
  | (j, w) :: rest =>
    if i < j then (i, v) :: (j, w) :: rest
    else if i = j then (i, v) :: rest
    else (j, w) :: Memory.write rest i v

/-- The loop `for i in 0 .. length(L)-1: PTMEM[base + i] <- L[i]` (42_enumerator.md R191). -/
def Memory.writeFrom (m : Memory) (base : Nat) (l : List (Int × Int)) : Memory :=
  match l with
  | [] => m
  | v :: rest => Memory.writeFrom (m.write base v) (base + 1) rest

/-- The canonical form: indices strictly rising, so no index is listed twice. An unlisted index holds no value, so no
entry can equal what an unlisted index reads as. -/
def Memory.wf (m : Memory) : Bool :=
  match m with
  | [] => true
  | (i, _) :: rest => rest.all (fun e => decide (i < e.1)) && Memory.wf rest

/-- `PTMEM[i]` as a command or a read of PX and PY sees it; a free value where the memory holds none (R36, R43). -/
def ptEntry (s : State) (i : Nat) : Int × Int := (s.ptmem.read i).getD (Config.unspecifiedEntry i)

/-- The curve list: entries `0 .. PCOUNT-1` in order (R36). -/
def curveList (s : State) : List (Int × Int) := (List.range s.pcount).map (ptEntry s)

/-- `NPT`, the capacity of the point memory, as CAP holds it (10_state.md R25). -/
def npt (s : State) : Nat := s.cap.toNat

/-! The other registers a command writes. -/

/-- `REG[RN] <- w` (R33). -/
def setRn (w : Word) (s : State) : State := { s with rn := w }

/-- `REG[MREG] <- m; REG[HREG] <- h` (43_codec.md R213). -/
def setCodec (m h : Word) (s : State) : State := { s with mreg := m, hreg := h }

/-- ENUM's write of the point memory, PCOUNT and PTVALID (42_enumerator.md R191). -/
def setList (mem : Memory) (count : Nat) (valid : Bool) (s : State) : State :=
  { s with ptmem := mem, pcount := count, status := statusPtvalid valid s.status }

/-- Writing STATUS. -/
def setStatus (f : Status) (s : State) : State := { s with status := f }

/-! The end of a command (45_control.md R271, 60_exceptions.md R300 to R303, R308). -/

/-- Completion: BUSY falls, DONE rises, and the outcome is recorded; nothing else changes (45_control.md R271,
60_exceptions.md R302). -/
def complete (e : Option ErrCode) (step : BitVec 4) (s : State) : State := setStatus (statusCompleted e step s.status) s

/-- The completion step of a command other than ECDH: ERRSTEP is 0 (44_orchestrator.md R234). -/
def finish (ran : Ran) : Host.Outcome State Fault Refusal := .next (complete ran.error 0 ran.state)

/-- The commit policy (60_exceptions.md R303): a computation that fails writes nothing, and one that succeeds commits its
result. -/
def attempt {α : Type} (result : Except ErrCode α) (commit : α → State → State) (s : State) : Ran :=
  match result with
  | .ok v => ⟨commit v s, none⟩
  | .error e => ⟨s, some e⟩

/-- Issue of a command word (45_control.md R270). -/
def issue (v : Word) (s : State) : State := { s with cmd := v, status := statusIssued s.status }

/-- The model's own agenda replaced. -/
def withAgenda (turns : List Turn) (s : State) : State := { s with agenda := turns }

/-- The reset step (70_reset_and_hazards.md R340, R341): every register at its reset value, CAP kept. What the outside
world still has to do, what it has been answered and the count of free values are the model's own and stay. -/
def resetStep (s : State) : State :=
  { State.resetOf s.cap with agenda := s.agenda, responses := s.responses, draws := s.draws }

/-! The register window (10_state.md R21, 20_memory.md R64 to R67). -/

/-- The offset of the first register of a triple (R21). -/
def tripleBase : PointReg → Nat
  | .p1 => 0x030
  | .p2 => 0x040
  | .r => 0x060
  | .qa => 0x090
  | .qb => 0x0A0
  | .sa => 0x0B0
  | .sb => 0x0C0
  | .qm => 0x0E0
  | .c => 0x0F0
  | .sp => 0x100

/-- The offset of a register (R21). -/
def regOffset : RegName → Nat
  | .id => 0x000
  | .cmd => 0x004
  | .status => 0x008
  | .cap => 0x00C
  | .p => 0x010
  | .a => 0x014
  | .b => 0x018
  | .n => 0x020
  | .k => 0x024
  | .rn => 0x050
  | .gx => 0x070
  | .gy => 0x074
  | .da => 0x078
  | .db => 0x07C
  | .msg => 0x080
  | .mreg => 0x0D0
  | .hreg => 0x0D4
  | .pcount => 0x110
  | .pidx => 0x114
  | .px => 0x118
  | .py => 0x11C
  | .ptX t => tripleBase t
  | .ptY t => tripleBase t + 4
  | .ptInf t => tripleBase t + 8

/-- Every triple, in the order of the register map (R21). -/
def allTriples : List PointReg := [.p1, .p2, .r, .qa, .qb, .sa, .sb, .qm, .c, .sp]

/-- The registers that belong to no triple, in the order of the register map (R21). -/
def plainRegs : List RegName :=
  [.id, .cmd, .status, .cap, .p, .a, .b, .n, .k, .rn, .gx, .gy, .da, .db, .msg, .mreg, .hreg, .pcount, .pidx, .px, .py]

/-- The three registers of a triple (R21). -/
def tripleRegs (t : PointReg) : List RegName := [.ptX t, .ptY t, .ptInf t]

/-- Every register of the register map (R21). -/
def allRegs : List RegName := plainRegs ++ allTriples.flatMap tripleRegs

/-- The register at an offset; none at a reserved offset (R64). -/
def regAt (off : Nat) : Option RegName := allRegs.find? (fun name => regOffset name == off)

/-- What the host's access classes allow (R21). -/
inductive WriteClass where
  /-- RO: the write has no effect. -/
  | ro
  /-- RW: the write is stored. -/
  | rw
  /-- STATUS: bit 4 is write-1-to-clear. -/
  | status
  /-- CMD: the write issues a command. -/
  | cmd
  /-- P, A, B: the write is stored and PTVALID cleared (R27). -/
  | param
deriving DecidableEq, Repr

/-- The triples the host writes: the operands P1 and P2 (R21, R29). Every other triple is a result. -/
def isOperand : PointReg → Bool
  | .p1 | .p2 => true
  | .r | .qa | .qb | .sa | .sb | .qm | .c | .sp => false

/-- The access class of a register (R21, 20_memory.md R67). -/
def writeClass : RegName → WriteClass
  | .status => .status
  | .cmd => .cmd
  | .p | .a | .b => .param
  | .n | .k | .gx | .gy | .da | .db | .msg | .pidx => .rw
  | .id | .cap | .rn | .mreg | .hreg | .pcount | .px | .py => .ro
  | .ptX t => if isOperand t then .rw else .ro
  | .ptY t => if isOperand t then .rw else .ro
  | .ptInf t => if isOperand t then .rw else .ro

/-- The registers of `RESULT`, which read as any value while a command runs (20_memory.md R66). -/
def isResult : RegName → Bool
  | .rn | .mreg | .hreg | .pcount | .px | .py => true
  | .ptX t => !isOperand t
  | .ptY t => !isOperand t
  | .ptInf t => !isOperand t
  | .id | .cmd | .status | .cap | .p | .a | .b | .n | .k | .gx | .gy | .da | .db | .msg | .pidx => false

/-- The stored content of an INF register: only bit 0, the rest reads 0 (10_state.md R30). -/
def infWord (f : Bool) : Word := (flagBit f).zeroExtend 32

/-- The word a register reads as when no command is in progress (20_memory.md R66). -/
def regRead (name : RegName) (s : State) : Word :=
  match name with
  | .id => Config.idWord
  | .cmd => s.cmd
  | .status => statusWord s.status
  | .cap => s.cap
  | .p => s.p
  | .a => s.a
  | .b => s.b
  | .n => s.n
  | .k => s.k
  | .rn => s.rn
  | .gx => s.gx
  | .gy => s.gy
  | .da => s.da
  | .db => s.db
  | .msg => s.msg
  | .mreg => s.mreg
  | .hreg => s.hreg
  | .pcount => enc32 s.pcount
  | .pidx => s.pidx
  | .px => if s.pidx.toNat < s.pcount then enc32 (ptEntry s s.pidx.toNat).1 else 0
  | .py => if s.pidx.toNat < s.pcount then enc32 (ptEntry s s.pidx.toNat).2 else 0
  | .ptX t => (getTriple t s).x
  | .ptY t => (getTriple t s).y
  | .ptInf t => infWord (getTriple t s).inf

/-- Storing a host's word in a register of class RW or param; a register of another class is left as it is
(20_memory.md R67). -/
def regStore (name : RegName) (v : Word) (s : State) : State :=
  match name with
  | .p => { s with p := v }
  | .a => { s with a := v }
  | .b => { s with b := v }
  | .n => { s with n := v }
  | .k => { s with k := v }
  | .gx => { s with gx := v }
  | .gy => { s with gy := v }
  | .da => { s with da := v }
  | .db => { s with db := v }
  | .msg => { s with msg := v }
  | .pidx => { s with pidx := v }
  | .ptX t => if isOperand t then setTriple t { getTriple t s with x := v } s else s
  | .ptY t => if isOperand t then setTriple t { getTriple t s with y := v } s else s
  | .ptInf t => if isOperand t then setTriple t { getTriple t s with inf := v.getLsbD 0 } s else s
  | .id | .cmd | .status | .cap | .rn | .mreg | .hreg | .pcount | .px | .py => s

end Sys2Proof.Machine
end

