-- ==== Sys2Proof/Machine/Bus.lean ====
section
/-! DEFINITION. Machine/Bus.lean: the host's accesses (20_memory.md R60 to R69). -/

namespace Sys2Proof.Machine

/-- What an access addresses. -/
inductive Target where
  /-- A register of the window. -/
  | reg (name : RegName)
  /-- An illegal access inside the window: a bus error (R62, R63, R64). -/
  | illegal
  /-- An offset at or above `0x200`, which this block does not decode (R61). -/
  | outside
deriving DecidableEq, Repr

/-- The target of an access of `size` bytes at offset `off` (R61 to R64). -/
def target (off size : Nat) : Target :=
  if 0x200 ≤ off then .outside
  else if size ≠ 4 ∨ off % 4 ≠ 0 then .illegal
  else
    match regAt off with
    | some name => .reg name
    | none => .illegal

/-- Recording the block's answer to an access. -/
def answer (r : Response) (s : State) : State := { s with responses := r :: s.responses }

/-- `BusRead` of a register (R66): a result register read while a command runs answers a fresh free value, every other read
the stored word. -/
def readRegister (name : RegName) (s : State) : State :=
  if s.status.busy && isResult name then
    { answer (.read (Config.busyReadWord s.draws) none) s with draws := s.draws + 1 }
  else answer (.read (regRead name s) none) s

/-- What `BusWrite` of `v` does to a register (R67). A STATUS write is accepted at any time; every other write is discarded
while a command runs, a write of an RO register included, and BUSYWR set. -/
def writeRegister (name : RegName) (v : Word) (s : State) : State :=
  if writeClass name = .status then setStatus (statusWritten v s.status) s
  else if s.status.busy then setStatus (statusDiscarded s.status) s
  else
    match writeClass name with
    | .ro => s
    | .rw => regStore name v s
    | .cmd => issue v s
    | .param => setStatus (statusPtvalid false s.status) (regStore name v s)
    | .status => s

/-- `BusRead(off, n)` (R60, R66). A bus error answers the data value 0 with the error response and changes no state. -/
def busRead (off size : Nat) (s : State) : Host.Outcome State Fault Refusal :=
  match target off size with
  | .reg name => .next (readRegister name s)
  | .illegal => .next (answer (.read 0 (some (.busError off size))) s)
  | .outside => .refused (.outsideWindow off size)

/-- `BusWrite(off, n, v)` (R60, R67). A bus error changes no state, BUSYWR included. -/
def busWrite (off size : Nat) (v : Word) (s : State) : Host.Outcome State Fault Refusal :=
  match target off size with
  | .reg name => .next (answer (.write none) (writeRegister name v s))
  | .illegal => .next (answer (.write (some (.busError off size))) s)
  | .outside => .refused (.outsideWindow off size)

/-- The byte lane `addr` of the register window: lane `off + k` carries bits [8k+7:8k] of the register at `off`; no value at a
reserved offset (R64, R65). -/
def windowByte (addr : Nat) (s : State) : Option Byte :=
  (regAt (addr - addr % 4)).map fun name => laneOf (regRead name s) (addr % 4)

/-- The host's step: one access (10_state.md R20). -/
def hostTurn (acc : Access) (s : State) : Host.Outcome State Fault Refusal :=
  match acc with
  | .read off size => busRead off size s
  | .write off size v => busWrite off size v s

end Sys2Proof.Machine
end

