-- ==== Sys2Proof/Machine/Control.lean ====
section
/-! DEFINITION. Machine/Control.lean: the command NOP and the end of an illegal word (45_control.md R274, R275). -/

namespace Sys2Proof.Machine

/-- NOP (R274): no pseudocode, the outcome is `Ok`. P is not checked. -/
def execNop (s : State) : Host.Outcome State Fault Refusal := finish ⟨s, none⟩

/-- The completion of a word that decodes to no command: it raises IllegalCommand before anything else is looked at
(R275, 60_exceptions.md R304). -/
def execIllegal (s : State) : Host.Outcome State Fault Refusal := finish ⟨s, some .illegalCommand⟩

end Sys2Proof.Machine
end

