-- ==== Sys2Proof/Machine/Modular.lean ====
section
/-! DEFINITION. Machine/Modular.lean: modular_reducer and modular_inverse, the commands REDUCE and INV (40_modular.md R120
to R126). -/

namespace Sys2Proof.Machine

/-- `reduce(n, p)`, the unique `r` with `0 ≤ r < p` and `r ≡ n (mod p)`, for `p ≥ 2` (R120). `Int` is exact
(00_scope.md R7). -/
def reduce (n p : Int) : Int := n % p

/-- The loop of R121: tries `x`, `x + 1`, … for `count` values and answers the first with `reduce(r * x, p) = 1`. -/
def scanFrom (r p : Int) (count : Nat) (x : Int) : Except ErrCode Int :=
  match count with
  | 0 => .error .noInverseExists
  | more + 1 => if reduce (r * x) p = 1 then .ok x else scanFrom r p more (x + 1)

/-- `inverse(n, p)` as R121 writes it: the ascending scan of `1 .. p-1` for the reduced operand. This is the DEFINITION of
the result. The machine runs `inverse`, which `Laws/Modular.lean` proves equal to it (`inverse_eq_scan`). -/
def inverseScan (n p : Int) : Except ErrCode Int := scanFrom (reduce n p) p (p - 1).toNat 1

/-- The extended Euclidean algorithm on `(a, b)`, carrying the coefficients `u`, `v` of the operand; answers the gcd and its
coefficient. `fuel` bounds the passes. -/
def euclid (fuel : Nat) (a b u v : Int) : Int × Int :=
  match fuel with
  | 0 => (a, u)
  | more + 1 => if b = 0 then (a, u) else euclid more b (a % b) v (u - a / b * v)

/-- `inverse(n, p)` for `p ≥ 2`, by the extended Euclidean algorithm, which R126 allows in place of the scan: the result is
that of `inverseScan` on every operand. -/
def inverse (n p : Int) : Except ErrCode Int :=
  if (euclid (p.toNat + 2) (reduce n p) p 1 0).1 = 1 then
    .ok (reduce (euclid (p.toNat + 2) (reduce n p) p 1 0).2 p)
  else .error .noInverseExists

/-- The computation of REDUCE (R123). -/
def reduceValue (s : State) : Except ErrCode Int := do
  let p ← checkModulus s
  let n := sext32 s.n
  return reduce n p

/-- REDUCE (R123). -/
def execReduce (s : State) : Host.Outcome State Fault Refusal :=
  finish (attempt (reduceValue s) (fun r => setRn (enc32 r)) s)

/-- The computation of INV (R124). -/
def invValue (s : State) : Except ErrCode Int := do
  let p ← checkModulus s
  let n := sext32 s.n
  inverse n p

/-- INV (R124). -/
def execInv (s : State) : Host.Outcome State Fault Refusal :=
  finish (attempt (invValue s) (fun x => setRn (enc32 x)) s)

end Sys2Proof.Machine
end

