-- ==== Sys2Proof/Machine/Codec.lean ====
section
/-! DEFINITION. Machine/Codec.lean: point_codec, the command ENCODE (43_codec.md R210 to R214). -/

namespace Sys2Proof.Machine

/-- The loop of `chooseM` (R210). Each pass doubles `c ≥ 1`, so `fuel = m` passes are enough. -/
def doubleUntil (fuel : Nat) (c m : Int) : Int :=
  match fuel with
  | 0 => c
  | more + 1 => if c < m then doubleUntil more (2 * c) m else c

/-- `chooseM(m)`: the smallest power of two `≥ m`, 1 for `m ≤ 1` (R210, 90_conflicts.md C1). -/
def chooseM (m : Int) : Int := doubleUntil m.toNat 1 m

/-- `h = floor(p / M)` (R211). -/
def slotWidth (p m : Int) : Int := p / chooseM m

/-- The loop of `encode` (R212): tries `cx = reduce(m*h + j, p)` for `count` values of `j` from the given one, and answers
the first point of the list with that x. -/
def searchFrom (l : List (Int × Int)) (m h p : Int) (count : Nat) (j : Int) : Except ErrCode Point :=
  match count with
  | 0 => .error .encodingNotFound
  | more + 1 =>
    match l.find? (fun q => decide (q.1 = reduce (m * h + j) p)) with
    | some q => .ok (.aff q.1 q.2)
    | none => searchFrom l m h p more (j + 1)

/-- `encode(m, L, p)` (R212). -/
def encodePoint (m : Int) (l : List (Int × Int)) (p : Int) : Except ErrCode Point :=
  searchFrom l m (slotWidth p m) p (slotWidth p m).toNat 0

/-- ENCODE's checks before anything is written (R213). -/
def encodeChecks (s : State) : Except ErrCode Int := do
  let p ← checkModulus s
  if s.status.ptvalid = false then throw .notEnumerated
  if s.pcount = 0 then throw .degenerateCurve
  return p

/-- The pseudocode of ENCODE (R213), which is also step 4 of ECDH. MREG and HREG are written before the search. -/
def encodeBody (s : State) : Ran :=
  match encodeChecks s with
  | .error e => ⟨s, some e⟩
  | .ok p =>
    let m := sext32 s.msg
    attempt (encodePoint m (curveList s) p) (pointOut .qm) (setCodec (enc32 (chooseM m)) (enc32 (slotWidth p m)) s)

/-- ENCODE (R213). -/
def execEncode (s : State) : Host.Outcome State Fault Refusal := finish (encodeBody s)

end Sys2Proof.Machine
end

