-- ==== Sys2Proof/Machine/Curve.lean ====
section
/-! DEFINITION. Machine/Curve.lean: ec_point_doubler, ec_point_adder and ec_scalar_multiplier, the commands PDBL, PADD and
PMUL (41_curve_group.md R150 to R159). No operand is tested for lying on the curve (R158) and B is not read. -/

namespace Sys2Proof.Machine

/-- The third point of a line of slope `lam` through abscissas `x1`, `x2` and the point `(x1, y1)` (R152: `x3`, `y3`). -/
def chord (lam x1 y1 x2 p : Int) : Point :=
  .aff (reduce (lam * lam - x1 - x2) p) (reduce (lam * (x1 - reduce (lam * lam - x1 - x2) p) - y1) p)

/-- `ecAdd(P, Q, a, p)` (R152). -/
def ecAdd (v w : Point) (a p : Int) : Except ErrCode Point :=
  match v, w with
  | .inf, w => .ok w
  | v, .inf => .ok v
  | .aff x1 y1, .aff x2 y2 =>
    if x1 = x2 ∧ (y1 ≠ y2 ∨ y1 = 0) then .ok .inf
    else if x1 = x2 then do
      let i ← inverse (2 * y1) p
      return chord (reduce ((3 * x1 * x1 + a) * i) p) x1 y1 x2 p
    else do
      let i ← inverse (x2 - x1) p
      return chord (reduce ((y2 - y1) * i) p) x1 y1 x2 p

/-- `ecDouble(P, a, p)` (R153). -/
def ecDouble (v : Point) (a p : Int) : Except ErrCode Point :=
  match v with
  | .inf => .ok .inf
  | .aff x y =>
    if y = 0 then .ok .inf
    else do
      let i ← inverse (2 * y) p
      let lam := reduce ((3 * x * x + a) * i) p
      let x3 := reduce (lam * lam - 2 * x) p
      let y3 := reduce (lam * (x - x3) - y) p
      return .aff x3 y3

/-- The loop's line `if n mod 2 == 1: R <- ecAdd(R, T, a, p)` (R154). -/
def addWhenOdd (n : Nat) (r t : Point) (a p : Int) : Except ErrCode Point :=
  if n % 2 = 1 then ecAdd r t a p else .ok r

/-- The loop of `scalarMul` (R154): `r`, `t` and `n` are the loop's variables. `n` halves on each pass, so `fuel = n` passes
are enough. The doubling is performed on every pass, the last included, and its failure is the command's. -/
def mulLoop (fuel : Nat) (r t : Point) (n : Nat) (a p : Int) : Except ErrCode Point :=
  match fuel with
  | 0 => .ok r
  | more + 1 =>
    if n = 0 then .ok r
    else do
      let r' ← addWhenOdd n r t a p
      let t' ← ecAdd t t a p
      mulLoop more r' t' (n / 2) a p

/-- `scalarMul(P, k, a, p)` for `k ≥ 0` (R154). -/
def scalarMul (v : Point) (k a p : Int) : Except ErrCode Point := mulLoop k.toNat .inf v k.toNat a p

/-- The computation of PDBL (R155). -/
def pdblValue (s : State) : Except ErrCode Point := do
  let p ← checkModulus s
  let a := sext32 s.a
  let v := pointIn .p1 s
  checkPoint v p
  ecDouble v a p

/-- PDBL (R155). -/
def execPdbl (s : State) : Host.Outcome State Fault Refusal :=
  finish (attempt (pdblValue s) (pointOut .r) s)

/-- The computation of PADD (R156). -/
def paddValue (s : State) : Except ErrCode Point := do
  let p ← checkModulus s
  let a := sext32 s.a
  let v1 := pointIn .p1 s
  checkPoint v1 p
  let v2 := pointIn .p2 s
  checkPoint v2 p
  ecAdd v1 v2 a p

/-- PADD (R156). -/
def execPadd (s : State) : Host.Outcome State Fault Refusal :=
  finish (attempt (paddValue s) (pointOut .r) s)

/-- The computation of PMUL (R157). -/
def pmulValue (s : State) : Except ErrCode Point := do
  let p ← checkModulus s
  let a := sext32 s.a
  let v := pointIn .p1 s
  checkPoint v p
  let k := sext32 s.k
  checkScalar k
  scalarMul v k a p

/-- PMUL (R157). -/
def execPmul (s : State) : Host.Outcome State Fault Refusal :=
  finish (attempt (pmulValue s) (pointOut .r) s)

end Sys2Proof.Machine
end

