-- ==== Sys2Proof/Machine/Enumerator.lean ====
section
/-! DEFINITION. Machine/Enumerator.lean: curve_point_enumerator, the command ENUM (42_enumerator.md R190 to R193). -/

namespace Sys2Proof.Machine

/-- Whether `(x, y)` satisfies the test of R190's inner loop. -/
def onCurve (x y a b p : Int) : Bool := decide (reduce (y * y) p = reduce (x * x * x + a * x + b) p)

/-- The values `0, 1, ..., p-1` both loops of R190 run through. -/
def residues (p : Int) : List Int := (List.range p.toNat).map Int.ofNat

/-- `allPoints(p, a, b)`: increasing `x`, then increasing `y` (R190). -/
def allPoints (p a b : Int) : List (Int × Int) :=
  (residues p).flatMap fun x => ((residues p).filter fun y => onCurve x y a b p).map fun y => (x, y)

/-- ENUM's pseudocode once the modulus is checked (R191). When the list is longer than `NPT` nothing of it is kept and the
point memory holds no value (R192). -/
def enumWith (l : List (Int × Int)) (s : State) : Ran :=
  if npt s < l.length then ⟨setList [] 0 false s, some .pointMemOverflow⟩
  else ⟨setList (s.ptmem.writeFrom 0 l) l.length true s, none⟩

/-- The pseudocode of ENUM (R191), which is also step 1 of ECDH. -/
def enumBody (s : State) : Ran :=
  match checkModulus s with
  | .error e => ⟨s, some e⟩
  | .ok p => enumWith (allPoints p (sext32 s.a) (sext32 s.b)) s

/-- ENUM (R191). -/
def execEnum (s : State) : Host.Outcome State Fault Refusal := finish (enumBody s)

end Sys2Proof.Machine
end

