-- ==== Sys2Proof/Machine/Orchestrator.lean ====
section
/-! DEFINITION. Machine/Orchestrator.lean: ecdh_orchestrator, the commands KEYGEN, SHARED, ENCRYPT and ECDH
(44_orchestrator.md R230 to R235). -/

namespace Sys2Proof.Machine

/-- The computation of KEYGEN: `(dA·G, dB·G)` (R230). -/
def keygenValue (s : State) : Except ErrCode (Point × Point) := do
  let p ← checkModulus s
  let a := sext32 s.a
  let g := basePoint s
  checkPoint g p
  let dA := sext32 s.da
  checkScalar dA
  let dB := sext32 s.db
  checkScalar dB
  let qa ← scalarMul g dA a p
  let qb ← scalarMul g dB a p
  return (qa, qb)

/-- The pseudocode of KEYGEN (R230), which is also step 2 of ECDH: both points or neither. -/
def keygenBody (s : State) : Ran :=
  attempt (keygenValue s) (fun q s => pointOut .qb q.2 (pointOut .qa q.1 s)) s

/-- KEYGEN (R230). -/
def execKeygen (s : State) : Host.Outcome State Fault Refusal := finish (keygenBody s)

/-- The computation of SHARED: `(dA·QB, dB·QA)` (R231). -/
def sharedValue (s : State) : Except ErrCode (Point × Point) := do
  let p ← checkModulus s
  let a := sext32 s.a
  let va := pointIn .qa s
  checkPoint va p
  let vb := pointIn .qb s
  checkPoint vb p
  let dA := sext32 s.da
  checkScalar dA
  let dB := sext32 s.db
  checkScalar dB
  let sa ← scalarMul vb dA a p
  let sb ← scalarMul va dB a p
  return (sa, sb)

/-- The pseudocode of SHARED (R231), which is also step 3 of ECDH: SA and SB stay written when they differ. -/
def sharedBody (s : State) : Ran :=
  match sharedValue s with
  | .error e => ⟨s, some e⟩
  | .ok (sa, sb) => ⟨pointOut .sb sb (pointOut .sa sa s), if sa = sb then none else some .secretMismatch⟩

/-- SHARED (R231). -/
def execShared (s : State) : Host.Outcome State Fault Refusal := finish (sharedBody s)

/-- The computation of ENCRYPT: `QM + SA` (R232). -/
def encryptValue (s : State) : Except ErrCode Point := do
  let p ← checkModulus s
  let a := sext32 s.a
  let vm := pointIn .qm s
  checkPoint vm p
  let vs := pointIn .sa s
  checkPoint vs p
  ecAdd vm vs a p

/-- The pseudocode of ENCRYPT (R232), which is also step 5 of ECDH: QA is copied to SP bit for bit. -/
def encryptBody (s : State) : Ran :=
  attempt (encryptValue s) (fun v s => setTriple .sp (getTriple .qa s) (pointOut .c v s)) s

/-- ENCRYPT (R232). -/
def execEncrypt (s : State) : Host.Outcome State Fault Refusal := finish (encryptBody s)

/-- The five steps of ECDH in their order, each with its number (R233). -/
def ecdhSteps : List (BitVec 4 × (State → Ran)) :=
  [(1, enumBody), (2, keygenBody), (3, sharedBody), (4, encodeBody), (5, encryptBody)]

/-- Runs steps in order, each on the registers as the one before left them, and completes; the first error ends the command
and is recorded with its step number (R233, R234). -/
def runSteps (steps : List (BitVec 4 × (State → Ran))) (s : State) : State :=
  match steps with
  | [] => complete none 0 s
  | (number, body) :: rest =>
    match (body s).error with
    | none => runSteps rest (body s).state
    | some e => complete (some e) number (body s).state

/-- ECDH (R233). -/
def execEcdh (s : State) : Host.Outcome State Fault Refusal := .next (runSteps ecdhSteps s)

end Sys2Proof.Machine
end

