-- ==== Sys2Proof/Machine/Dispatch.lean ====
section
/-! DEFINITION. Machine/Dispatch.lean: one arm per command (30_encoding.md R92). `exec i s` is the completion step of the
command `i` (45_control.md R271): its pseudocode on the registers of `s`, then the record in STATUS. -/

namespace Sys2Proof.Machine

/-- The meaning of a command. -/
def exec (i : Instr) (s : State) : Host.Outcome State Fault Refusal :=
  match i with
  | .nop => Sys2Proof.Machine.execNop s
  | .reduce => Sys2Proof.Machine.execReduce s
  | .inv => Sys2Proof.Machine.execInv s
  | .pdbl => Sys2Proof.Machine.execPdbl s
  | .padd => Sys2Proof.Machine.execPadd s
  | .pmul => Sys2Proof.Machine.execPmul s
  | .enum => Sys2Proof.Machine.execEnum s
  | .encode => Sys2Proof.Machine.execEncode s
  | .keygen => Sys2Proof.Machine.execKeygen s
  | .shared => Sys2Proof.Machine.execShared s
  | .encrypt => Sys2Proof.Machine.execEncrypt s
  | .ecdh => Sys2Proof.Machine.execEcdh s

end Sys2Proof.Machine
end

