-- ==== Sys2Proof/Machine/Fetch.lean ====
section
/-! DEFINITION. Machine/Fetch.lean: the core's turn (10_state.md R20, R39, 45_control.md R271). There is no program counter
and no fetch (10_state.md R40): the command in progress is the word in CMD. -/

namespace Sys2Proof.Machine

/-- The step *complete* (45_control.md R271): the word in CMD is decoded and runs. -/
def completeStep (s : State) : Host.Outcome State Fault Refusal :=
  match decode s.cmd with
  | .ok i => exec i s
  | .error _ => execIllegal s

/-- The core's turn: *complete* is enabled exactly when BUSY is 1 (10_state.md R20); otherwise nothing happens
(60_exceptions.md R314). -/
def coreTurn (s : State) : Host.Outcome State Fault Refusal :=
  if s.status.busy then completeStep s else .next s

/-- A table word as the command in progress: it is issued (45_control.md R270) and the core has the next turn. -/
def placeWord (nbits w : Nat) (s : State) : State :=
  { issue (BitVec.ofNat 32 (w % 2 ^ nbits)) s with agenda := .core :: s.agenda }

end Sys2Proof.Machine
end

