-- ==== Sys2Proof/Machine/Step.lean ====
section
/-! DEFINITION. Machine/Step.lean: one step of the machine. Host accesses, completion steps and resets are steps of one
sequence (60_exceptions.md R307), in any interleaving (45_control.md R271): which one comes next is the head of the state's
agenda. With an empty agenda the core takes its turn: a completion that stays enabled is taken (70_reset_and_hazards.md
R349), and an idle block stays as it is. -/

namespace Sys2Proof.Machine

/-- One turn of one agent (10_state.md R20). -/
def takeTurn (t : Turn) (s : State) : Host.Outcome State Fault Refusal :=
  match t with
  | .host acc => hostTurn acc s
  | .core => coreTurn s
  | .reset => .next (resetStep s)

/-- One step. -/
def step (s : State) : Host.Outcome State Fault Refusal :=
  match s.agenda with
  | [] => coreTurn s
  | t :: rest => takeTurn t (withAgenda rest s)

/-- The state whose next step runs the command of a table word (notes/assumptions/3.md). -/
def State.withFetchWord (s : State) (nbits w : Nat) : State := placeWord nbits w s

end Sys2Proof.Machine
end

