-- ==== Sys2Proof/Machine/HostProgram.lean ====
section
/-! DEFINITION. Machine/HostProgram.lean: the host's side of the interface: the lines of a host program and the bus access
each is (30_encoding.md R96), and the pseudo-instructions (R97), as turns for a state's agenda. A host's labels and
branches are no part of the block (R96); a run of a host loop is the list of the accesses it made. -/

namespace Sys2Proof.Machine

/-- One line of a host program that makes an access (R96). -/
inductive HostLine where
  /-- `wr NAME, v`. -/
  | wr (name : RegName) (v : Int)
  /-- `rd NAME`. -/
  | rd (name : RegName)
  /-- `cmd MNEMONIC`. -/
  | cmd (i : Instr)
deriving DecidableEq, Repr

/-- R96 allows a `v` in `[-2^31, 2^32-1]`. -/
def lineWellFormed : HostLine → Bool
  | .wr _ v => decide (-2 ^ 31 ≤ v) && decide (v ≤ 2 ^ 32 - 1)
  | .rd _ | .cmd _ => true

/-- The bus access of a line (R96). -/
def lineAccess : HostLine → Access
  | .wr name v => .write (regOffset name) 4 (enc32 v)
  | .rd name => .read (regOffset name) 4
  | .cmd i => .write (regOffset .cmd) 4 (encode i)

/-- The turns of lines that follow one another with no turn of the core in between. -/
def lineTurns (lines : List HostLine) : List Turn := lines.map fun line => .host (lineAccess line)

/-- `ldcurve p, a, b` (R97). -/
def ldcurve (p a b : Int) : List HostLine := [.wr .p p, .wr .a a, .wr .b b]

/-- `ldpt T, x, y` for an operand triple (R97). -/
def ldpt (t : PointReg) (x y : Int) : List HostLine := [.wr (.ptX t) x, .wr (.ptY t) y, .wr (.ptInf t) 0]

/-- `ldinf T` for an operand triple (R97). -/
def ldinf (t : PointReg) : List HostLine := [.wr (.ptInf t) 1]

/-- `rdpt T` for any triple (R97). -/
def rdpt (t : PointReg) : List HostLine := [.rd (.ptX t), .rd (.ptY t), .rd (.ptInf t)]

/-- `clrbw` (R97). -/
def clrbw : List HostLine := [.wr .status 0x10]

/-- `rdlist` once the read of PCOUNT has answered `c` (R97). -/
def rdlist (c : Nat) : List HostLine :=
  .rd .pcount :: (List.range c).flatMap fun i => [.wr .pidx i, .rd .px, .rd .py]

/-- `wait` in a run where `polls` reads of STATUS come before the core's completion step and one after it (R97). -/
def waitTurns (polls : Nat) : List Turn :=
  lineTurns (List.replicate polls (.rd .status)) ++ .core :: lineTurns [.rd .status]

/-- `run MNEMONIC` in such a run (R97). -/
def runTurns (i : Instr) (polls : Nat) : List Turn := lineTurns [.cmd i] ++ waitTurns polls

end Sys2Proof.Machine
end

