-- ==== Sys2Proof/Safety.lean ====
section
/-! DEFINITION. Safety.lean: the terms the claims use: what a command may write and report, the frame, the invariants of the
machine, and what an orderly environment does. -/

namespace Sys2Proof.Machine

/-! Reports in STATUS (45_control.md R271). -/

/-- STATUS after a command that ended `Ok`: DONE set, the error report clear, PTVALID and BUSYWR as before. -/
def okStatus (f : Status) : Status where
  busy := false
  done := true
  err := false
  ptvalid := f.ptvalid
  busywr := f.busywr
  errcode := 0
  errstep := 0

/-- STATUS after a command that ended in the error numbered `code`, in ECDH step `n` (0 for another command). -/
def errStatus (f : Status) (code n : BitVec 4) : Status where
  busy := false
  done := true
  err := true
  ptvalid := f.ptvalid
  busywr := f.busywr
  errcode := code
  errstep := n

/-- The state after a command that ended in an error and wrote nothing else (60_exceptions.md R303). -/
def failedWith (code : BitVec 4) (s : State) : State := { s with status := errStatus s.status code 0 }

/-! The frame. -/

/-- The three registers of a triple, and nothing else, for every triple named. -/
def regsOf (ts : List PointReg) : List RegName := ts.flatMap tripleRegs

/-- The "writes" column of the opcode table (30_encoding.md R92), STATUS included. PX and PY are views of the point memory
(10_state.md R37), so they stand with PTMEM. -/
def commandWrites : Instr → List RegName
  | .nop => [.status]
  | .reduce | .inv => [.status, .rn]
  | .pdbl | .padd | .pmul => .status :: regsOf [.r]
  | .enum => [.status, .pcount, .px, .py]
  | .encode => [.status, .mreg, .hreg] ++ regsOf [.qm]
  | .keygen => .status :: regsOf [.qa, .qb]
  | .shared => .status :: regsOf [.sa, .sb]
  | .encrypt => .status :: regsOf [.c, .sp]
  | .ecdh => [.status, .pcount, .px, .py, .mreg, .hreg] ++ regsOf [.qa, .qb, .sa, .sb, .qm, .c, .sp]

/-- Whether a command may write the point memory, PCOUNT and PTVALID: ENUM and ECDH only (45_control.md R272). -/
def writesList : Instr → Bool
  | .enum | .ecdh => true
  | .nop | .reduce | .inv | .pdbl | .padd | .pmul | .encode | .keygen | .shared | .encrypt => false

/-- The error codes a command can report, by the "raised by" column of 60_exceptions.md R301; 0 is None. -/
def commandCodes : Instr → List (BitVec 4)
  | .nop => [0]
  | .reduce => [0, 5]
  | .inv => [0, 1, 5]
  | .pdbl | .padd | .encrypt => [0, 1, 5, 6]
  | .pmul | .keygen => [0, 1, 5, 6, 7]
  | .enum => [0, 5, 8]
  | .encode => [0, 2, 3, 5, 9]
  | .shared => [0, 1, 5, 6, 7, 10]
  | .ecdh => [0, 1, 2, 3, 5, 6, 7, 8, 10]

/-- The three fields that are the model's own are unchanged. -/
def sameOutside (s t : State) : Prop := t.agenda = s.agenda ∧ t.responses = s.responses ∧ t.draws = s.draws

/-- The point memory and PCOUNT are unchanged. -/
def sameList (s t : State) : Prop := (∀ i, t.ptmem.read i = s.ptmem.read i) ∧ t.pcount = s.pcount

/-! Sums of points, said without division (41_curve_group.md R152, R153). -/

/-- `(x3, y3)` is the canonical point the formulas of R152 give for the slope `lam` through `(x1, y1)` and abscissa `x2`. -/
def isChordPoint (lam x1 y1 x2 x3 y3 p : Int) : Prop :=
  (0 ≤ x3 ∧ x3 < p ∧ p ∣ lam * lam - x1 - x2 - x3) ∧ (0 ≤ y3 ∧ y3 < p ∧ p ∣ lam * (x1 - x3) - y1 - y3)

/-- `(x3, y3)` is the double of `(x, y)`: its slope solves `2y · lam ≡ 3x² + a`. -/
def isDouble (x y a x3 y3 p : Int) : Prop :=
  ∃ lam, p ∣ 2 * y * lam - (3 * x * x + a) ∧ isChordPoint lam x y x x3 y3 p

/-- `(x3, y3)` is the sum of two points of different abscissa: its slope solves `(x2 - x1) · lam ≡ y2 - y1`. -/
def isSum (x1 y1 x2 y2 x3 y3 p : Int) : Prop :=
  ∃ lam, p ∣ (x2 - x1) * lam - (y2 - y1) ∧ isChordPoint lam x1 y1 x2 x3 y3 p

/-- `n` copies of a point added up one by one, from infinity (what `n·P` means, 41_curve_group.md R154). -/
def repeatedSum (n : Nat) (v : Point) (a p : Int) : Except ErrCode Point :=
  match n with
  | 0 => .ok .inf
  | more + 1 => do
    let u ← repeatedSum more v a p
    ecAdd u v a p

/-! Invariants. -/

/-- The point memory is canonical, holds only entries below `NPT` with coordinates in `[0, 2^31-1)`, and holds every entry
below `PCOUNT ≤ NPT` (10_state.md R25, R36). -/
structure MemoryInv (s : State) : Prop where
  nptPos : 1 ≤ npt s
  canonical : s.ptmem.wf = true
  entries : ∀ e ∈ s.ptmem, e.1 < npt s ∧ 0 ≤ e.2.1 ∧ e.2.1 < 2 ^ 31 - 1 ∧ 0 ≤ e.2.2 ∧ e.2.2 < 2 ^ 31 - 1
  count : s.pcount ≤ npt s
  listed : ∀ i, i < s.pcount → (s.ptmem.read i).isSome

/-- What PTVALID says (10_state.md R24): the list in the point memory is the curve list of the current P, A and B. -/
def ListInv (s : State) : Prop :=
  s.status.ptvalid = true → 2 ≤ sext32 s.p ∧ curveList s = allPoints (sext32 s.p) (sext32 s.a) (sext32 s.b)

/-- The fields of STATUS agree with one another (10_state.md R24, 44_orchestrator.md R234, 60_exceptions.md R301): ERR is 1
exactly when ERRCODE is not 0, no reserved code or step is stored, ERRSTEP is not 0 exactly for an ECDH in error, and
while a command runs DONE and the error report are clear. -/
structure StatusInv (s : State) : Prop where
  err : s.status.err = true ↔ s.status.errcode ≠ 0
  code : s.status.errcode.toNat ≤ 10
  stepRange : s.status.errstep.toNat ≤ 5
  stepError : s.status.errstep ≠ 0 → s.status.err = true ∧ decode s.cmd = .ok .ecdh
  ecdhStep : s.status.err = true → decode s.cmd = .ok .ecdh → s.status.errstep ≠ 0
  running : s.status.busy = true → s.status.done = false ∧ s.status.err = false

/-- A triple as the core writes it (10_state.md R32): `Inf` with zero coordinates, or coordinates whose bit 31 is 0. -/
def canonicalTriple (v : Triple) : Prop :=
  (v.inf = true → v.x = 0 ∧ v.y = 0) ∧ v.x.toNat < 2 ^ 31 - 1 ∧ v.y.toNat < 2 ^ 31 - 1

/-- Every result register holds a value a command may have written, or its reset value (10_state.md R32, R33, R35). -/
structure ResultsInv (s : State) : Prop where
  triples : ∀ t, isOperand t = false → canonicalTriple (getTriple t s)
  rn : s.rn.toNat < 2 ^ 31 - 1
  mreg : s.mreg.toNat ≤ 2 ^ 31
  hreg : s.hreg.toNat ≤ 2 ^ 31 - 1

/-! The environment. -/

/-- A turn this block decodes: not an access at or above offset `0x200` (20_memory.md R61). -/
def decoded : Turn → Bool
  | .host (.read off _) => decide (off < 0x200)
  | .host (.write off _ _) => decide (off < 0x200)
  | .core | .reset => true

/-- A run of commands one after the other, each completion starting from the state the one before left; it ends at the first
command in error, whose number in the run is put in ERRSTEP (44_orchestrator.md R233, 45_control.md R276). -/
def commandRun (cs : List (BitVec 4 × Instr)) (s : State) : Host.Outcome State Fault Refusal :=
  match cs with
  | [] => .next s
  | (number, i) :: rest =>
    match exec i s with
    | .next t => if t.status.err then .next { t with status := { t.status with errstep := number } } else commandRun rest t
    | .fault r => .fault r
    | .refused r => .refused r

end Sys2Proof.Machine
end

