-- ==== Sys2Proof/Certificates/Slice0/Obligations.lean ====
section
/-! DEFINITION. Certificates/Slice0/Obligations.lean: the statements for the provers. Each docstring names the rule of the
spec it formalises. A statement about a `step` takes its turn from the model's own `agenda` (notes/assumptions/1.md,
DESIGN CHOICE), and a host access is answered in the model's own `responses` (2.md). `exec i s` is the completion step of command `i` on the registers of `s`; `sext32 s.p` is `p`, and so
on. A result is given as the whole next state, so that it is its own frame; the frames by register stand beside it. -/

open Sys2Proof Sys2Proof.Machine

/-! ## Encoding -/

/-- R92: three words of the opcode map decode to their commands, and R93: two words outside it to none, as bytes in the bus's
little-endian lanes (R65). The two names of the rejection are the model's own (notes/assumptions/10.md, DEDUCED). A sanity
check of the encodings. -/
def Obligations.WordsOfTheOpcodeMapDecode : Prop :=
  decodeBytes [0x01, 0, 0, 0] = .ok .reduce ∧ decodeBytes [0x06, 0, 0, 0] = .ok .enum ∧
    decodeBytes [0x0B, 0, 0, 0] = .ok .ecdh ∧ decodeBytes [0x0C, 0, 0, 0] = .error .reservedOpcode ∧
    decodeBytes [0x01, 0x01, 0, 0] = .error .reservedBits

/-- R90, R91, R92, both directions: bytes decode to a command exactly when they are the four lanes of that command's word.
So decoding inverts encoding, and no other byte sequence is a command. -/
def Obligations.DecodeInvertsEncodeAndAcceptsNothingElse : Prop :=
  ∀ (bs : List Byte) (i : Instr), decodeBytes bs = .ok i ↔ bs = encodeBytes i

/-- R91: a word is legal exactly when bits [31:8] are 0 and bits [7:0] are at most 0x0B; every other word is rejected. R91
knows one `Illegal`: the names `reservedBits` and `reservedOpcode`, and that a word with both faults bears the first, are the
model's own (notes/assumptions/10.md, DEDUCED). -/
def Obligations.LegalWordsHaveZeroReservedBitsAndAKnownOpcode : Prop :=
  ∀ w : Word,
    ((∃ i, decode w = .ok i) ↔ w.toNat / 2 ^ 8 = 0 ∧ w.toNat % 2 ^ 8 ≤ 0x0B) ∧
      (w.toNat / 2 ^ 8 ≠ 0 → decode w = .error .reservedBits) ∧
      (w.toNat / 2 ^ 8 = 0 → 0x0B < w.toNat % 2 ^ 8 → decode w = .error .reservedOpcode)

/-! ## Registers, STATUS and points -/

/-- R24: the layout of the STATUS word. -/
def Obligations.StatusWordHasTheFieldsAtTheirBits : Prop :=
  ∀ f : Status,
    (statusWord f).getLsbD 0 = f.busy ∧ (statusWord f).getLsbD 1 = f.done ∧ (statusWord f).getLsbD 2 = f.err ∧
      (statusWord f).getLsbD 3 = f.ptvalid ∧ (statusWord f).getLsbD 4 = f.busywr ∧
      (statusWord f).extractLsb' 5 3 = 0 ∧ (statusWord f).extractLsb' 8 4 = f.errcode ∧
      (statusWord f).extractLsb' 12 4 = f.errstep ∧ (statusWord f).extractLsb' 16 16 = 0

/-- R21 and R64: an aligned offset of the window addresses a register exactly when it is none of the reserved offsets R64
lists, and no two registers share an offset. -/
def Obligations.ReservedOffsetsAreExactlyThoseListed : Prop :=
  (∀ off, off < 0x200 → off % 4 = 0 →
    (regAt off = none ↔
      off = 0x01C ∨ off = 0x028 ∨ off = 0x02C ∨ off = 0x03C ∨ off = 0x04C ∨ (0x054 ≤ off ∧ off ≤ 0x05C) ∨ off = 0x06C ∨
        (0x084 ≤ off ∧ off ≤ 0x08C) ∨ off = 0x09C ∨ off = 0x0AC ∨ off = 0x0BC ∨ off = 0x0CC ∨
        (0x0D8 ≤ off ∧ off ≤ 0x0DC) ∨ off = 0x0EC ∨ off = 0x0FC ∨ off = 0x10C ∨ 0x120 ≤ off)) ∧
    ∀ (off : Nat) (name : RegName), regAt off = some name ↔ regOffset name = off

/-- R31 and R32: a point written to a triple by `pointOut` reads back by `pointIn` as itself, for every point a command may
write; the coordinates of `Inf` are written as 0. -/
def Obligations.PointWrittenToATripleReadsBack : Prop :=
  ∀ (t : PointReg) (v : Point) (p : Int) (s : State), p ≤ 2 ^ 31 - 1 → inRange v p = true →
    pointIn t (pointOut t v s) = v ∧
      (v = .inf → regRead (.ptX t) (pointOut t v s) = 0 ∧ regRead (.ptY t) (pointOut t v s) = 0 ∧
        regRead (.ptInf t) (pointOut t v s) = 1)

/-! ## Reset -/

/-- R42: after reset ID holds `0x45434301`, CAP holds `NPT`, every other register holds 0 and no command is in progress, for
every `NPT`. -/
def Obligations.ResetLeavesEveryRegisterAtItsResetValue : Prop :=
  ∀ (capacity : Word) (name : RegName),
    regRead name (State.resetOf capacity) =
      (match name with
      | .id => 0x45434301
      | .cap => capacity
      | _ => 0) ∧
    (State.resetOf capacity).status.busy = false

/-- R340, R341: a reset step can come in any state, a command in progress included; afterwards every register reads as R42
says, CAP keeps its value, no command is in progress and the list is empty. That the agenda, the responses and the count
of draws stay is the model's choice (notes/assumptions/1.md, 2.md, 4.md). -/
def Obligations.ResetStepAbandonsTheCommandInProgress : Prop :=
  ∀ (s : State) (rest : List Turn), s.agenda = .reset :: rest →
    ∃ t, step s = .next t ∧ (∀ name, regRead name t = regRead name (State.resetOf s.cap)) ∧ t.status = .zero ∧
      t.pcount = 0 ∧ t.cap = s.cap ∧ t.agenda = rest ∧ t.responses = s.responses ∧ t.draws = s.draws

/-! ## The step -/

/-- R271, R20: when BUSY is 1 and the core has the turn, the step is the completion of the command the word in CMD decodes
to. That an empty agenda is the core's turn is the model's choice (notes/assumptions/1.md). -/
def Obligations.CoreTurnRunsTheDecodedCommand : Prop :=
  ∀ (s : State) (i : Instr), s.status.busy = true → decode s.cmd = .ok i →
    (s.agenda = [] → step s = exec i s) ∧
      ∀ rest, s.agenda = .core :: rest → step s = exec i { s with agenda := rest }

/-- R275: a word that decodes to no command completes with IllegalCommand, and nothing but STATUS is written. -/
def Obligations.IllegalWordEndsWithIllegalCommand : Prop :=
  ∀ (s : State) (why : Illegal) (rest : List Turn), s.status.busy = true → decode s.cmd = .error why →
    s.agenda = .core :: rest → step s = .next { failedWith 4 s with agenda := rest }

/-- R20, R314: while no command is in progress the core has no enabled step. -/
def Obligations.IdleCoreDoesNothing : Prop :=
  ∀ (s : State) (rest : List Turn), s.status.busy = false → s.agenda = .core :: rest →
    step s = .next { s with agenda := rest }

/-- R273, R305: no state stops the machine: a step answers a next state whenever the turn is one this block decodes, and the
one refusal is an access at or above offset `0x200` (R61). -/
def Obligations.EveryDecodedTurnHasANextState : Prop :=
  ∀ s : State,
    ((∀ t ∈ s.agenda.head?, decoded t = true) → ∃ t, step s = .next t) ∧
      ∀ t, t ∈ s.agenda.head? → decoded t = false → ∃ off size, step s = .refused (.outsideWindow off size)

/-- R271, R349: in a fair run a command completes: when the outside world does nothing more, the next step ends the command in
progress, with DONE set. That the core takes its turn at once when the agenda is empty is the model's choice
(notes/assumptions/1.md). -/
def Obligations.CommandInProgressCompletesWhenTheHostIsQuiet : Prop :=
  ∀ s : State, s.status.busy = true → s.agenda = [] →
    ∃ t, step s = .next t ∧ t.status.busy = false ∧ t.status.done = true

/-! ## Host accesses -/

/-- R60, R62, R63, R64: an access of another width than 4, at a misaligned offset or at a reserved offset is a bus error: it
is answered with the error, a read with the data value 0, and it changes no register, no STATUS bit and no entry of the
point memory. -/
def Obligations.IllegalAccessIsABusErrorAndChangesNothing : Prop :=
  ∀ (s : State) (rest : List Turn) (off size : Nat) (v : Word), off < 0x200 →
    (size ≠ 4 ∨ off % 4 ≠ 0 ∨ regAt off = none) →
    (s.agenda = .host (.read off size) :: rest →
      step s = .next { s with agenda := rest, responses := .read 0 (some (.busError off size)) :: s.responses }) ∧
    (s.agenda = .host (.write off size v) :: rest →
      step s = .next { s with agenda := rest, responses := .write (some (.busError off size)) :: s.responses })

/-- R66, R68: a read answers the stored word and has no side effect; while a command runs a read of a result register answers
some word, about which nothing is said, and touches no register either (its count of draws is the model's own,
notes/assumptions/4.md). -/
def Obligations.ReadAnswersTheRegisterWithoutSideEffect : Prop :=
  ∀ (s : State) (rest : List Turn) (name : RegName), s.agenda = .host (.read (regOffset name) 4) :: rest →
    (s.status.busy = false ∨ isResult name = false →
      step s = .next { s with agenda := rest, responses := .read (regRead name s) none :: s.responses }) ∧
    (s.status.busy = true → isResult name = true →
      ∃ v, step s =
        .next { s with agenda := rest, responses := .read v none :: s.responses, draws := s.draws + 1 })

/-- R67, R344: while a command runs, a write of any register but STATUS is discarded and BUSYWR set. -/
def Obligations.WriteWhileBusyIsDiscarded : Prop :=
  ∀ (s : State) (rest : List Turn) (name : RegName) (v : Word), s.status.busy = true → name ≠ .status →
    s.agenda = .host (.write (regOffset name) 4 v) :: rest →
    step s = .next
      { s with
        agenda := rest
        responses := .write none :: s.responses
        status := { s.status with busywr := true } }

/-- R24, R67: a write of STATUS is accepted at any time; it clears BUSYWR when bit 4 is 1 and changes nothing else. -/
def Obligations.StatusWriteClearsOnlyBusywr : Prop :=
  ∀ (s : State) (rest : List Turn) (v : Word), s.agenda = .host (.write 0x008 4 v) :: rest →
    step s = .next
      { s with
        agenda := rest
        responses := .write none :: s.responses
        status := { s.status with busywr := if v.getLsbD 4 then false else s.status.busywr } }

/-- R67, R27, R30: while no command runs, a write of an RW register is stored, whole or, for an INF register, bit 0 of it; no
other register changes, but STATUS.PTVALID, which a write of P, A or B clears, and PX and PY, the views PIDX selects.
PCOUNT and the point memory are unchanged. -/
def Obligations.AcceptedWriteIsStored : Prop :=
  ∀ (s : State) (rest : List Turn) (name : RegName) (v : Word), s.status.busy = false →
    (writeClass name = .rw ∨ writeClass name = .param) → s.agenda = .host (.write (regOffset name) 4 v) :: rest →
    ∃ t, step s = .next t ∧
      regRead name t =
        (match name with
        | .ptInf _ => v % 2
        | _ => v) ∧
      t.status = (if name = .p ∨ name = .a ∨ name = .b then { s.status with ptvalid := false } else s.status) ∧
      (∀ other, other ≠ name → other ≠ .status → (name = .pidx → other ≠ .px ∧ other ≠ .py) →
        regRead other t = regRead other s) ∧
      sameList s t ∧ t.agenda = rest ∧ t.responses = .write none :: s.responses ∧ t.draws = s.draws

/-- R21, R22, R25, R67: a write of a read-only register has no effect. -/
def Obligations.WriteOfAReadOnlyRegisterIsIgnored : Prop :=
  ∀ (s : State) (rest : List Turn) (name : RegName) (v : Word), s.status.busy = false →
    name ∈ [.id, .cap, .rn, .mreg, .hreg, .pcount, .px, .py] ++ regsOf [.r, .qa, .qb, .sa, .sb, .qm, .c, .sp] →
    s.agenda = .host (.write (regOffset name) 4 v) :: rest →
    step s = .next { s with agenda := rest, responses := .write none :: s.responses }

/-- R270, R23: a write of CMD while no command runs stores the whole word, sets BUSY and clears DONE, ERR, ERRCODE and ERRSTEP;
PTVALID, BUSYWR and every other register are unchanged. Any word issues, an illegal one too. While a command runs the
write does not issue: it is discarded. -/
def Obligations.CommandWriteIssuesTheWord : Prop :=
  ∀ (s : State) (rest : List Turn) (v : Word), s.agenda = .host (.write 0x004 4 v) :: rest →
    (s.status.busy = false →
      step s = .next
        { s with
          agenda := rest
          responses := .write none :: s.responses
          cmd := v
          status := ⟨true, false, false, s.status.ptvalid, s.status.busywr, 0, 0⟩ }) ∧
    (s.status.busy = true →
      step s = .next
        { s with
          agenda := rest
          responses := .write none :: s.responses
          status := { s.status with busywr := true } })

/-- R39, R67, R69 (b): whatever the host does while a command runs, for any number of accesses this block decodes, the command
in progress and every register a command reads are those of the issue: of the registers only STATUS.BUSYWR may differ. -/
def Obligations.HostCannotDisturbACommandInProgress : Prop :=
  ∀ (accs : List Access) (s t : State) (rest : List Turn), s.status.busy = true →
    s.agenda = accs.map .host ++ rest → Host.Core.run Sys2Proof.core accs.length s = .next t →
    t.agenda = rest ∧
      t = { s with
        agenda := rest
        responses := t.responses
        draws := t.draws
        status := { s.status with busywr := t.status.busywr } }

/-- R97 `run`, R96 `cmd`, R69 (c): a host that issues a command while none runs and polls STATUS until BUSY is 0 gets the
registers the command leaves and, in its last poll, the command's report; the polls before it read BUSY set. That `wait` is
some number of polls, then the completion, then one last poll is the model's reading (notes/assumptions/15.md, DEDUCED); the
order of the turns is the agenda's (1.md, DESIGN CHOICE), the answers stand in `responses` (2.md, DEDUCED). -/
def Obligations.RunLineRunsTheCommandAndReadsItsReport : Prop :=
  ∀ (i : Instr) (polls : Nat) (s t : State) (rest : List Turn), s.status.busy = false →
    s.agenda = runTurns i polls ++ rest → exec i (issue (encode i) s) = .next t →
    Host.Core.run Sys2Proof.core (polls + 3) s =
      .next
        { t with
          agenda := rest
          responses :=
            .read (statusWord t.status) none ::
              (List.replicate polls (.read (statusWord (statusIssued s.status)) none) ++ .write none :: s.responses) }

/-! ## Commands: results -/

/-- R274: NOP completes in every state, without looking at P. -/
def Obligations.NopOnlyCompletes : Prop :=
  ∀ s : State, exec .nop s = .next { s with status := okStatus s.status }

/-- R122, R304: with `p < 2` every command but NOP ends with BadModulus and writes nothing but STATUS; ECDH reports it in
step 1. -/
def Obligations.BadModulusStopsEveryCommandButNop : Prop :=
  ∀ (s : State) (i : Instr), sext32 s.p < 2 → i ≠ .nop →
    exec i s = .next { s with status := errStatus s.status 5 (if i = .ecdh then 1 else 0) }

/-- R123, R120: REDUCE writes the residue of N in `[0, p)`; with `p < 2` it ends with BadModulus and RN unchanged. -/
def Obligations.ReduceWritesTheCanonicalResidue : Prop :=
  ∀ s : State,
    (sext32 s.p < 2 → exec .reduce s = .next (failedWith 5 s)) ∧
    (2 ≤ sext32 s.p →
      ∃ r, 0 ≤ r ∧ r < sext32 s.p ∧ sext32 s.p ∣ sext32 s.n - r ∧
        exec .reduce s = .next { s with rn := BitVec.ofInt 32 r, status := okStatus s.status })

/-- R124: INV writes the inverse of N modulo `p` when the gcd is 1, and ends with NoInverseExists, RN unchanged, when it is
not; with `p < 2` it ends with BadModulus, RN unchanged. -/
def Obligations.InvWritesTheInverseOrReportsNone : Prop :=
  ∀ s : State,
    (sext32 s.p < 2 → exec .inv s = .next (failedWith 5 s)) ∧
    (2 ≤ sext32 s.p →
      (Int.gcd (sext32 s.n) (sext32 s.p) = 1 →
        ∃ x, 1 ≤ x ∧ x < sext32 s.p ∧ sext32 s.p ∣ sext32 s.n * x - 1 ∧
          exec .inv s = .next { s with rn := BitVec.ofInt 32 x, status := okStatus s.status }) ∧
      (Int.gcd (sext32 s.n) (sext32 s.p) ≠ 1 → exec .inv s = .next (failedWith 1 s)))

/-- R121, R126: INV answers what the ascending linear scan of R121 answers, on every operand. -/
def Obligations.InvAgreesWithTheLinearScan : Prop :=
  ∀ s : State, 2 ≤ sext32 s.p →
    (∀ x, inverseScan (sext32 s.n) (sext32 s.p) = .ok x →
      exec .inv s = .next { s with rn := BitVec.ofInt 32 x, status := okStatus s.status }) ∧
    (∀ e, inverseScan (sext32 s.n) (sext32 s.p) = .error e →
      e = .noInverseExists ∧ exec .inv s = .next (failedWith 1 s))

/-- R155: PDBL, every case of its pseudocode in order, with the formulas of R153. -/
def Obligations.PdblWritesTheDouble : Prop :=
  ∀ (s : State) (p : Int), p = sext32 s.p →
    (p < 2 → exec .pdbl s = .next (failedWith 5 s)) ∧
    (2 ≤ p → pointIn .p1 s = .inf →
      exec .pdbl s = .next { s with r := ⟨0, 0, true⟩, status := okStatus s.status }) ∧
    ∀ x y, 2 ≤ p → pointIn .p1 s = .aff x y →
      (¬(0 ≤ x ∧ x < p ∧ 0 ≤ y ∧ y < p) → exec .pdbl s = .next (failedWith 6 s)) ∧
      (0 ≤ x ∧ x < p → y = 0 → exec .pdbl s = .next { s with r := ⟨0, 0, true⟩, status := okStatus s.status }) ∧
      (0 ≤ x ∧ x < p ∧ 0 < y ∧ y < p → Int.gcd (2 * y) p ≠ 1 → exec .pdbl s = .next (failedWith 1 s)) ∧
      (0 ≤ x ∧ x < p ∧ 0 < y ∧ y < p → Int.gcd (2 * y) p = 1 →
        ∃ x3 y3, isDouble x y (sext32 s.a) x3 y3 p ∧
          exec .pdbl s =
            .next { s with r := ⟨BitVec.ofInt 32 x3, BitVec.ofInt 32 y3, false⟩, status := okStatus s.status })

/-- R156: PADD, every case of its pseudocode in order, with the formulas of R152. -/
def Obligations.PaddWritesTheSum : Prop :=
  ∀ (s : State) (p : Int) (v w : Point), p = sext32 s.p → pointIn .p1 s = v → pointIn .p2 s = w →
    (p < 2 → exec .padd s = .next (failedWith 5 s)) ∧
    (2 ≤ p → inRange v p = false ∨ inRange w p = false → exec .padd s = .next (failedWith 6 s)) ∧
    (2 ≤ p → inRange v p = true → inRange w p = true →
      (v = .inf → exec .padd s = .next { s with r := tripleOf w, status := okStatus s.status }) ∧
      (w = .inf → exec .padd s = .next { s with r := tripleOf v, status := okStatus s.status }) ∧
      ∀ x1 y1 x2 y2, v = .aff x1 y1 → w = .aff x2 y2 →
        (x1 = x2 → y1 ≠ y2 ∨ y1 = 0 →
          exec .padd s = .next { s with r := ⟨0, 0, true⟩, status := okStatus s.status }) ∧
        (x1 = x2 → y1 = y2 → y1 ≠ 0 → Int.gcd (2 * y1) p = 1 →
          ∃ x3 y3, isDouble x1 y1 (sext32 s.a) x3 y3 p ∧
            exec .padd s =
              .next { s with r := ⟨BitVec.ofInt 32 x3, BitVec.ofInt 32 y3, false⟩, status := okStatus s.status }) ∧
        (x1 ≠ x2 → Int.gcd (x2 - x1) p = 1 →
          ∃ x3 y3, isSum x1 y1 x2 y2 x3 y3 p ∧
            exec .padd s =
              .next { s with r := ⟨BitVec.ofInt 32 x3, BitVec.ofInt 32 y3, false⟩, status := okStatus s.status }) ∧
        (x1 = x2 ∧ y1 = y2 ∧ y1 ≠ 0 ∧ Int.gcd (2 * y1) p ≠ 1 ∨ x1 ≠ x2 ∧ Int.gcd (x2 - x1) p ≠ 1 →
          exec .padd s = .next (failedWith 1 s)))

/-- R153, R159 (Doubling/addition consistency): PDBL of P1 is PADD of P1 and P1, in every state. -/
def Obligations.DoublingIsAddingAPointToItself : Prop :=
  ∀ s : State, s.p2 = s.p1 → exec .pdbl s = exec .padd s

/-- R157: PMUL runs the double-and-add loop of R154 on the checked operands, and reports BadModulus, then BadPoint, then
BadScalar, then NoInverseExists. -/
def Obligations.PmulRunsDoubleAndAdd : Prop :=
  ∀ (s : State) (p : Int), p = sext32 s.p →
    (p < 2 → exec .pmul s = .next (failedWith 5 s)) ∧
    (2 ≤ p → inRange (pointIn .p1 s) p = false → exec .pmul s = .next (failedWith 6 s)) ∧
    (2 ≤ p → inRange (pointIn .p1 s) p = true → sext32 s.k < 0 → exec .pmul s = .next (failedWith 7 s)) ∧
    (2 ≤ p → inRange (pointIn .p1 s) p = true → 0 ≤ sext32 s.k →
      (∀ v, scalarMul (pointIn .p1 s) (sext32 s.k) (sext32 s.a) p = .ok v →
        exec .pmul s = .next { s with r := tripleOf v, status := okStatus s.status }) ∧
      (∀ e, scalarMul (pointIn .p1 s) (sext32 s.k) (sext32 s.a) p = .error e →
        exec .pmul s = .next (failedWith 1 s)))

/-- R154: `scalarMul` starts its loop with `R = Inf`, `T = P` and `n = k`; the loop answers `R` when `n` is 0, and one pass
handles one binary digit of `n`, from the least significant, with a doubling on every pass, the last included. The first
argument of `mulLoop` is its bound on the passes; a bound of `n` is always enough. -/
def Obligations.ScalarMulConsumesTheBinaryDigits : Prop :=
  ∀ (v : Point) (a p : Int),
    (∀ k : Int, 0 ≤ k → scalarMul v k a p = mulLoop k.toNat .inf v k.toNat a p) ∧
    ∀ r t : Point,
      mulLoop 0 r t 0 a p = .ok r ∧
      ∀ n : Nat, 0 < n →
        mulLoop n r t n a p =
          (if n % 2 = 1 then ecAdd r t a p else .ok r).bind fun r' =>
            (ecAdd t t a p).bind fun t' => mulLoop (n / 2) r' t' (n / 2) a p

/-- R157, R154, R235 with 93_implementation_defined.md K4: for a prime `p > 3` and a point of a non-singular curve, PMUL
completes with the `K`-fold sum of P1, added up one by one. P1 = Inf stands in `PmulOfInfinityOrByZeroIsInfinity`. -/
def Obligations.PmulIsTheRepeatedSumOnANonsingularCurve : Prop :=
  ∀ (s : State) (p a b x y : Int), p = sext32 s.p → a = sext32 s.a → Prime p → 3 < p →
    ¬p ∣ 4 * a * a * a + 27 * b * b → pointIn .p1 s = .aff x y → 0 ≤ x → x < p → 0 ≤ y → y < p →
    p ∣ y * y - (x * x * x + a * x + b) → 0 ≤ sext32 s.k →
    ∃ v, repeatedSum (sext32 s.k).toNat (.aff x y) a p = .ok v ∧ inRange v p = true ∧
      exec .pmul s = .next { s with r := tripleOf v, status := okStatus s.status }

/-- R157 (corner cases), R159: a multiple of infinity, and 0 times a point, are infinity for every legal modulus. -/
def Obligations.PmulOfInfinityOrByZeroIsInfinity : Prop :=
  ∀ s : State, 2 ≤ sext32 s.p → inRange (pointIn .p1 s) (sext32 s.p) = true → 0 ≤ sext32 s.k →
    (pointIn .p1 s = .inf ∨ sext32 s.k = 0) →
    exec .pmul s = .next { s with r := ⟨0, 0, true⟩, status := okStatus s.status }

/-- R121, R152, R153, R154: for an odd prime modulus no inverse is missing: PDBL, PADD, PMUL, KEYGEN, SHARED and ENCRYPT
complete on all operands that pass their checks, and write canonical points. SHARED completes with SecretMismatch when the
two secrets differ (R231). -/
def Obligations.GroupCommandsCompleteForAnOddPrime : Prop :=
  ∀ (s : State) (p : Int), p = sext32 s.p → Prime p → 2 < p →
    (inRange (pointIn .p1 s) p = true →
      ∃ v, inRange v p = true ∧ exec .pdbl s = .next { s with r := tripleOf v, status := okStatus s.status }) ∧
    (inRange (pointIn .p1 s) p = true → inRange (pointIn .p2 s) p = true →
      ∃ v, inRange v p = true ∧ exec .padd s = .next { s with r := tripleOf v, status := okStatus s.status }) ∧
    (inRange (pointIn .p1 s) p = true → 0 ≤ sext32 s.k →
      ∃ v, inRange v p = true ∧ exec .pmul s = .next { s with r := tripleOf v, status := okStatus s.status }) ∧
    (inRange (basePoint s) p = true → 0 ≤ sext32 s.da → 0 ≤ sext32 s.db →
      ∃ v w, inRange v p = true ∧ inRange w p = true ∧
        exec .keygen s = .next { s with qa := tripleOf v, qb := tripleOf w, status := okStatus s.status }) ∧
    (inRange (pointIn .qa s) p = true → inRange (pointIn .qb s) p = true → 0 ≤ sext32 s.da → 0 ≤ sext32 s.db →
      ∃ v w, inRange v p = true ∧ inRange w p = true ∧
        exec .shared s =
          .next
            { s with
              sa := tripleOf v
              sb := tripleOf w
              status := if v = w then okStatus s.status else errStatus s.status 10 0 }) ∧
    (inRange (pointIn .qm s) p = true → inRange (pointIn .sa s) p = true →
      ∃ v, inRange v p = true ∧
        exec .encrypt s = .next { s with c := tripleOf v, sp := s.qa, status := okStatus s.status })

/-- R190: the curve list holds exactly the canonical solutions of the curve equation, by increasing `x`, then increasing `y`. -/
def Obligations.CurveListIsEverySolutionInOrder : Prop :=
  ∀ p a b : Int, 2 ≤ p →
    (∀ x y : Int, (x, y) ∈ allPoints p a b ↔
      0 ≤ x ∧ x < p ∧ 0 ≤ y ∧ y < p ∧ p ∣ y * y - (x * x * x + a * x + b)) ∧
    (allPoints p a b).Pairwise fun u v => u.1 < v.1 ∨ u.1 = v.1 ∧ u.2 < v.2

/-- R191, R192: with `p < 2` ENUM ends with BadModulus and writes nothing else. A list that fits is stored from entry 0 on, the
entries past it stay as they were, PCOUNT is its length and PTVALID 1. A list longer than `NPT` ends with
PointMemOverflow, PCOUNT 0 and PTVALID 0; of the point memory nothing is said then. Nothing else is written. -/
def Obligations.EnumStoresTheCurveListOrOverflows : Prop :=
  ∀ (s : State) (l : List (Int × Int)), l = allPoints (sext32 s.p) (sext32 s.a) (sext32 s.b) →
    (sext32 s.p < 2 → exec .enum s = .next (failedWith 5 s)) ∧
    (2 ≤ sext32 s.p → l.length ≤ npt s →
      ∃ t, exec .enum s = .next t ∧
        t = { s with
          ptmem := t.ptmem
          pcount := l.length
          status := ⟨false, true, false, true, s.status.busywr, 0, 0⟩ } ∧
        (∀ (i : Nat) (h : i < l.length), t.ptmem.read i = some l[i]) ∧
        ∀ i, l.length ≤ i → t.ptmem.read i = s.ptmem.read i) ∧
    (2 ≤ sext32 s.p → npt s < l.length →
      ∃ t, exec .enum s = .next t ∧
        t = { s with
          ptmem := t.ptmem
          pcount := 0
          status := ⟨false, true, true, false, s.status.busywr, 8, 0⟩ })

/-- R193, R37: after an ENUM that completes without error the host reads entry `i` of the curve list through PIDX, PX and PY,
and 0 at and past PCOUNT. -/
def Obligations.HostReadsTheListThroughPidx : Prop :=
  ∀ (s t : State) (i : Nat), exec .enum s = .next t → t.status.err = false → i < 2 ^ 32 →
    regRead .px { t with pidx := BitVec.ofNat 32 i } =
        BitVec.ofInt 32 (((allPoints (sext32 s.p) (sext32 s.a) (sext32 s.b))[i]?.map Prod.fst).getD 0) ∧
      regRead .py { t with pidx := BitVec.ofNat 32 i } =
        BitVec.ofInt 32 (((allPoints (sext32 s.p) (sext32 s.a) (sext32 s.b))[i]?.map Prod.snd).getD 0)

/-- R210: `M` is the smallest power of two that is at least `m`, and 1 for `m ≤ 1`. -/
def Obligations.CodecPowerIsTheSmallestNotBelowTheMessage : Prop :=
  ∀ m : Int, (∃ k : Nat, chooseM m = 2 ^ k) ∧ m ≤ chooseM m ∧ (m ≤ 1 → chooseM m = 1) ∧
    (1 < m → chooseM m < 2 * m) ∧ ∀ k : Nat, m ≤ 2 ^ k → chooseM m ≤ 2 ^ k

/-- R212, R213: ENCODE checks P, then PTVALID, then PCOUNT, before it writes anything. Then it writes `M` and `h`, and the first
point of the list at the first candidate abscissa `reduce(m*h + j, p)`, `0 ≤ j < h`, that occurs in the list; with none it
ends with EncodingNotFound and QM unchanged. -/
def Obligations.EncodeWritesTheFirstPointOfTheFirstCandidate : Prop :=
  ∀ (s : State) (p m h : Int), p = sext32 s.p → m = sext32 s.msg → h = p / chooseM m →
    (p < 2 → exec .encode s = .next (failedWith 5 s)) ∧
    (2 ≤ p → s.status.ptvalid = false → exec .encode s = .next (failedWith 9 s)) ∧
    (2 ≤ p → s.status.ptvalid = true → s.pcount = 0 → exec .encode s = .next (failedWith 3 s)) ∧
    (2 ≤ p → s.status.ptvalid = true → 0 < s.pcount →
      (∀ j : Int, ∀ i : Nat, 0 ≤ j → j < h → i < s.pcount →
        (ptEntry s i).1 = reduce (m * h + j) p →
        (∀ j' : Int, ∀ i' : Nat, 0 ≤ j' → j' < j → i' < s.pcount → (ptEntry s i').1 ≠ reduce (m * h + j') p) →
        (∀ i' : Nat, i' < i → (ptEntry s i').1 ≠ reduce (m * h + j) p) →
        exec .encode s =
          .next
            { s with
              mreg := BitVec.ofInt 32 (chooseM m)
              hreg := BitVec.ofInt 32 h
              qm := ⟨BitVec.ofInt 32 (ptEntry s i).1, BitVec.ofInt 32 (ptEntry s i).2, false⟩
              status := okStatus s.status }) ∧
      ((∀ j : Int, ∀ i : Nat, 0 ≤ j → j < h → i < s.pcount → (ptEntry s i).1 ≠ reduce (m * h + j) p) →
        exec .encode s =
          .next
            { s with
              mreg := BitVec.ofInt 32 (chooseM m)
              hreg := BitVec.ofInt 32 h
              status := errStatus s.status 2 0 }))

/-- R230: KEYGEN writes `dA·G` and `dB·G`, both or neither, and reports BadModulus, BadPoint(G), BadScalar, NoInverseExists in
that order. -/
def Obligations.KeygenWritesBothPublicPointsOrNeither : Prop :=
  ∀ (s : State) (p a : Int), p = sext32 s.p → a = sext32 s.a →
    (p < 2 → exec .keygen s = .next (failedWith 5 s)) ∧
    (2 ≤ p → inRange (basePoint s) p = false → exec .keygen s = .next (failedWith 6 s)) ∧
    (2 ≤ p → inRange (basePoint s) p = true → sext32 s.da < 0 ∨ sext32 s.db < 0 →
      exec .keygen s = .next (failedWith 7 s)) ∧
    (2 ≤ p → inRange (basePoint s) p = true → 0 ≤ sext32 s.da → 0 ≤ sext32 s.db →
      (∀ v w, scalarMul (basePoint s) (sext32 s.da) a p = .ok v → scalarMul (basePoint s) (sext32 s.db) a p = .ok w →
        exec .keygen s = .next { s with qa := tripleOf v, qb := tripleOf w, status := okStatus s.status }) ∧
      (∀ e, scalarMul (basePoint s) (sext32 s.da) a p = .error e ∨ scalarMul (basePoint s) (sext32 s.db) a p = .error e →
        exec .keygen s = .next (failedWith 1 s)))

/-- R231: SHARED writes `dA·QB` and `dB·QA`, and reports SecretMismatch, with both still written, exactly when they differ.
Before that it reports BadModulus, BadPoint, BadScalar and NoInverseExists in that order, with neither written. -/
def Obligations.SharedWritesBothSecretsAndComparesThem : Prop :=
  ∀ (s : State) (p a : Int), p = sext32 s.p → a = sext32 s.a →
    (p < 2 → exec .shared s = .next (failedWith 5 s)) ∧
    (2 ≤ p → inRange (pointIn .qa s) p = false ∨ inRange (pointIn .qb s) p = false →
      exec .shared s = .next (failedWith 6 s)) ∧
    (2 ≤ p → inRange (pointIn .qa s) p = true → inRange (pointIn .qb s) p = true →
      (sext32 s.da < 0 ∨ sext32 s.db < 0 → exec .shared s = .next (failedWith 7 s)) ∧
      (0 ≤ sext32 s.da → 0 ≤ sext32 s.db →
        (∀ v w, scalarMul (pointIn .qb s) (sext32 s.da) a p = .ok v → scalarMul (pointIn .qa s) (sext32 s.db) a p = .ok w →
          exec .shared s =
            .next
              { s with
                sa := tripleOf v
                sb := tripleOf w
                status := if v = w then okStatus s.status else errStatus s.status 10 0 }) ∧
        (∀ e, scalarMul (pointIn .qb s) (sext32 s.da) a p = .error e ∨
            scalarMul (pointIn .qa s) (sext32 s.db) a p = .error e →
          exec .shared s = .next (failedWith 1 s))))

/-- R232: ENCRYPT writes `QM + SA` to C and copies QA to SP bit for bit, both or neither, and reports BadModulus, BadPoint,
NoInverseExists in that order. -/
def Obligations.EncryptAddsTheSecretAndCopiesTheSender : Prop :=
  ∀ (s : State) (p : Int), p = sext32 s.p →
    (p < 2 → exec .encrypt s = .next (failedWith 5 s)) ∧
    (2 ≤ p → inRange (pointIn .qm s) p = false ∨ inRange (pointIn .sa s) p = false →
      exec .encrypt s = .next (failedWith 6 s)) ∧
    (2 ≤ p → inRange (pointIn .qm s) p = true → inRange (pointIn .sa s) p = true →
      (∀ v, ecAdd (pointIn .qm s) (pointIn .sa s) (sext32 s.a) p = .ok v →
        exec .encrypt s = .next { s with c := tripleOf v, sp := s.qa, status := okStatus s.status }) ∧
      (∀ e, ecAdd (pointIn .qm s) (pointIn .sa s) (sext32 s.a) p = .error e →
        exec .encrypt s = .next (failedWith 1 s)))

/-- R233, R276: ECDH is ENUM, KEYGEN, SHARED, ENCODE and ENCRYPT run one after the other, each on the registers the one before
left, stopped at the first error with the step's number in ERRSTEP. -/
def Obligations.EcdhIsTheFiveCommandsInOrder : Prop :=
  ∀ s : State,
    exec .ecdh s = commandRun [(1, .enum), (2, .keygen), (3, .shared), (4, .encode), (5, .encrypt)] s

/-- R233: when each of the five steps ends without error, ECDH completes, without error, in the state the last one leaves. -/
def Obligations.EcdhCompletesWhenItsStepsDo : Prop :=
  ∀ s t1 t2 t3 t4 t5 : State, exec .enum s = .next t1 → exec .keygen t1 = .next t2 → exec .shared t2 = .next t3 →
    exec .encode t3 = .next t4 → exec .encrypt t4 = .next t5 → t1.status.err = false → t2.status.err = false →
    t3.status.err = false → t4.status.err = false → t5.status.err = false →
    exec .ecdh s = .next t5 ∧ t5.status.errstep = 0 ∧ t5.status.done = true ∧ t5.status.ptvalid = true

/-- R231 (corner cases), R235, R159 with 93_implementation_defined.md K4, K5: for a prime `p > 3`, a non-singular curve and a
base point on it, SHARED after KEYGEN, on the same scalars, completes without SecretMismatch and with equal secrets. -/
def Obligations.SharedSecretsAgreeOnANonsingularCurve : Prop :=
  ∀ (s t : State) (p a b x y : Int), p = sext32 s.p → a = sext32 s.a → Prime p → 3 < p →
    ¬p ∣ 4 * a * a * a + 27 * b * b → basePoint s = .aff x y → 0 ≤ x → x < p → 0 ≤ y → y < p →
    p ∣ y * y - (x * x * x + a * x + b) → 0 ≤ sext32 s.da → 0 ≤ sext32 s.db → exec .keygen s = .next t →
    ∃ v, exec .shared t = .next { t with sa := tripleOf v, sb := tripleOf v, status := okStatus t.status }

/-- R233, R231, R159 with 93_implementation_defined.md K4, K5: for a prime `p > 3`, the non-singular curve of A and B, a base
point on it, scalars that are not negative, a curve list that fits and a message with a candidate abscissa on the curve,
ECDH completes without error, and the point memory holds the curve list. -/
def Obligations.EcdhSucceedsOnANonsingularCurve : Prop :=
  ∀ (s : State) (p a b m x y : Int), p = sext32 s.p → a = sext32 s.a → b = sext32 s.b → m = sext32 s.msg → Prime p → 3 < p →
    ¬p ∣ 4 * a * a * a + 27 * b * b → basePoint s = .aff x y → 0 ≤ x → x < p → 0 ≤ y → y < p →
    p ∣ y * y - (x * x * x + a * x + b) → 0 ≤ sext32 s.da → 0 ≤ sext32 s.db → (allPoints p a b).length ≤ npt s →
    (∃ j z : Int, 0 ≤ j ∧ j < p / chooseM m ∧ (reduce (m * (p / chooseM m) + j) p, z) ∈ allPoints p a b) →
    ∃ t, exec .ecdh s = .next t ∧ t.status = ⟨false, true, false, true, s.status.busywr, 0, 0⟩ ∧
      curveList t = allPoints p a b ∧ t.sp = t.qa ∧ t.sa = t.sb

/-! ## Commands: frames -/

/-- R272, R92: a command writes only the registers of its row. PCOUNT, PTVALID and the point memory are ENUM's and ECDH's
alone; BUSYWR and the fields that are the model's own are no command's. -/
def Obligations.CommandsWriteOnlyTheirRow : Prop :=
  ∀ (i : Instr) (s t : State), exec i s = .next t →
    (∀ name, name ∉ commandWrites i → regRead name t = regRead name s) ∧
      (writesList i = false → sameList s t ∧ t.status.ptvalid = s.status.ptvalid) ∧
      t.status.busywr = s.status.busywr ∧ sameOutside s t

/-- R303: the commit policy: a command that ends in error writes STATUS and none of its result registers, but for the four
exceptions the rule lists: ENUM's overflow, SHARED's mismatch, ENCODE's EncodingNotFound and the finished steps of ECDH. -/
def Obligations.FailedCommandCommitsNothing : Prop :=
  ∀ (i : Instr) (s t : State), exec i s = .next t → t.status.err = true → i ≠ .ecdh →
    ¬(i = .enum ∧ t.status.errcode = 8) → ¬(i = .shared ∧ t.status.errcode = 10) →
    (i = .encode → t.status.errcode = 2 →
      t = { s with mreg := t.mreg, hreg := t.hreg, status := errStatus s.status 2 0 }) ∧
    (¬(i = .encode ∧ t.status.errcode = 2) → t = failedWith t.status.errcode s)

/-- R301, R234: the error codes each command can report, and ERRSTEP: 0 after every command but a failed ECDH, then 1 to 5. -/
def Obligations.ErrorCodesAndStepsAreThoseOfTheTable : Prop :=
  ∀ (i : Instr) (s t : State), exec i s = .next t →
    t.status.errcode ∈ commandCodes i ∧ (t.status.err = true ↔ t.status.errcode ≠ 0) ∧
      (i ≠ .ecdh ∨ t.status.err = false → t.status.errstep = 0) ∧
      (i = .ecdh → t.status.err = true → 1 ≤ t.status.errstep.toNat ∧ t.status.errstep.toNat ≤ 5)

/-- R158: B is not read by the group-law commands, nor by any command but ENUM and ECDH: two states that differ in B only
end in states that differ in B only. -/
def Obligations.GroupCommandsDoNotReadB : Prop :=
  ∀ (i : Instr) (s t : State) (w : Word), writesList i = false → exec i s = .next t →
    exec i { s with b := w } = .next { t with b := w }

/-! ## Invariants -/

/-- R42: the state after reset meets every invariant, for every `NPT ≥ 1`. -/
def Obligations.ResetMeetsTheInvariants : Prop :=
  ∀ capacity : Word, 1 ≤ capacity.toNat →
    MemoryInv (State.resetOf capacity) ∧ ListInv (State.resetOf capacity) ∧ StatusInv (State.resetOf capacity) ∧
      ResultsInv (State.resetOf capacity)

/-- R36, R25, R272: every step keeps the point memory canonical, inside `NPT`, with coordinates in range, and every entry below
PCOUNT held. -/
def Obligations.StepKeepsThePointMemory : Prop :=
  ∀ s t : State, MemoryInv s → step s = .next t → MemoryInv t

/-- R24, R27, R191: every step keeps what PTVALID says: while it is 1 the curve list is that of the current P, A and B. -/
def Obligations.ValidListBelongsToTheCurrentCurve : Prop :=
  ∀ s t : State, ListInv s → step s = .next t → ListInv t

/-- R24, R234, R301: every step keeps the fields of STATUS in agreement. -/
def Obligations.StepKeepsStatusConsistent : Prop :=
  ∀ s t : State, StatusInv s → step s = .next t → StatusInv t

/-- R32, R33, R35, R7: every step keeps the result registers canonical: no written value is ever truncated. -/
def Obligations.StepKeepsResultsCanonical : Prop :=
  ∀ s t : State, MemoryInv s → ResultsInv s → step s = .next t → ResultsInv t
end

