-- ==== Sys2Proof/Laws/State.lean ====
section
/-! SUPPORT. Laws/State.lean: what each named update of the state leaves in each field, so that no proof unfolds a record
update. -/

namespace Sys2Proof.Machine

/-! Writing a triple. -/

@[simp] theorem getTriple_setTriple_same (t : PointReg) (v : Triple) (s : State) : getTriple t (setTriple t v s) = v := by
  cases t <;> rfl

theorem getTriple_setTriple_ne {t u : PointReg} (h : t ≠ u) (v : Triple) (s : State) :
    getTriple t (setTriple u v s) = getTriple t s := by
  cases t <;> cases u <;> first | rfl | exact absurd rfl h

theorem getTriple_setTriple (t u : PointReg) (v : Triple) (s : State) :
    getTriple t (setTriple u v s) = if t = u then v else getTriple t s := by
  by_cases h : t = u
  · subst h; simp
  · simp [h, getTriple_setTriple_ne h]

@[simp] theorem setTriple_cmd (t : PointReg) (v : Triple) (s : State) : (setTriple t v s).cmd = s.cmd := by cases t <;> rfl
@[simp] theorem setTriple_cap (t : PointReg) (v : Triple) (s : State) : (setTriple t v s).cap = s.cap := by cases t <;> rfl
@[simp] theorem setTriple_p (t : PointReg) (v : Triple) (s : State) : (setTriple t v s).p = s.p := by cases t <;> rfl
@[simp] theorem setTriple_a (t : PointReg) (v : Triple) (s : State) : (setTriple t v s).a = s.a := by cases t <;> rfl
@[simp] theorem setTriple_b (t : PointReg) (v : Triple) (s : State) : (setTriple t v s).b = s.b := by cases t <;> rfl
@[simp] theorem setTriple_n (t : PointReg) (v : Triple) (s : State) : (setTriple t v s).n = s.n := by cases t <;> rfl
@[simp] theorem setTriple_k (t : PointReg) (v : Triple) (s : State) : (setTriple t v s).k = s.k := by cases t <;> rfl
@[simp] theorem setTriple_rn (t : PointReg) (v : Triple) (s : State) : (setTriple t v s).rn = s.rn := by cases t <;> rfl
@[simp] theorem setTriple_gx (t : PointReg) (v : Triple) (s : State) : (setTriple t v s).gx = s.gx := by cases t <;> rfl
@[simp] theorem setTriple_gy (t : PointReg) (v : Triple) (s : State) : (setTriple t v s).gy = s.gy := by cases t <;> rfl
@[simp] theorem setTriple_da (t : PointReg) (v : Triple) (s : State) : (setTriple t v s).da = s.da := by cases t <;> rfl
@[simp] theorem setTriple_db (t : PointReg) (v : Triple) (s : State) : (setTriple t v s).db = s.db := by cases t <;> rfl
@[simp] theorem setTriple_msg (t : PointReg) (v : Triple) (s : State) : (setTriple t v s).msg = s.msg := by cases t <;> rfl
@[simp] theorem setTriple_mreg (t : PointReg) (v : Triple) (s : State) : (setTriple t v s).mreg = s.mreg := by cases t <;> rfl
@[simp] theorem setTriple_hreg (t : PointReg) (v : Triple) (s : State) : (setTriple t v s).hreg = s.hreg := by cases t <;> rfl
@[simp] theorem setTriple_pcount (t : PointReg) (v : Triple) (s : State) : (setTriple t v s).pcount = s.pcount := by cases t <;> rfl
@[simp] theorem setTriple_pidx (t : PointReg) (v : Triple) (s : State) : (setTriple t v s).pidx = s.pidx := by cases t <;> rfl
@[simp] theorem setTriple_ptmem (t : PointReg) (v : Triple) (s : State) : (setTriple t v s).ptmem = s.ptmem := by cases t <;> rfl
@[simp] theorem setTriple_agenda (t : PointReg) (v : Triple) (s : State) : (setTriple t v s).agenda = s.agenda := by cases t <;> rfl
@[simp] theorem setTriple_responses (t : PointReg) (v : Triple) (s : State) : (setTriple t v s).responses = s.responses := by cases t <;> rfl
@[simp] theorem setTriple_draws (t : PointReg) (v : Triple) (s : State) : (setTriple t v s).draws = s.draws := by cases t <;> rfl
@[simp] theorem setTriple_status (t : PointReg) (v : Triple) (s : State) : (setTriple t v s).status = s.status := by cases t <;> rfl

/-! Writing RN. -/

@[simp] theorem setRn_cmd (w : Word) (s : State) : (setRn w s).cmd = s.cmd := rfl
@[simp] theorem setRn_cap (w : Word) (s : State) : (setRn w s).cap = s.cap := rfl
@[simp] theorem setRn_p (w : Word) (s : State) : (setRn w s).p = s.p := rfl
@[simp] theorem setRn_a (w : Word) (s : State) : (setRn w s).a = s.a := rfl
@[simp] theorem setRn_b (w : Word) (s : State) : (setRn w s).b = s.b := rfl
@[simp] theorem setRn_n (w : Word) (s : State) : (setRn w s).n = s.n := rfl
@[simp] theorem setRn_k (w : Word) (s : State) : (setRn w s).k = s.k := rfl
@[simp] theorem setRn_rn (w : Word) (s : State) : (setRn w s).rn = w := rfl
@[simp] theorem setRn_gx (w : Word) (s : State) : (setRn w s).gx = s.gx := rfl
@[simp] theorem setRn_gy (w : Word) (s : State) : (setRn w s).gy = s.gy := rfl
@[simp] theorem setRn_da (w : Word) (s : State) : (setRn w s).da = s.da := rfl
@[simp] theorem setRn_db (w : Word) (s : State) : (setRn w s).db = s.db := rfl
@[simp] theorem setRn_msg (w : Word) (s : State) : (setRn w s).msg = s.msg := rfl
@[simp] theorem setRn_mreg (w : Word) (s : State) : (setRn w s).mreg = s.mreg := rfl
@[simp] theorem setRn_hreg (w : Word) (s : State) : (setRn w s).hreg = s.hreg := rfl
@[simp] theorem setRn_pcount (w : Word) (s : State) : (setRn w s).pcount = s.pcount := rfl
@[simp] theorem setRn_pidx (w : Word) (s : State) : (setRn w s).pidx = s.pidx := rfl
@[simp] theorem setRn_ptmem (w : Word) (s : State) : (setRn w s).ptmem = s.ptmem := rfl
@[simp] theorem setRn_agenda (w : Word) (s : State) : (setRn w s).agenda = s.agenda := rfl
@[simp] theorem setRn_responses (w : Word) (s : State) : (setRn w s).responses = s.responses := rfl
@[simp] theorem setRn_draws (w : Word) (s : State) : (setRn w s).draws = s.draws := rfl
@[simp] theorem setRn_status (w : Word) (s : State) : (setRn w s).status = s.status := rfl
@[simp] theorem setRn_p1 (w : Word) (s : State) : (setRn w s).p1 = s.p1 := rfl
@[simp] theorem setRn_p2 (w : Word) (s : State) : (setRn w s).p2 = s.p2 := rfl
@[simp] theorem setRn_r (w : Word) (s : State) : (setRn w s).r = s.r := rfl
@[simp] theorem setRn_qa (w : Word) (s : State) : (setRn w s).qa = s.qa := rfl
@[simp] theorem setRn_qb (w : Word) (s : State) : (setRn w s).qb = s.qb := rfl
@[simp] theorem setRn_sa (w : Word) (s : State) : (setRn w s).sa = s.sa := rfl
@[simp] theorem setRn_sb (w : Word) (s : State) : (setRn w s).sb = s.sb := rfl
@[simp] theorem setRn_qm (w : Word) (s : State) : (setRn w s).qm = s.qm := rfl
@[simp] theorem setRn_c (w : Word) (s : State) : (setRn w s).c = s.c := rfl
@[simp] theorem setRn_sp (w : Word) (s : State) : (setRn w s).sp = s.sp := rfl
@[simp] theorem getTriple_setRn (w : Word) (t : PointReg) (s : State) : getTriple t (setRn w s) = getTriple t s := by cases t <;> rfl

/-! Writing MREG and HREG. -/

@[simp] theorem setCodec_cmd (m h : Word) (s : State) : (setCodec m h s).cmd = s.cmd := rfl
@[simp] theorem setCodec_cap (m h : Word) (s : State) : (setCodec m h s).cap = s.cap := rfl
@[simp] theorem setCodec_p (m h : Word) (s : State) : (setCodec m h s).p = s.p := rfl
@[simp] theorem setCodec_a (m h : Word) (s : State) : (setCodec m h s).a = s.a := rfl
@[simp] theorem setCodec_b (m h : Word) (s : State) : (setCodec m h s).b = s.b := rfl
@[simp] theorem setCodec_n (m h : Word) (s : State) : (setCodec m h s).n = s.n := rfl
@[simp] theorem setCodec_k (m h : Word) (s : State) : (setCodec m h s).k = s.k := rfl
@[simp] theorem setCodec_rn (m h : Word) (s : State) : (setCodec m h s).rn = s.rn := rfl
@[simp] theorem setCodec_gx (m h : Word) (s : State) : (setCodec m h s).gx = s.gx := rfl
@[simp] theorem setCodec_gy (m h : Word) (s : State) : (setCodec m h s).gy = s.gy := rfl
@[simp] theorem setCodec_da (m h : Word) (s : State) : (setCodec m h s).da = s.da := rfl
@[simp] theorem setCodec_db (m h : Word) (s : State) : (setCodec m h s).db = s.db := rfl
@[simp] theorem setCodec_msg (m h : Word) (s : State) : (setCodec m h s).msg = s.msg := rfl
@[simp] theorem setCodec_mreg (m h : Word) (s : State) : (setCodec m h s).mreg = m := rfl
@[simp] theorem setCodec_hreg (m h : Word) (s : State) : (setCodec m h s).hreg = h := rfl
@[simp] theorem setCodec_pcount (m h : Word) (s : State) : (setCodec m h s).pcount = s.pcount := rfl
@[simp] theorem setCodec_pidx (m h : Word) (s : State) : (setCodec m h s).pidx = s.pidx := rfl
@[simp] theorem setCodec_ptmem (m h : Word) (s : State) : (setCodec m h s).ptmem = s.ptmem := rfl
@[simp] theorem setCodec_agenda (m h : Word) (s : State) : (setCodec m h s).agenda = s.agenda := rfl
@[simp] theorem setCodec_responses (m h : Word) (s : State) : (setCodec m h s).responses = s.responses := rfl
@[simp] theorem setCodec_draws (m h : Word) (s : State) : (setCodec m h s).draws = s.draws := rfl
@[simp] theorem setCodec_status (m h : Word) (s : State) : (setCodec m h s).status = s.status := rfl
@[simp] theorem setCodec_p1 (m h : Word) (s : State) : (setCodec m h s).p1 = s.p1 := rfl
@[simp] theorem setCodec_p2 (m h : Word) (s : State) : (setCodec m h s).p2 = s.p2 := rfl
@[simp] theorem setCodec_r (m h : Word) (s : State) : (setCodec m h s).r = s.r := rfl
@[simp] theorem setCodec_qa (m h : Word) (s : State) : (setCodec m h s).qa = s.qa := rfl
@[simp] theorem setCodec_qb (m h : Word) (s : State) : (setCodec m h s).qb = s.qb := rfl
@[simp] theorem setCodec_sa (m h : Word) (s : State) : (setCodec m h s).sa = s.sa := rfl
@[simp] theorem setCodec_sb (m h : Word) (s : State) : (setCodec m h s).sb = s.sb := rfl
@[simp] theorem setCodec_qm (m h : Word) (s : State) : (setCodec m h s).qm = s.qm := rfl
@[simp] theorem setCodec_c (m h : Word) (s : State) : (setCodec m h s).c = s.c := rfl
@[simp] theorem setCodec_sp (m h : Word) (s : State) : (setCodec m h s).sp = s.sp := rfl
@[simp] theorem getTriple_setCodec (m h : Word) (t : PointReg) (s : State) : getTriple t (setCodec m h s) = getTriple t s := by cases t <;> rfl

/-! ENUM's write. -/

@[simp] theorem setList_cmd (mem : Memory) (count : Nat) (valid : Bool) (s : State) : (setList mem count valid s).cmd = s.cmd := rfl
@[simp] theorem setList_cap (mem : Memory) (count : Nat) (valid : Bool) (s : State) : (setList mem count valid s).cap = s.cap := rfl
@[simp] theorem setList_p (mem : Memory) (count : Nat) (valid : Bool) (s : State) : (setList mem count valid s).p = s.p := rfl
@[simp] theorem setList_a (mem : Memory) (count : Nat) (valid : Bool) (s : State) : (setList mem count valid s).a = s.a := rfl
@[simp] theorem setList_b (mem : Memory) (count : Nat) (valid : Bool) (s : State) : (setList mem count valid s).b = s.b := rfl
@[simp] theorem setList_n (mem : Memory) (count : Nat) (valid : Bool) (s : State) : (setList mem count valid s).n = s.n := rfl
@[simp] theorem setList_k (mem : Memory) (count : Nat) (valid : Bool) (s : State) : (setList mem count valid s).k = s.k := rfl
@[simp] theorem setList_rn (mem : Memory) (count : Nat) (valid : Bool) (s : State) : (setList mem count valid s).rn = s.rn := rfl
@[simp] theorem setList_gx (mem : Memory) (count : Nat) (valid : Bool) (s : State) : (setList mem count valid s).gx = s.gx := rfl
@[simp] theorem setList_gy (mem : Memory) (count : Nat) (valid : Bool) (s : State) : (setList mem count valid s).gy = s.gy := rfl
@[simp] theorem setList_da (mem : Memory) (count : Nat) (valid : Bool) (s : State) : (setList mem count valid s).da = s.da := rfl
@[simp] theorem setList_db (mem : Memory) (count : Nat) (valid : Bool) (s : State) : (setList mem count valid s).db = s.db := rfl
@[simp] theorem setList_msg (mem : Memory) (count : Nat) (valid : Bool) (s : State) : (setList mem count valid s).msg = s.msg := rfl
@[simp] theorem setList_mreg (mem : Memory) (count : Nat) (valid : Bool) (s : State) : (setList mem count valid s).mreg = s.mreg := rfl
@[simp] theorem setList_hreg (mem : Memory) (count : Nat) (valid : Bool) (s : State) : (setList mem count valid s).hreg = s.hreg := rfl
@[simp] theorem setList_pcount (mem : Memory) (count : Nat) (valid : Bool) (s : State) : (setList mem count valid s).pcount = count := rfl
@[simp] theorem setList_pidx (mem : Memory) (count : Nat) (valid : Bool) (s : State) : (setList mem count valid s).pidx = s.pidx := rfl
@[simp] theorem setList_ptmem (mem : Memory) (count : Nat) (valid : Bool) (s : State) : (setList mem count valid s).ptmem = mem := rfl
@[simp] theorem setList_agenda (mem : Memory) (count : Nat) (valid : Bool) (s : State) : (setList mem count valid s).agenda = s.agenda := rfl
@[simp] theorem setList_responses (mem : Memory) (count : Nat) (valid : Bool) (s : State) : (setList mem count valid s).responses = s.responses := rfl
@[simp] theorem setList_draws (mem : Memory) (count : Nat) (valid : Bool) (s : State) : (setList mem count valid s).draws = s.draws := rfl
@[simp] theorem setList_status (mem : Memory) (count : Nat) (valid : Bool) (s : State) : (setList mem count valid s).status = statusPtvalid valid s.status := rfl
@[simp] theorem setList_p1 (mem : Memory) (count : Nat) (valid : Bool) (s : State) : (setList mem count valid s).p1 = s.p1 := rfl
@[simp] theorem setList_p2 (mem : Memory) (count : Nat) (valid : Bool) (s : State) : (setList mem count valid s).p2 = s.p2 := rfl
@[simp] theorem setList_r (mem : Memory) (count : Nat) (valid : Bool) (s : State) : (setList mem count valid s).r = s.r := rfl
@[simp] theorem setList_qa (mem : Memory) (count : Nat) (valid : Bool) (s : State) : (setList mem count valid s).qa = s.qa := rfl
@[simp] theorem setList_qb (mem : Memory) (count : Nat) (valid : Bool) (s : State) : (setList mem count valid s).qb = s.qb := rfl
@[simp] theorem setList_sa (mem : Memory) (count : Nat) (valid : Bool) (s : State) : (setList mem count valid s).sa = s.sa := rfl
@[simp] theorem setList_sb (mem : Memory) (count : Nat) (valid : Bool) (s : State) : (setList mem count valid s).sb = s.sb := rfl
@[simp] theorem setList_qm (mem : Memory) (count : Nat) (valid : Bool) (s : State) : (setList mem count valid s).qm = s.qm := rfl
@[simp] theorem setList_c (mem : Memory) (count : Nat) (valid : Bool) (s : State) : (setList mem count valid s).c = s.c := rfl
@[simp] theorem setList_sp (mem : Memory) (count : Nat) (valid : Bool) (s : State) : (setList mem count valid s).sp = s.sp := rfl
@[simp] theorem getTriple_setList (mem : Memory) (count : Nat) (valid : Bool) (t : PointReg) (s : State) : getTriple t (setList mem count valid s) = getTriple t s := by cases t <;> rfl

/-! Writing STATUS. -/

@[simp] theorem setStatus_cmd (f : Status) (s : State) : (setStatus f s).cmd = s.cmd := rfl
@[simp] theorem setStatus_cap (f : Status) (s : State) : (setStatus f s).cap = s.cap := rfl
@[simp] theorem setStatus_p (f : Status) (s : State) : (setStatus f s).p = s.p := rfl
@[simp] theorem setStatus_a (f : Status) (s : State) : (setStatus f s).a = s.a := rfl
@[simp] theorem setStatus_b (f : Status) (s : State) : (setStatus f s).b = s.b := rfl
@[simp] theorem setStatus_n (f : Status) (s : State) : (setStatus f s).n = s.n := rfl
@[simp] theorem setStatus_k (f : Status) (s : State) : (setStatus f s).k = s.k := rfl
@[simp] theorem setStatus_rn (f : Status) (s : State) : (setStatus f s).rn = s.rn := rfl
@[simp] theorem setStatus_gx (f : Status) (s : State) : (setStatus f s).gx = s.gx := rfl
@[simp] theorem setStatus_gy (f : Status) (s : State) : (setStatus f s).gy = s.gy := rfl
@[simp] theorem setStatus_da (f : Status) (s : State) : (setStatus f s).da = s.da := rfl
@[simp] theorem setStatus_db (f : Status) (s : State) : (setStatus f s).db = s.db := rfl
@[simp] theorem setStatus_msg (f : Status) (s : State) : (setStatus f s).msg = s.msg := rfl
@[simp] theorem setStatus_mreg (f : Status) (s : State) : (setStatus f s).mreg = s.mreg := rfl
@[simp] theorem setStatus_hreg (f : Status) (s : State) : (setStatus f s).hreg = s.hreg := rfl
@[simp] theorem setStatus_pcount (f : Status) (s : State) : (setStatus f s).pcount = s.pcount := rfl
@[simp] theorem setStatus_pidx (f : Status) (s : State) : (setStatus f s).pidx = s.pidx := rfl
@[simp] theorem setStatus_ptmem (f : Status) (s : State) : (setStatus f s).ptmem = s.ptmem := rfl
@[simp] theorem setStatus_agenda (f : Status) (s : State) : (setStatus f s).agenda = s.agenda := rfl
@[simp] theorem setStatus_responses (f : Status) (s : State) : (setStatus f s).responses = s.responses := rfl
@[simp] theorem setStatus_draws (f : Status) (s : State) : (setStatus f s).draws = s.draws := rfl
@[simp] theorem setStatus_status (f : Status) (s : State) : (setStatus f s).status = f := rfl
@[simp] theorem setStatus_p1 (f : Status) (s : State) : (setStatus f s).p1 = s.p1 := rfl
@[simp] theorem setStatus_p2 (f : Status) (s : State) : (setStatus f s).p2 = s.p2 := rfl
@[simp] theorem setStatus_r (f : Status) (s : State) : (setStatus f s).r = s.r := rfl
@[simp] theorem setStatus_qa (f : Status) (s : State) : (setStatus f s).qa = s.qa := rfl
@[simp] theorem setStatus_qb (f : Status) (s : State) : (setStatus f s).qb = s.qb := rfl
@[simp] theorem setStatus_sa (f : Status) (s : State) : (setStatus f s).sa = s.sa := rfl
@[simp] theorem setStatus_sb (f : Status) (s : State) : (setStatus f s).sb = s.sb := rfl
@[simp] theorem setStatus_qm (f : Status) (s : State) : (setStatus f s).qm = s.qm := rfl
@[simp] theorem setStatus_c (f : Status) (s : State) : (setStatus f s).c = s.c := rfl
@[simp] theorem setStatus_sp (f : Status) (s : State) : (setStatus f s).sp = s.sp := rfl
@[simp] theorem getTriple_setStatus (f : Status) (t : PointReg) (s : State) : getTriple t (setStatus f s) = getTriple t s := by cases t <;> rfl

/-! Completion. -/

@[simp] theorem complete_cmd (e : Option ErrCode) (step : BitVec 4) (s : State) : (complete e step s).cmd = s.cmd := rfl
@[simp] theorem complete_cap (e : Option ErrCode) (step : BitVec 4) (s : State) : (complete e step s).cap = s.cap := rfl
@[simp] theorem complete_p (e : Option ErrCode) (step : BitVec 4) (s : State) : (complete e step s).p = s.p := rfl
@[simp] theorem complete_a (e : Option ErrCode) (step : BitVec 4) (s : State) : (complete e step s).a = s.a := rfl
@[simp] theorem complete_b (e : Option ErrCode) (step : BitVec 4) (s : State) : (complete e step s).b = s.b := rfl
@[simp] theorem complete_n (e : Option ErrCode) (step : BitVec 4) (s : State) : (complete e step s).n = s.n := rfl
@[simp] theorem complete_k (e : Option ErrCode) (step : BitVec 4) (s : State) : (complete e step s).k = s.k := rfl
@[simp] theorem complete_rn (e : Option ErrCode) (step : BitVec 4) (s : State) : (complete e step s).rn = s.rn := rfl
@[simp] theorem complete_gx (e : Option ErrCode) (step : BitVec 4) (s : State) : (complete e step s).gx = s.gx := rfl
@[simp] theorem complete_gy (e : Option ErrCode) (step : BitVec 4) (s : State) : (complete e step s).gy = s.gy := rfl
@[simp] theorem complete_da (e : Option ErrCode) (step : BitVec 4) (s : State) : (complete e step s).da = s.da := rfl
@[simp] theorem complete_db (e : Option ErrCode) (step : BitVec 4) (s : State) : (complete e step s).db = s.db := rfl
@[simp] theorem complete_msg (e : Option ErrCode) (step : BitVec 4) (s : State) : (complete e step s).msg = s.msg := rfl
@[simp] theorem complete_mreg (e : Option ErrCode) (step : BitVec 4) (s : State) : (complete e step s).mreg = s.mreg := rfl
@[simp] theorem complete_hreg (e : Option ErrCode) (step : BitVec 4) (s : State) : (complete e step s).hreg = s.hreg := rfl
@[simp] theorem complete_pcount (e : Option ErrCode) (step : BitVec 4) (s : State) : (complete e step s).pcount = s.pcount := rfl
@[simp] theorem complete_pidx (e : Option ErrCode) (step : BitVec 4) (s : State) : (complete e step s).pidx = s.pidx := rfl
@[simp] theorem complete_ptmem (e : Option ErrCode) (step : BitVec 4) (s : State) : (complete e step s).ptmem = s.ptmem := rfl
@[simp] theorem complete_agenda (e : Option ErrCode) (step : BitVec 4) (s : State) : (complete e step s).agenda = s.agenda := rfl
@[simp] theorem complete_responses (e : Option ErrCode) (step : BitVec 4) (s : State) : (complete e step s).responses = s.responses := rfl
@[simp] theorem complete_draws (e : Option ErrCode) (step : BitVec 4) (s : State) : (complete e step s).draws = s.draws := rfl
@[simp] theorem complete_status (e : Option ErrCode) (step : BitVec 4) (s : State) : (complete e step s).status = statusCompleted e step s.status := rfl
@[simp] theorem complete_p1 (e : Option ErrCode) (step : BitVec 4) (s : State) : (complete e step s).p1 = s.p1 := rfl
@[simp] theorem complete_p2 (e : Option ErrCode) (step : BitVec 4) (s : State) : (complete e step s).p2 = s.p2 := rfl
@[simp] theorem complete_r (e : Option ErrCode) (step : BitVec 4) (s : State) : (complete e step s).r = s.r := rfl
@[simp] theorem complete_qa (e : Option ErrCode) (step : BitVec 4) (s : State) : (complete e step s).qa = s.qa := rfl
@[simp] theorem complete_qb (e : Option ErrCode) (step : BitVec 4) (s : State) : (complete e step s).qb = s.qb := rfl
@[simp] theorem complete_sa (e : Option ErrCode) (step : BitVec 4) (s : State) : (complete e step s).sa = s.sa := rfl
@[simp] theorem complete_sb (e : Option ErrCode) (step : BitVec 4) (s : State) : (complete e step s).sb = s.sb := rfl
@[simp] theorem complete_qm (e : Option ErrCode) (step : BitVec 4) (s : State) : (complete e step s).qm = s.qm := rfl
@[simp] theorem complete_c (e : Option ErrCode) (step : BitVec 4) (s : State) : (complete e step s).c = s.c := rfl
@[simp] theorem complete_sp (e : Option ErrCode) (step : BitVec 4) (s : State) : (complete e step s).sp = s.sp := rfl
@[simp] theorem getTriple_complete (e : Option ErrCode) (step : BitVec 4) (t : PointReg) (s : State) : getTriple t (complete e step s) = getTriple t s := by cases t <;> rfl

/-! Issue. -/

@[simp] theorem issue_cmd (v : Word) (s : State) : (issue v s).cmd = v := rfl
@[simp] theorem issue_cap (v : Word) (s : State) : (issue v s).cap = s.cap := rfl
@[simp] theorem issue_p (v : Word) (s : State) : (issue v s).p = s.p := rfl
@[simp] theorem issue_a (v : Word) (s : State) : (issue v s).a = s.a := rfl
@[simp] theorem issue_b (v : Word) (s : State) : (issue v s).b = s.b := rfl
@[simp] theorem issue_n (v : Word) (s : State) : (issue v s).n = s.n := rfl
@[simp] theorem issue_k (v : Word) (s : State) : (issue v s).k = s.k := rfl
@[simp] theorem issue_rn (v : Word) (s : State) : (issue v s).rn = s.rn := rfl
@[simp] theorem issue_gx (v : Word) (s : State) : (issue v s).gx = s.gx := rfl
@[simp] theorem issue_gy (v : Word) (s : State) : (issue v s).gy = s.gy := rfl
@[simp] theorem issue_da (v : Word) (s : State) : (issue v s).da = s.da := rfl
@[simp] theorem issue_db (v : Word) (s : State) : (issue v s).db = s.db := rfl
@[simp] theorem issue_msg (v : Word) (s : State) : (issue v s).msg = s.msg := rfl
@[simp] theorem issue_mreg (v : Word) (s : State) : (issue v s).mreg = s.mreg := rfl
@[simp] theorem issue_hreg (v : Word) (s : State) : (issue v s).hreg = s.hreg := rfl
@[simp] theorem issue_pcount (v : Word) (s : State) : (issue v s).pcount = s.pcount := rfl
@[simp] theorem issue_pidx (v : Word) (s : State) : (issue v s).pidx = s.pidx := rfl
@[simp] theorem issue_ptmem (v : Word) (s : State) : (issue v s).ptmem = s.ptmem := rfl
@[simp] theorem issue_agenda (v : Word) (s : State) : (issue v s).agenda = s.agenda := rfl
@[simp] theorem issue_responses (v : Word) (s : State) : (issue v s).responses = s.responses := rfl
@[simp] theorem issue_draws (v : Word) (s : State) : (issue v s).draws = s.draws := rfl
@[simp] theorem issue_status (v : Word) (s : State) : (issue v s).status = statusIssued s.status := rfl
@[simp] theorem issue_p1 (v : Word) (s : State) : (issue v s).p1 = s.p1 := rfl
@[simp] theorem issue_p2 (v : Word) (s : State) : (issue v s).p2 = s.p2 := rfl
@[simp] theorem issue_r (v : Word) (s : State) : (issue v s).r = s.r := rfl
@[simp] theorem issue_qa (v : Word) (s : State) : (issue v s).qa = s.qa := rfl
@[simp] theorem issue_qb (v : Word) (s : State) : (issue v s).qb = s.qb := rfl
@[simp] theorem issue_sa (v : Word) (s : State) : (issue v s).sa = s.sa := rfl
@[simp] theorem issue_sb (v : Word) (s : State) : (issue v s).sb = s.sb := rfl
@[simp] theorem issue_qm (v : Word) (s : State) : (issue v s).qm = s.qm := rfl
@[simp] theorem issue_c (v : Word) (s : State) : (issue v s).c = s.c := rfl
@[simp] theorem issue_sp (v : Word) (s : State) : (issue v s).sp = s.sp := rfl
@[simp] theorem getTriple_issue (v : Word) (t : PointReg) (s : State) : getTriple t (issue v s) = getTriple t s := by cases t <;> rfl

/-! The block's answer to an access. -/

@[simp] theorem answer_cmd (q : Response) (s : State) : (answer q s).cmd = s.cmd := rfl
@[simp] theorem answer_cap (q : Response) (s : State) : (answer q s).cap = s.cap := rfl
@[simp] theorem answer_p (q : Response) (s : State) : (answer q s).p = s.p := rfl
@[simp] theorem answer_a (q : Response) (s : State) : (answer q s).a = s.a := rfl
@[simp] theorem answer_b (q : Response) (s : State) : (answer q s).b = s.b := rfl
@[simp] theorem answer_n (q : Response) (s : State) : (answer q s).n = s.n := rfl
@[simp] theorem answer_k (q : Response) (s : State) : (answer q s).k = s.k := rfl
@[simp] theorem answer_rn (q : Response) (s : State) : (answer q s).rn = s.rn := rfl
@[simp] theorem answer_gx (q : Response) (s : State) : (answer q s).gx = s.gx := rfl
@[simp] theorem answer_gy (q : Response) (s : State) : (answer q s).gy = s.gy := rfl
@[simp] theorem answer_da (q : Response) (s : State) : (answer q s).da = s.da := rfl
@[simp] theorem answer_db (q : Response) (s : State) : (answer q s).db = s.db := rfl
@[simp] theorem answer_msg (q : Response) (s : State) : (answer q s).msg = s.msg := rfl
@[simp] theorem answer_mreg (q : Response) (s : State) : (answer q s).mreg = s.mreg := rfl
@[simp] theorem answer_hreg (q : Response) (s : State) : (answer q s).hreg = s.hreg := rfl
@[simp] theorem answer_pcount (q : Response) (s : State) : (answer q s).pcount = s.pcount := rfl
@[simp] theorem answer_pidx (q : Response) (s : State) : (answer q s).pidx = s.pidx := rfl
@[simp] theorem answer_ptmem (q : Response) (s : State) : (answer q s).ptmem = s.ptmem := rfl
@[simp] theorem answer_agenda (q : Response) (s : State) : (answer q s).agenda = s.agenda := rfl
@[simp] theorem answer_responses (q : Response) (s : State) : (answer q s).responses = q :: s.responses := rfl
@[simp] theorem answer_draws (q : Response) (s : State) : (answer q s).draws = s.draws := rfl
@[simp] theorem answer_status (q : Response) (s : State) : (answer q s).status = s.status := rfl
@[simp] theorem answer_p1 (q : Response) (s : State) : (answer q s).p1 = s.p1 := rfl
@[simp] theorem answer_p2 (q : Response) (s : State) : (answer q s).p2 = s.p2 := rfl
@[simp] theorem answer_r (q : Response) (s : State) : (answer q s).r = s.r := rfl
@[simp] theorem answer_qa (q : Response) (s : State) : (answer q s).qa = s.qa := rfl
@[simp] theorem answer_qb (q : Response) (s : State) : (answer q s).qb = s.qb := rfl
@[simp] theorem answer_sa (q : Response) (s : State) : (answer q s).sa = s.sa := rfl
@[simp] theorem answer_sb (q : Response) (s : State) : (answer q s).sb = s.sb := rfl
@[simp] theorem answer_qm (q : Response) (s : State) : (answer q s).qm = s.qm := rfl
@[simp] theorem answer_c (q : Response) (s : State) : (answer q s).c = s.c := rfl
@[simp] theorem answer_sp (q : Response) (s : State) : (answer q s).sp = s.sp := rfl
@[simp] theorem getTriple_answer (q : Response) (t : PointReg) (s : State) : getTriple t (answer q s) = getTriple t s := by cases t <;> rfl

/-! The agenda. -/

@[simp] theorem withAgenda_cmd (turns : List Turn) (s : State) : (withAgenda turns s).cmd = s.cmd := rfl
@[simp] theorem withAgenda_cap (turns : List Turn) (s : State) : (withAgenda turns s).cap = s.cap := rfl
@[simp] theorem withAgenda_p (turns : List Turn) (s : State) : (withAgenda turns s).p = s.p := rfl
@[simp] theorem withAgenda_a (turns : List Turn) (s : State) : (withAgenda turns s).a = s.a := rfl
@[simp] theorem withAgenda_b (turns : List Turn) (s : State) : (withAgenda turns s).b = s.b := rfl
@[simp] theorem withAgenda_n (turns : List Turn) (s : State) : (withAgenda turns s).n = s.n := rfl
@[simp] theorem withAgenda_k (turns : List Turn) (s : State) : (withAgenda turns s).k = s.k := rfl
@[simp] theorem withAgenda_rn (turns : List Turn) (s : State) : (withAgenda turns s).rn = s.rn := rfl
@[simp] theorem withAgenda_gx (turns : List Turn) (s : State) : (withAgenda turns s).gx = s.gx := rfl
@[simp] theorem withAgenda_gy (turns : List Turn) (s : State) : (withAgenda turns s).gy = s.gy := rfl
@[simp] theorem withAgenda_da (turns : List Turn) (s : State) : (withAgenda turns s).da = s.da := rfl
@[simp] theorem withAgenda_db (turns : List Turn) (s : State) : (withAgenda turns s).db = s.db := rfl
@[simp] theorem withAgenda_msg (turns : List Turn) (s : State) : (withAgenda turns s).msg = s.msg := rfl
@[simp] theorem withAgenda_mreg (turns : List Turn) (s : State) : (withAgenda turns s).mreg = s.mreg := rfl
@[simp] theorem withAgenda_hreg (turns : List Turn) (s : State) : (withAgenda turns s).hreg = s.hreg := rfl
@[simp] theorem withAgenda_pcount (turns : List Turn) (s : State) : (withAgenda turns s).pcount = s.pcount := rfl
@[simp] theorem withAgenda_pidx (turns : List Turn) (s : State) : (withAgenda turns s).pidx = s.pidx := rfl
@[simp] theorem withAgenda_ptmem (turns : List Turn) (s : State) : (withAgenda turns s).ptmem = s.ptmem := rfl
@[simp] theorem withAgenda_agenda (turns : List Turn) (s : State) : (withAgenda turns s).agenda = turns := rfl
@[simp] theorem withAgenda_responses (turns : List Turn) (s : State) : (withAgenda turns s).responses = s.responses := rfl
@[simp] theorem withAgenda_draws (turns : List Turn) (s : State) : (withAgenda turns s).draws = s.draws := rfl
@[simp] theorem withAgenda_status (turns : List Turn) (s : State) : (withAgenda turns s).status = s.status := rfl
@[simp] theorem withAgenda_p1 (turns : List Turn) (s : State) : (withAgenda turns s).p1 = s.p1 := rfl
@[simp] theorem withAgenda_p2 (turns : List Turn) (s : State) : (withAgenda turns s).p2 = s.p2 := rfl
@[simp] theorem withAgenda_r (turns : List Turn) (s : State) : (withAgenda turns s).r = s.r := rfl
@[simp] theorem withAgenda_qa (turns : List Turn) (s : State) : (withAgenda turns s).qa = s.qa := rfl
@[simp] theorem withAgenda_qb (turns : List Turn) (s : State) : (withAgenda turns s).qb = s.qb := rfl
@[simp] theorem withAgenda_sa (turns : List Turn) (s : State) : (withAgenda turns s).sa = s.sa := rfl
@[simp] theorem withAgenda_sb (turns : List Turn) (s : State) : (withAgenda turns s).sb = s.sb := rfl
@[simp] theorem withAgenda_qm (turns : List Turn) (s : State) : (withAgenda turns s).qm = s.qm := rfl
@[simp] theorem withAgenda_c (turns : List Turn) (s : State) : (withAgenda turns s).c = s.c := rfl
@[simp] theorem withAgenda_sp (turns : List Turn) (s : State) : (withAgenda turns s).sp = s.sp := rfl
@[simp] theorem getTriple_withAgenda (turns : List Turn) (t : PointReg) (s : State) : getTriple t (withAgenda turns s) = getTriple t s := by cases t <;> rfl

/-! Point output. -/

@[simp] theorem pointOut_cmd (t : PointReg) (v : Point) (s : State) : (pointOut t v s).cmd = s.cmd := setTriple_cmd ..
@[simp] theorem pointOut_cap (t : PointReg) (v : Point) (s : State) : (pointOut t v s).cap = s.cap := setTriple_cap ..
@[simp] theorem pointOut_p (t : PointReg) (v : Point) (s : State) : (pointOut t v s).p = s.p := setTriple_p ..
@[simp] theorem pointOut_a (t : PointReg) (v : Point) (s : State) : (pointOut t v s).a = s.a := setTriple_a ..
@[simp] theorem pointOut_b (t : PointReg) (v : Point) (s : State) : (pointOut t v s).b = s.b := setTriple_b ..
@[simp] theorem pointOut_n (t : PointReg) (v : Point) (s : State) : (pointOut t v s).n = s.n := setTriple_n ..
@[simp] theorem pointOut_k (t : PointReg) (v : Point) (s : State) : (pointOut t v s).k = s.k := setTriple_k ..
@[simp] theorem pointOut_rn (t : PointReg) (v : Point) (s : State) : (pointOut t v s).rn = s.rn := setTriple_rn ..
@[simp] theorem pointOut_gx (t : PointReg) (v : Point) (s : State) : (pointOut t v s).gx = s.gx := setTriple_gx ..
@[simp] theorem pointOut_gy (t : PointReg) (v : Point) (s : State) : (pointOut t v s).gy = s.gy := setTriple_gy ..
@[simp] theorem pointOut_da (t : PointReg) (v : Point) (s : State) : (pointOut t v s).da = s.da := setTriple_da ..
@[simp] theorem pointOut_db (t : PointReg) (v : Point) (s : State) : (pointOut t v s).db = s.db := setTriple_db ..
@[simp] theorem pointOut_msg (t : PointReg) (v : Point) (s : State) : (pointOut t v s).msg = s.msg := setTriple_msg ..
@[simp] theorem pointOut_mreg (t : PointReg) (v : Point) (s : State) : (pointOut t v s).mreg = s.mreg := setTriple_mreg ..
@[simp] theorem pointOut_hreg (t : PointReg) (v : Point) (s : State) : (pointOut t v s).hreg = s.hreg := setTriple_hreg ..
@[simp] theorem pointOut_pcount (t : PointReg) (v : Point) (s : State) : (pointOut t v s).pcount = s.pcount := setTriple_pcount ..
@[simp] theorem pointOut_pidx (t : PointReg) (v : Point) (s : State) : (pointOut t v s).pidx = s.pidx := setTriple_pidx ..
@[simp] theorem pointOut_ptmem (t : PointReg) (v : Point) (s : State) : (pointOut t v s).ptmem = s.ptmem := setTriple_ptmem ..
@[simp] theorem pointOut_agenda (t : PointReg) (v : Point) (s : State) : (pointOut t v s).agenda = s.agenda := setTriple_agenda ..
@[simp] theorem pointOut_responses (t : PointReg) (v : Point) (s : State) : (pointOut t v s).responses = s.responses := setTriple_responses ..
@[simp] theorem pointOut_draws (t : PointReg) (v : Point) (s : State) : (pointOut t v s).draws = s.draws := setTriple_draws ..
@[simp] theorem pointOut_status (t : PointReg) (v : Point) (s : State) : (pointOut t v s).status = s.status := setTriple_status ..
@[simp] theorem getTriple_pointOut_same (t : PointReg) (v : Point) (s : State) : getTriple t (pointOut t v s) = tripleOf v :=
  getTriple_setTriple_same ..

theorem getTriple_pointOut (t u : PointReg) (v : Point) (s : State) :
    getTriple t (pointOut u v s) = if t = u then tripleOf v else getTriple t s := getTriple_setTriple ..

/-! The fields of STATUS. -/

@[simp] theorem statusCompleted_ptvalid (e : Option ErrCode) (n : BitVec 4) (f : Status) :
    (statusCompleted e n f).ptvalid = f.ptvalid := rfl
@[simp] theorem statusCompleted_busywr (e : Option ErrCode) (n : BitVec 4) (f : Status) :
    (statusCompleted e n f).busywr = f.busywr := rfl
@[simp] theorem statusCompleted_busy (e : Option ErrCode) (n : BitVec 4) (f : Status) :
    (statusCompleted e n f).busy = false := rfl
@[simp] theorem statusCompleted_done (e : Option ErrCode) (n : BitVec 4) (f : Status) :
    (statusCompleted e n f).done = true := rfl
@[simp] theorem statusCompleted_err (e : Option ErrCode) (n : BitVec 4) (f : Status) :
    (statusCompleted e n f).err = e.isSome := rfl
@[simp] theorem statusCompleted_errcode (e : Option ErrCode) (n : BitVec 4) (f : Status) :
    (statusCompleted e n f).errcode = errNumberOf e := rfl
@[simp] theorem statusCompleted_errstep (e : Option ErrCode) (n : BitVec 4) (f : Status) :
    (statusCompleted e n f).errstep = if e.isSome then n else 0 := rfl
@[simp] theorem statusPtvalid_ptvalid (v : Bool) (f : Status) : (statusPtvalid v f).ptvalid = v := rfl
@[simp] theorem statusPtvalid_busy (v : Bool) (f : Status) : (statusPtvalid v f).busy = f.busy := rfl
@[simp] theorem statusPtvalid_done (v : Bool) (f : Status) : (statusPtvalid v f).done = f.done := rfl
@[simp] theorem statusPtvalid_err (v : Bool) (f : Status) : (statusPtvalid v f).err = f.err := rfl
@[simp] theorem statusPtvalid_busywr (v : Bool) (f : Status) : (statusPtvalid v f).busywr = f.busywr := rfl
@[simp] theorem statusPtvalid_errcode (v : Bool) (f : Status) : (statusPtvalid v f).errcode = f.errcode := rfl
@[simp] theorem statusPtvalid_errstep (v : Bool) (f : Status) : (statusPtvalid v f).errstep = f.errstep := rfl

/-! Storing a host's word: what no host write reaches. -/

@[simp] theorem regStore_cmd (name : RegName) (v : Word) (s : State) : (regStore name v s).cmd = s.cmd := by
  cases name <;> simp only [regStore] <;> (try split) <;> simp
@[simp] theorem regStore_cap (name : RegName) (v : Word) (s : State) : (regStore name v s).cap = s.cap := by
  cases name <;> simp only [regStore] <;> (try split) <;> simp
@[simp] theorem regStore_rn (name : RegName) (v : Word) (s : State) : (regStore name v s).rn = s.rn := by
  cases name <;> simp only [regStore] <;> (try split) <;> simp
@[simp] theorem regStore_mreg (name : RegName) (v : Word) (s : State) : (regStore name v s).mreg = s.mreg := by
  cases name <;> simp only [regStore] <;> (try split) <;> simp
@[simp] theorem regStore_hreg (name : RegName) (v : Word) (s : State) : (regStore name v s).hreg = s.hreg := by
  cases name <;> simp only [regStore] <;> (try split) <;> simp
@[simp] theorem regStore_pcount (name : RegName) (v : Word) (s : State) : (regStore name v s).pcount = s.pcount := by
  cases name <;> simp only [regStore] <;> (try split) <;> simp
@[simp] theorem regStore_ptmem (name : RegName) (v : Word) (s : State) : (regStore name v s).ptmem = s.ptmem := by
  cases name <;> simp only [regStore] <;> (try split) <;> simp
@[simp] theorem regStore_agenda (name : RegName) (v : Word) (s : State) : (regStore name v s).agenda = s.agenda := by
  cases name <;> simp only [regStore] <;> (try split) <;> simp
@[simp] theorem regStore_responses (name : RegName) (v : Word) (s : State) : (regStore name v s).responses = s.responses := by
  cases name <;> simp only [regStore] <;> (try split) <;> simp
@[simp] theorem regStore_draws (name : RegName) (v : Word) (s : State) : (regStore name v s).draws = s.draws := by
  cases name <;> simp only [regStore] <;> (try split) <;> simp
@[simp] theorem regStore_status (name : RegName) (v : Word) (s : State) : (regStore name v s).status = s.status := by
  cases name <;> simp only [regStore] <;> (try split) <;> simp

theorem getTriple_regStore {t : PointReg} (h : isOperand t = false) (name : RegName) (v : Word) (s : State) :
    getTriple t (regStore name v s) = getTriple t s := by
  cases name <;> first
    | (cases t <;> rfl)
    | (rename_i u
       have : ∀ w, isOperand u = true → getTriple t (setTriple u w s) = getTriple t s := fun w hu =>
         getTriple_setTriple_ne (by rintro rfl; simp [h] at hu) w s
       simp only [regStore]
       split <;> simp_all)

end Sys2Proof.Machine
end

