-- ==== Sys2Proof/Laws/Bus.lean ====
section
/-! SUPPORT. Laws/Bus.lean: one lemma for each case of the bus operations and of the turns, which proofs cite instead of
unfolding `step`, `busRead` and `busWrite`. -/

namespace Sys2Proof.Machine

/-! The turns. -/

theorem step_noTurn {s : State} (h : s.agenda = []) : step s = coreTurn s := by rw [step, h]

theorem step_turn {s : State} {t : Turn} {rest : List Turn} (h : s.agenda = t :: rest) :
    step s = takeTurn t (withAgenda rest s) := by rw [step, h]

theorem coreTurn_idle {s : State} (h : s.status.busy = false) : coreTurn s = .next s := by
  rw [coreTurn, if_neg (by rw [h]; exact Bool.false_ne_true)]

theorem coreTurn_busy {s : State} (h : s.status.busy = true) : coreTurn s = completeStep s := by rw [coreTurn, if_pos h]

/-! What an access addresses. -/

theorem target_outside {off : Nat} (h : 0x200 ≤ off) (size : Nat) : target off size = .outside := by rw [target, if_pos h]

theorem target_illegal {off size : Nat} (h : off < 0x200) (hs : size ≠ 4 ∨ off % 4 ≠ 0 ∨ regAt off = none) :
    target off size = .illegal := by
  rw [target, if_neg (by omega)]
  by_cases hw : size ≠ 4 ∨ off % 4 ≠ 0
  · rw [if_pos hw]
  · rw [if_neg hw, (by tauto : regAt off = none)]

/-! Reading and writing a register. -/

theorem readRegister_stored {name : RegName} {s : State} (h : s.status.busy = false ∨ isResult name = false) :
    readRegister name s = answer (.read (regRead name s) none) s := by
  rw [readRegister, if_neg]
  rcases h with h | h <;> simp [h]

theorem readRegister_free {name : RegName} {s : State} (hb : s.status.busy = true) (hr : isResult name = true) :
    readRegister name s = { answer (.read (Config.busyReadWord s.draws) none) s with draws := s.draws + 1 } := by
  rw [readRegister, if_pos (by simp [hb, hr])]

theorem writeRegister_status (v : Word) (s : State) :
    writeRegister .status v s = setStatus (statusWritten v s.status) s := rfl

/-- The class of STATUS is STATUS's alone. -/
theorem writeClass_status {name : RegName} : writeClass name = .status ↔ name = .status := by
  cases name with
  | ptX t => cases t <;> decide
  | ptY t => cases t <;> decide
  | ptInf t => cases t <;> decide
  | _ => decide

theorem writeRegister_busy {name : RegName} {s : State} (hb : s.status.busy = true) (hn : name ≠ .status) (v : Word) :
    writeRegister name v s = setStatus (statusDiscarded s.status) s := by
  rw [writeRegister, if_neg (mt writeClass_status.mp hn), if_pos hb]

theorem writeRegister_idle {name : RegName} {s : State} (hb : s.status.busy = false) (hn : name ≠ .status) (v : Word) :
    writeRegister name v s =
      match writeClass name with
      | .ro => s
      | .rw => regStore name v s
      | .cmd => issue v s
      | .param => setStatus (statusPtvalid false s.status) (regStore name v s)
      | .status => s :=
  (if_neg (mt writeClass_status.mp hn)).trans ((if_neg (by rw [hb]; exact Bool.false_ne_true)).trans rfl)

end Sys2Proof.Machine
end

