-- ==== Sys2Proof/Laws/Commands.lean ====
section
/-! SUPPORT. Laws/Commands.lean: the parts every command is made of: the checks, the commit of a result, and the record of a
command's end; and each command's computation once its checks are known. -/

namespace Sys2Proof.Machine

/-! Sequencing in `Except`. -/

@[simp] theorem ok_bind {ε α β : Type} (v : α) (f : α → Except ε β) : ((Except.ok v : Except ε α) >>= f) = f v := rfl

@[simp] theorem error_bind {ε α β : Type} (e : ε) (f : α → Except ε β) :
    ((Except.error e : Except ε α) >>= f) = .error e := rfl

theorem bind_ok_iff {ε α β : Type} {x : Except ε α} {f : α → Except ε β} {b : β} :
    (x >>= f) = .ok b ↔ ∃ a, x = .ok a ∧ f a = .ok b := by
  cases x with
  | ok v => simp
  | error e => simp

theorem bind_error_iff {ε α β : Type} {x : Except ε α} {f : α → Except ε β} {e : ε} :
    (x >>= f) = .error e ↔ x = .error e ∨ ∃ a, x = .ok a ∧ f a = .error e := by
  cases x with
  | ok v => simp
  | error e' => simp

/-! The checks. -/

theorem checkModulus_legal {s : State} (h : 2 ≤ sext32 s.p) : checkModulus s = .ok (sext32 s.p) := by
  rw [checkModulus, if_neg (by omega)]

theorem checkModulus_small {s : State} (h : sext32 s.p < 2) : checkModulus s = .error .badModulus := by
  rw [checkModulus, if_pos h]

/-- What the modulus check answers. -/
theorem checkModulus_cases (s : State) :
    (2 ≤ sext32 s.p ∧ checkModulus s = .ok (sext32 s.p)) ∨ (sext32 s.p < 2 ∧ checkModulus s = .error .badModulus) := by
  rcases lt_or_ge (sext32 s.p) 2 with h | h
  · exact Or.inr ⟨h, checkModulus_small h⟩
  · exact Or.inl ⟨h, checkModulus_legal h⟩

theorem checkPoint_pass {v : Point} {p : Int} (h : inRange v p = true) : checkPoint v p = .ok () := by
  rw [checkPoint, if_pos h]

theorem checkPoint_stop {v : Point} {p : Int} (h : inRange v p = false) : checkPoint v p = .error .badPoint := by
  simp [checkPoint, h]

theorem checkScalar_pass {k : Int} (h : 0 ≤ k) : checkScalar k = .ok () := by
  rw [checkScalar, if_neg (by omega)]

theorem checkScalar_stop {k : Int} (h : k < 0) : checkScalar k = .error .badScalar := by
  rw [checkScalar, if_pos h]

theorem inRange_aff {x y p : Int} : inRange (.aff x y) p = true ↔ 0 ≤ x ∧ x < p ∧ 0 ≤ y ∧ y < p := by
  simp [inRange, and_assoc]

@[simp] theorem inRange_inf (p : Int) : inRange .inf p = true := rfl

/-! The end of a command. -/

/-- Completion without error leaves STATUS at `okStatus` and nothing else changed. -/
theorem complete_none (n : BitVec 4) (s : State) : complete none n s = { s with status := okStatus s.status } := rfl

/-- Completion with an error leaves STATUS at `errStatus` and nothing else changed. -/
theorem complete_some (e : ErrCode) (n : BitVec 4) (s : State) :
    complete (some e) n s = { s with status := errStatus s.status (errNumber e) n } := rfl

theorem finish_attempt_ok {α : Type} {result : Except ErrCode α} {v : α} (h : result = .ok v) (commit : α → State → State)
    (s : State) : finish (attempt result commit s) = .next (complete none 0 (commit v s)) := by
  rw [h]; rfl

theorem finish_attempt_error {α : Type} {result : Except ErrCode α} {e : ErrCode} (h : result = .error e)
    (commit : α → State → State) (s : State) :
    finish (attempt result commit s) = .next (failedWith (errNumber e) s) := by
  rw [h]; rfl

/-- What an attempt leaves: the committed result, or the state as it was with the error. -/
theorem attempt_cases {α : Type} (result : Except ErrCode α) (commit : α → State → State) (s : State) :
    (∃ v, result = .ok v ∧ attempt result commit s = ⟨commit v s, none⟩) ∨
      (∃ e, result = .error e ∧ attempt result commit s = ⟨s, some e⟩) := by
  cases result with
  | ok v => exact Or.inl ⟨v, rfl, rfl⟩
  | error e => exact Or.inr ⟨e, rfl, rfl⟩

/-- Every error has a number that is not 0 and not reserved (60_exceptions.md R301). -/
theorem errNumber_range (e : ErrCode) : errNumber e ≠ 0 ∧ (errNumber e).toNat ≤ 10 := by
  cases e <;> decide

/-! The computations, once the modulus is legal. With an illegal one they all end with BadModulus. -/

theorem reduceValue_legal {s : State} (h : 2 ≤ sext32 s.p) : reduceValue s = .ok (reduce (sext32 s.n) (sext32 s.p)) := by
  simp [reduceValue, checkModulus_legal h, pure, Except.pure]

theorem invValue_legal {s : State} (h : 2 ≤ sext32 s.p) : invValue s = inverse (sext32 s.n) (sext32 s.p) := by
  simp [invValue, checkModulus_legal h]

theorem pdblValue_legal {s : State} (h : 2 ≤ sext32 s.p) :
    pdblValue s = (do checkPoint (pointIn .p1 s) (sext32 s.p); ecDouble (pointIn .p1 s) (sext32 s.a) (sext32 s.p)) := by
  simp [pdblValue, checkModulus_legal h]

theorem paddValue_legal {s : State} (h : 2 ≤ sext32 s.p) :
    paddValue s = (do
      checkPoint (pointIn .p1 s) (sext32 s.p)
      checkPoint (pointIn .p2 s) (sext32 s.p)
      ecAdd (pointIn .p1 s) (pointIn .p2 s) (sext32 s.a) (sext32 s.p)) := by
  simp [paddValue, checkModulus_legal h]

theorem pmulValue_legal {s : State} (h : 2 ≤ sext32 s.p) :
    pmulValue s = (do
      checkPoint (pointIn .p1 s) (sext32 s.p)
      checkScalar (sext32 s.k)
      scalarMul (pointIn .p1 s) (sext32 s.k) (sext32 s.a) (sext32 s.p)) := by
  simp [pmulValue, checkModulus_legal h]

theorem keygenValue_legal {s : State} (h : 2 ≤ sext32 s.p) :
    keygenValue s = (do
      checkPoint (basePoint s) (sext32 s.p)
      checkScalar (sext32 s.da)
      checkScalar (sext32 s.db)
      let v ← scalarMul (basePoint s) (sext32 s.da) (sext32 s.a) (sext32 s.p)
      let w ← scalarMul (basePoint s) (sext32 s.db) (sext32 s.a) (sext32 s.p)
      return (v, w)) := by
  simp [keygenValue, checkModulus_legal h]

theorem sharedValue_legal {s : State} (h : 2 ≤ sext32 s.p) :
    sharedValue s = (do
      checkPoint (pointIn .qa s) (sext32 s.p)
      checkPoint (pointIn .qb s) (sext32 s.p)
      checkScalar (sext32 s.da)
      checkScalar (sext32 s.db)
      let v ← scalarMul (pointIn .qb s) (sext32 s.da) (sext32 s.a) (sext32 s.p)
      let w ← scalarMul (pointIn .qa s) (sext32 s.db) (sext32 s.a) (sext32 s.p)
      return (v, w)) := by
  simp [sharedValue, checkModulus_legal h]

theorem encryptValue_legal {s : State} (h : 2 ≤ sext32 s.p) :
    encryptValue s = (do
      checkPoint (pointIn .qm s) (sext32 s.p)
      checkPoint (pointIn .sa s) (sext32 s.p)
      ecAdd (pointIn .qm s) (pointIn .sa s) (sext32 s.a) (sext32 s.p)) := by
  simp [encryptValue, checkModulus_legal h]

theorem enumBody_legal {s : State} (h : 2 ≤ sext32 s.p) :
    enumBody s = enumWith (allPoints (sext32 s.p) (sext32 s.a) (sext32 s.b)) s := by
  simp [enumBody, checkModulus_legal h]

/-- ENCODE's checks, once the modulus is legal. -/
theorem encodeChecks_legal {s : State} (h : 2 ≤ sext32 s.p) :
    encodeChecks s =
      if s.status.ptvalid = false then .error .notEnumerated
      else if s.pcount = 0 then .error .degenerateCurve else .ok (sext32 s.p) := by
  simp only [encodeChecks, checkModulus_legal h, ok_bind]
  by_cases h1 : s.status.ptvalid = false
  · simp [h1, throw, throwThe, MonadExceptOf.throw]
  · by_cases h2 : s.pcount = 0
    · simp [h1, h2, throw, throwThe, MonadExceptOf.throw, pure, Except.pure]
    · simp [h1, h2, pure, Except.pure]

/-- With `p < 2` every computation ends with BadModulus (40_modular.md R122). -/
theorem values_small {s : State} (h : sext32 s.p < 2) :
    reduceValue s = .error .badModulus ∧ invValue s = .error .badModulus ∧ pdblValue s = .error .badModulus ∧
      paddValue s = .error .badModulus ∧ pmulValue s = .error .badModulus ∧ keygenValue s = .error .badModulus ∧
      sharedValue s = .error .badModulus ∧ encryptValue s = .error .badModulus ∧ encodeChecks s = .error .badModulus := by
  simp [reduceValue, invValue, pdblValue, paddValue, pmulValue, keygenValue, sharedValue, encryptValue, encodeChecks,
    checkModulus_small h]

/-! Registers as integers. -/

/-- A modulus a register holds is at most `2^31 - 1` (00_scope.md R5). -/
theorem sext32_le (w : Word) : sext32 w ≤ 2 ^ 31 - 1 := by
  have := BitVec.toInt_lt (x := w)
  simp only [sext32]
  omega

/-- `sext_32` undoes `enc_32` on the integers a 32-bit register holds (00_scope.md R7, R8). -/
theorem sext32_enc32 {n : Int} (h0 : -2 ^ 31 ≤ n) (h1 : n < 2 ^ 31) : sext32 (enc32 n) = n := by
  rw [sext32, enc32, BitVec.toInt_ofInt]
  exact Int.bmod_eq_of_le (by omega) (by omega)

theorem enc32_toNat {n : Int} (h0 : 0 ≤ n) (h1 : n < 2 ^ 32) : (enc32 n).toNat = n.toNat := by
  rw [enc32, BitVec.toNat_ofInt]
  congr 1
  exact Int.emod_eq_of_lt h0 (by omega)

end Sys2Proof.Machine
end

