-- ==== Sys2Proof/Laws/Modular.lean ====
section
/-! SUPPORT. Laws/Modular.lean: `reduce` is the canonical residue, and the inverse the machine runs is the one the scan of
40_modular.md R121 defines. -/

namespace Sys2Proof.Machine

theorem reduce_nonneg {p : Int} (hp : 0 < p) (n : Int) : 0 ≤ reduce n p := Int.emod_nonneg n hp.ne'

theorem reduce_lt {p : Int} (hp : 0 < p) (n : Int) : reduce n p < p := Int.emod_lt_of_pos n hp

/-- `reduce(n, p) = n - p * floor(n / p)` (R120). -/
theorem reduce_eq_floor {p : Int} (hp : 0 < p) (n : Int) : reduce n p = n - p * Int.fdiv n p := by
  rw [reduce, Int.emod_def, Int.fdiv_eq_ediv_of_nonneg n hp.le]

theorem dvd_sub_reduce (n p : Int) : p ∣ n - reduce n p := Int.dvd_self_sub_emod

theorem reduce_eq_self {n p : Int} (h0 : 0 ≤ n) (h1 : n < p) : reduce n p = n := Int.emod_eq_of_lt h0 h1

/-- The residue is the only number of `[0, p)` congruent to the operand (R120). -/
theorem reduce_unique {n p r : Int} (h0 : 0 ≤ r) (h1 : r < p) (h : p ∣ n - r) : reduce n p = r := by
  rw [reduce, Int.emod_eq_emod_iff_emod_sub_eq_zero.mpr (Int.emod_eq_zero_of_dvd h), Int.emod_eq_of_lt h0 h1]

theorem reduce_eq_reduce_iff {m n p : Int} : reduce m p = reduce n p ↔ p ∣ m - n := by
  rw [reduce, reduce, Int.emod_eq_emod_iff_emod_sub_eq_zero, Int.dvd_iff_emod_eq_zero]

theorem reduce_mul_reduce (m n p : Int) : reduce (reduce m p * n) p = reduce (m * n) p := by
  simp [reduce, Int.mul_emod]

/-! The scan. -/

/-- What the scan answers: the first `x` of its range that passes the test, or that none does. -/
theorem scanFrom_ok_iff {r p : Int} {count : Nat} {x y : Int} :
    scanFrom r p count x = .ok y ↔
      x ≤ y ∧ y < x + count ∧ reduce (r * y) p = 1 ∧ ∀ z, x ≤ z → z < y → reduce (r * z) p ≠ 1 := by
  induction count generalizing x with
  | zero =>
    simp only [scanFrom, reduceCtorEq, false_iff]
    omega
  | succ more ih =>
    simp only [scanFrom]
    split
    · rename_i hx
      constructor
      · rintro ⟨⟩
        exact ⟨le_refl _, by omega, hx, by omega⟩
      · rintro ⟨h1, -, -, h4⟩
        by_contra hne
        exact h4 x (le_refl _) (lt_of_le_of_ne h1 fun e => hne (by rw [e])) hx
    · rename_i hx
      rw [ih]
      constructor
      · rintro ⟨h1, h2, h3, h4⟩
        refine ⟨by omega, by omega, h3, fun z hz hzy => ?_⟩
        rcases eq_or_lt_of_le hz with rfl | hz
        · exact hx
        · exact h4 z (by omega) hzy
      · rintro ⟨h1, h2, h3, h4⟩
        have hne : x ≠ y := by
          rintro rfl
          exact hx h3
        exact ⟨by omega, by omega, h3, fun z hz => h4 z (by omega)⟩

theorem scanFrom_error_iff {r p : Int} {count : Nat} {x : Int} {e : ErrCode} :
    scanFrom r p count x = .error e ↔
      e = .noInverseExists ∧ ∀ z, x ≤ z → z < x + count → reduce (r * z) p ≠ 1 := by
  induction count generalizing x with
  | zero =>
    simp only [scanFrom, Except.error.injEq]
    constructor
    · rintro rfl
      exact ⟨rfl, by omega⟩
    · rintro ⟨rfl, -⟩
      rfl
  | succ more ih =>
    simp only [scanFrom]
    split
    · rename_i hx
      simp only [reduceCtorEq, false_iff, not_and]
      intro _ h
      exact h x (le_refl _) (by omega) hx
    · rename_i hx
      rw [ih]
      refine and_congr_right fun _ => ⟨fun h z hz hz' => ?_, fun h z hz hz' => h z (by omega) (by omega)⟩
      rcases eq_or_lt_of_le hz with rfl | hz
      · exact hx
      · exact h z (by omega) (by omega)

/-! The Euclidean algorithm. -/

/-- The algorithm computes the gcd, and its coefficient of `n` modulo `p`, when the fuel exceeds the second number. -/
theorem euclid_spec {n p : Int} (fuel : Nat) {a b u v : Int} (ha : 0 ≤ a) (hb : 0 ≤ b) (hf : b < fuel)
    (hu : p ∣ u * n - a) (hv : p ∣ v * n - b) :
    (euclid fuel a b u v).1 = Int.gcd a b ∧ p ∣ (euclid fuel a b u v).2 * n - (euclid fuel a b u v).1 := by
  induction fuel generalizing a b u v with
  | zero => omega
  | succ more ih =>
    simp only [euclid]
    split
    · rename_i h0
      subst h0
      refine ⟨?_, hu⟩
      simp [abs_of_nonneg ha]
    · rename_i h0
      have hb' : 0 < b := lt_of_le_of_ne hb (Ne.symm h0)
      have hlt := Int.emod_lt_of_pos a hb'
      have hstep : p ∣ (u - a / b * v) * n - a % b := by
        have h1 : (u - a / b * v) * n - a % b = (u * n - a) - a / b * (v * n - b) := by
          have := Int.emod_add_mul_ediv a b
          linear_combination -this
        rw [h1]
        exact dvd_sub hu (Dvd.dvd.mul_left hv _)
      obtain ⟨h1, h2⟩ := ih hb (Int.emod_nonneg a h0) (by omega) hv hstep
      refine ⟨?_, h2⟩
      rw [h1, Int.gcd_comm b, Int.gcd_emod]

/-- `inverse` succeeds exactly when the operand is invertible, and then answers the inverse in `[0, p)`. -/
theorem inverse_spec {n p : Int} (hp : 2 ≤ p) :
    (Int.gcd n p = 1 ∧ ∃ x, inverse n p = .ok x ∧ 0 ≤ x ∧ x < p ∧ reduce (n * x) p = 1) ∨
      (Int.gcd n p ≠ 1 ∧ inverse n p = .error .noInverseExists) := by
  have hp0 : 0 < p := by omega
  obtain ⟨h1, h2⟩ := euclid_spec (n := n) (p := p) (p.toNat + 2) (a := reduce n p) (b := p) (u := 1) (v := 0)
    (reduce_nonneg hp0 n) hp0.le (by omega) (by simpa using dvd_sub_reduce n p) (by simp)
  have hg : Int.gcd (reduce n p) p = Int.gcd n p := Int.gcd_emod n p
  rw [hg] at h1
  simp only [inverse]
  by_cases h : Int.gcd n p = 1
  · refine Or.inl ⟨h, _, by rw [if_pos (by rw [h1, h]; rfl)], reduce_nonneg hp0 _, reduce_lt hp0 _, ?_⟩
    rw [h1, h] at h2
    rw [mul_comm, reduce_mul_reduce]
    exact reduce_unique (by omega) (by omega) (by simpa using h2)
  · refine Or.inr ⟨h, if_neg ?_⟩
    rw [h1]
    exact_mod_cast h

/-- The inverse the machine runs is the one the ascending scan of R121 defines, on every operand and every legal modulus
(R126). -/
theorem inverse_eq_scan {p : Int} (hp : 2 ≤ p) (n : Int) : inverse n p = inverseScan n p := by
  have hp0 : 0 < p := by omega
  have hcount : ((p - 1).toNat : Int) = p - 1 := by omega
  have cancel : ∀ {x y : Int}, Int.gcd n p = 1 → reduce (n * x) p = 1 → reduce (n * y) p = 1 → 0 ≤ x → x < p → 0 ≤ y →
      y < p → x = y := by
    intro x y hg hx hy hx0 hx1 hy0 hy1
    have hd : p ∣ n * (x - y) := by
      rw [mul_sub]
      exact reduce_eq_reduce_iff.mp (hx.trans hy.symm)
    have hd' : p ∣ x - y := Int.dvd_of_dvd_mul_right_of_gcd_one hd (by rwa [Int.gcd_comm])
    rw [← reduce_eq_self hx0 hx1, ← reduce_eq_self hy0 hy1]
    exact reduce_eq_reduce_iff.mpr hd'
  symm
  rcases inverse_spec (n := n) hp with ⟨hg, x, hx, hx0, hx1, hxt⟩ | ⟨hg, he⟩
  · rw [hx, inverseScan, scanFrom_ok_iff, reduce_mul_reduce]
    have hne : x ≠ 0 := by
      rintro rfl
      simp [reduce] at hxt
    refine ⟨by omega, by omega, hxt, fun z hz hzx hzt => ?_⟩
    rw [reduce_mul_reduce] at hzt
    have := cancel hg hxt hzt hx0 hx1 (by omega) (by omega)
    omega
  · rw [he, inverseScan, scanFrom_error_iff]
    refine ⟨rfl, fun z _ _ hzt => hg ?_⟩
    rw [reduce_mul_reduce] at hzt
    have h1 : p ∣ n * z - 1 := by
      have := dvd_sub_reduce (n * z) p
      rwa [hzt] at this
    have hgz : (Int.gcd n p : Int) ∣ 1 := by
      have ha : (Int.gcd n p : Int) ∣ n * z := Dvd.dvd.mul_right (Int.gcd_dvd_left ..) z
      have hb : (Int.gcd n p : Int) ∣ n * z - 1 := (Int.gcd_dvd_right ..).trans h1
      have := dvd_sub ha hb
      simpa using this
    have := Int.eq_one_of_dvd_one (by omega) hgz
    exact_mod_cast this

end Sys2Proof.Machine
end

