-- ==== Sys2Proof/Laws/Curve.lean ====
section
/-! SUPPORT. Laws/Curve.lean: the group-law functions: what `ecAdd` answers in each of its cases, that results are canonical,
and when no addition fails. -/

namespace Sys2Proof.Machine

/-- The point of a slope is canonical, and satisfies the equations of R152. -/
theorem chord_spec {p : Int} (hp : 2 ≤ p) (lam x1 y1 x2 : Int) :
    ∃ x3 y3, chord lam x1 y1 x2 p = .aff x3 y3 ∧ isChordPoint lam x1 y1 x2 x3 y3 p :=
  have h0 : 0 < p := by omega
  ⟨_, _, rfl, ⟨reduce_nonneg h0 _, reduce_lt h0 _, dvd_sub_reduce _ _⟩,
    ⟨reduce_nonneg h0 _, reduce_lt h0 _, dvd_sub_reduce _ _⟩⟩

theorem isChordPoint_inRange {lam x1 y1 x2 x3 y3 p : Int} (h : isChordPoint lam x1 y1 x2 x3 y3 p) :
    inRange (.aff x3 y3) p = true :=
  inRange_aff.mpr ⟨h.1.1, h.1.2.1, h.2.1, h.2.2.1⟩

/-- A product with the inverse solves the linear congruence. -/
theorem slope_spec {d i c p : Int} (h : reduce (d * i) p = 1) : p ∣ d * reduce (c * i) p - c := by
  have h1 : p ∣ d * i - 1 := by
    have := dvd_sub_reduce (d * i) p
    rwa [h] at this
  have h2 := dvd_sub_reduce (c * i) p
  have : d * reduce (c * i) p - c = c * (d * i - 1) - d * (c * i - reduce (c * i) p) := by ring
  rw [this]
  exact dvd_sub (Dvd.dvd.mul_left h1 _) (Dvd.dvd.mul_left h2 _)

theorem ecAdd_inf_left (w : Point) (a p : Int) : ecAdd .inf w a p = .ok w := by cases w <;> rfl

theorem ecAdd_inf_right (v : Point) (a p : Int) : ecAdd v .inf a p = .ok v := by cases v <;> rfl

/-- The inverse-cancellation rule. -/
theorem ecAdd_cancel {x y1 y2 a p : Int} (h : y1 ≠ y2 ∨ y1 = 0) : ecAdd (.aff x y1) (.aff x y2) a p = .ok .inf := by
  simp only [ecAdd, true_and]
  rw [if_pos h]

/-- The doubling branch. -/
theorem ecAdd_double {x y a p : Int} (hp : 2 ≤ p) (hy : y ≠ 0) :
    (Int.gcd (2 * y) p = 1 → ∃ x3 y3, ecAdd (.aff x y) (.aff x y) a p = .ok (.aff x3 y3) ∧ isDouble x y a x3 y3 p) ∧
      (Int.gcd (2 * y) p ≠ 1 → ecAdd (.aff x y) (.aff x y) a p = .error .noInverseExists) := by
  simp only [ecAdd, ne_eq, not_true_eq_false, false_or, hy, and_false, if_false, if_true]
  rcases inverse_spec (n := 2 * y) hp with ⟨hg, i, hi, -, -, hit⟩ | ⟨hg, he⟩
  · refine ⟨fun _ => ?_, fun h => absurd hg h⟩
    obtain ⟨x3, y3, hc, hs⟩ := chord_spec hp (reduce ((3 * x * x + a) * i) p) x y x
    exact ⟨x3, y3, by rw [hi, ok_bind, hc]; rfl, _, slope_spec hit, hs⟩
  · refine ⟨fun h => absurd h hg, fun _ => ?_⟩
    rw [he, error_bind]

/-- The general-addition branch. -/
theorem ecAdd_general {x1 y1 x2 y2 a p : Int} (hp : 2 ≤ p) (hx : x1 ≠ x2) :
    (Int.gcd (x2 - x1) p = 1 →
        ∃ x3 y3, ecAdd (.aff x1 y1) (.aff x2 y2) a p = .ok (.aff x3 y3) ∧ isSum x1 y1 x2 y2 x3 y3 p) ∧
      (Int.gcd (x2 - x1) p ≠ 1 → ecAdd (.aff x1 y1) (.aff x2 y2) a p = .error .noInverseExists) := by
  have h0 : ¬(x1 = x2 ∧ (y1 ≠ y2 ∨ y1 = 0)) := by simp [hx]
  simp only [ecAdd]
  rw [if_neg h0, if_neg hx]
  rcases inverse_spec (n := x2 - x1) hp with ⟨hg, i, hi, -, -, hit⟩ | ⟨hg, he⟩
  · refine ⟨fun _ => ?_, fun h => absurd hg h⟩
    obtain ⟨x3, y3, hc, hs⟩ := chord_spec hp (reduce ((y2 - y1) * i) p) x1 y1 x2
    exact ⟨x3, y3, by rw [hi, ok_bind, hc]; rfl, _, slope_spec hit, hs⟩
  · refine ⟨fun h => absurd h hg, fun _ => ?_⟩
    rw [he, error_bind]

/-- The written-out doubling is the addition of a point to itself (41_curve_group.md R153). -/
theorem ecDouble_eq_ecAdd (v : Point) (a p : Int) : ecDouble v a p = ecAdd v v a p := by
  cases v with
  | inf => rfl
  | aff x y =>
    simp only [ecDouble, ecAdd, chord]
    by_cases hy : y = 0
    · simp [hy]
    · have h : ∀ lam : Int, lam * lam - 2 * x = lam * lam - x - x := fun lam => by ring
      simp [hy, h]

/-- What an addition of canonical points answers: a canonical point, or NoInverseExists. -/
theorem ecAdd_cases {v w : Point} {a p : Int} (hp : 2 ≤ p) (hv : inRange v p = true) (hw : inRange w p = true) :
    (∃ u, ecAdd v w a p = .ok u ∧ inRange u p = true) ∨ ecAdd v w a p = .error .noInverseExists := by
  cases v with
  | inf => exact Or.inl ⟨w, ecAdd_inf_left .., hw⟩
  | aff x1 y1 =>
    cases w with
    | inf => exact Or.inl ⟨_, ecAdd_inf_right .., hv⟩
    | aff x2 y2 =>
      by_cases hx : x1 = x2
      · subst hx
        by_cases hc : y1 ≠ y2 ∨ y1 = 0
        · exact Or.inl ⟨_, ecAdd_cancel hc, rfl⟩
        · push Not at hc
          obtain ⟨rfl, hy⟩ := hc
          by_cases hg : Int.gcd (2 * y1) p = 1
          · obtain ⟨x3, y3, h, lam, -, hs⟩ := (ecAdd_double hp hy (a := a) (x := x1)).1 hg
            exact Or.inl ⟨_, h, isChordPoint_inRange hs⟩
          · exact Or.inr ((ecAdd_double hp hy).2 hg)
      · by_cases hg : Int.gcd (x2 - x1) p = 1
        · obtain ⟨x3, y3, h, lam, -, hs⟩ := (ecAdd_general hp hx (a := a) (y1 := y1) (y2 := y2)).1 hg
          exact Or.inl ⟨_, h, isChordPoint_inRange hs⟩
        · exact Or.inr ((ecAdd_general hp hx).2 hg)

/-- The only error of an addition is NoInverseExists, whatever its operands (R152). -/
theorem ecAdd_error {v w : Point} {a p : Int} {e : ErrCode} (h : ecAdd v w a p = .error e) : e = .noInverseExists := by
  have hinv : ∀ {n : Int}, inverse n p = .error e → e = .noInverseExists := fun {n} h => by
    simp only [inverse] at h
    split at h <;> simp_all
  cases v with
  | inf => rw [ecAdd_inf_left] at h; simp at h
  | aff x1 y1 =>
    cases w with
    | inf => rw [ecAdd_inf_right] at h; simp at h
    | aff x2 y2 =>
      simp only [ecAdd] at h
      split at h
      · simp at h
      · split at h
        all_goals
          rcases bind_error_iff.mp h with h | ⟨i, -, h⟩
          · exact hinv h
          · simp [pure, Except.pure] at h

/-- A pass of the loop of R154, for a scalar that is not used up. -/
theorem mulLoop_pass {fuel n : Nat} (h : 0 < n) (r t : Point) (a p : Int) :
    mulLoop (fuel + 1) r t n a p =
      (addWhenOdd n r t a p >>= fun r' => ecAdd t t a p >>= fun t' => mulLoop fuel r' t' (n / 2) a p) := by
  rw [mulLoop, if_neg (by omega)]

@[simp] theorem mulLoop_zero (fuel : Nat) (r t : Point) (a p : Int) : mulLoop fuel r t 0 a p = .ok r := by
  cases fuel <;> rfl

/-- Any fuel that is at least the scalar gives the same loop. -/
theorem mulLoop_fuel {fuel n : Nat} (h : n ≤ fuel) (r t : Point) (a p : Int) :
    mulLoop fuel r t n a p = mulLoop n r t n a p := by
  induction fuel using Nat.strong_induction_on generalizing n r t with
  | _ fuel ih =>
    rcases Nat.eq_zero_or_pos n with rfl | hn
    · simp
    · obtain ⟨f, rfl⟩ : ∃ f, fuel = f + 1 := ⟨fuel - 1, by omega⟩
      obtain ⟨m, rfl⟩ : ∃ m, n = m + 1 := ⟨n - 1, by omega⟩
      rw [mulLoop_pass hn, mulLoop_pass hn]
      congr 1
      funext r'
      congr 1
      funext t'
      rw [ih f (by omega) (by omega)]
      rcases Nat.lt_or_ge m (f + 1) with hm | hm
      · exact (ih m hm (by omega) r' t').symm
      · omega

/-- The result of the loop is canonical, and its only error is NoInverseExists. -/
theorem mulLoop_cases {p : Int} (hp : 2 ≤ p) (a : Int) (fuel : Nat) {r t : Point} (n : Nat) (hr : inRange r p = true)
    (ht : inRange t p = true) :
    (∃ u, mulLoop fuel r t n a p = .ok u ∧ inRange u p = true) ∨ mulLoop fuel r t n a p = .error .noInverseExists := by
  induction fuel generalizing r t n with
  | zero => exact Or.inl ⟨r, rfl, hr⟩
  | succ more ih =>
    rcases Nat.eq_zero_or_pos n with rfl | hn
    · exact Or.inl ⟨r, mulLoop_zero .., hr⟩
    · rw [mulLoop_pass hn]
      have h1 : (∃ u, addWhenOdd n r t a p = .ok u ∧ inRange u p = true) ∨
          addWhenOdd n r t a p = .error .noInverseExists := by
        rw [addWhenOdd]
        split
        · exact ecAdd_cases hp hr ht
        · exact Or.inl ⟨r, rfl, hr⟩
      rcases h1 with ⟨r', h1, hr'⟩ | h1
      · rcases ecAdd_cases (a := a) hp ht ht with ⟨t', h2, ht'⟩ | h2
        · rw [h1, h2]
          exact ih (n / 2) hr' ht'
        · rw [h1, h2]
          exact Or.inr rfl
      · rw [h1]
        exact Or.inr rfl

/-- `scalarMul` of a canonical point answers a canonical point, or NoInverseExists. -/
theorem scalarMul_cases {v : Point} {p : Int} (hp : 2 ≤ p) (hv : inRange v p = true) (k a : Int) :
    (∃ u, scalarMul v k a p = .ok u ∧ inRange u p = true) ∨ scalarMul v k a p = .error .noInverseExists :=
  mulLoop_cases hp a _ _ rfl hv

/-- The only error of `scalarMul` is NoInverseExists, whatever its operands. -/
theorem scalarMul_error {v : Point} {k a p : Int} {e : ErrCode} (h : scalarMul v k a p = .error e) :
    e = .noInverseExists := by
  have key : ∀ (fuel : Nat) (r t : Point) (n : Nat), mulLoop fuel r t n a p = .error e → e = .noInverseExists := by
    intro fuel
    induction fuel with
    | zero => intro r t n h; simp [mulLoop] at h
    | succ more ih =>
      intro r t n h
      rcases Nat.eq_zero_or_pos n with rfl | hn
      · simp at h
      · rw [mulLoop_pass hn] at h
        rcases bind_error_iff.mp h with h | ⟨r', -, h⟩
        · rw [addWhenOdd] at h
          split at h
          · exact ecAdd_error h
          · simp at h
        · rcases bind_error_iff.mp h with h | ⟨t', -, h⟩
          · exact ecAdd_error h
          · exact ih _ _ _ h
  exact key _ _ _ _ h

/-! A modulus under which no addition of canonical points fails. -/

/-- A number of `(0, p)` is invertible modulo a prime `p`. -/
theorem gcd_prime {n p : Int} (hp : Prime p) (h : ¬p ∣ n) : Int.gcd n p = 1 := by
  have := (Prime.coprime_iff_not_dvd hp).mpr h
  exact Int.isCoprime_iff_gcd_eq_one.mp this.symm

/-- For an odd prime modulus an addition of canonical points answers a canonical point. -/
theorem ecAdd_ok_of_oddPrime {v w : Point} {p : Int} (hp : Prime p) (h2 : 2 < p) (a : Int) (hv : inRange v p = true)
    (hw : inRange w p = true) : ∃ u, ecAdd v w a p = .ok u ∧ inRange u p = true := by
  have hnd : ∀ n : Int, n ≠ 0 → -p < n → n < p → ¬p ∣ n := fun n h0 hl hu hd => by
    obtain ⟨c, hc⟩ := hd
    have : c = 0 := by
      by_contra hne
      rcases lt_or_gt_of_ne hne with h | h
      · nlinarith
      · nlinarith
    exact h0 (by rw [hc, this, mul_zero])
  rcases ecAdd_cases (a := a) (by omega) hv hw with h | h
  · exact h
  exfalso
  cases v with
  | inf => rw [ecAdd_inf_left] at h; simp at h
  | aff x1 y1 =>
    cases w with
    | inf => rw [ecAdd_inf_right] at h; simp at h
    | aff x2 y2 =>
      obtain ⟨a1, a2, a3, a4⟩ := inRange_aff.mp hv
      obtain ⟨b1, b2, b3, b4⟩ := inRange_aff.mp hw
      by_cases hx : x1 = x2
      · subst hx
        by_cases hc : y1 ≠ y2 ∨ y1 = 0
        · rw [ecAdd_cancel hc] at h; simp at h
        · push Not at hc
          obtain ⟨rfl, hy⟩ := hc
          have hg : Int.gcd (2 * y1) p = 1 := gcd_prime hp fun hd => by
            rcases hp.dvd_or_dvd hd with hd | hd
            · exact hnd 2 (by omega) (by omega) (by omega) hd
            · exact hnd y1 hy (by omega) (by omega) hd
          obtain ⟨x3, y3, h', -⟩ := (ecAdd_double (a := a) (x := x1) (by omega) hy).1 hg
          rw [h'] at h; simp at h
      · have hg : Int.gcd (x2 - x1) p = 1 := gcd_prime hp (hnd _ (by omega) (by omega) (by omega))
        obtain ⟨x3, y3, h', -⟩ := (ecAdd_general (a := a) (y1 := y1) (y2 := y2) (by omega) hx).1 hg
        rw [h'] at h; simp at h

end Sys2Proof.Machine
end

