-- ==== Sys2Proof/Laws/Memory.lean ====
section
/-! SUPPORT. Laws/Memory.lean: the point memory: a read after a write, the canonical form, and the loop that stores a
list. -/

namespace Sys2Proof.Machine

theorem Memory.read_write_same (m : Memory) (i : Nat) (v : Int × Int) : (m.write i v).read i = some v := by
  induction m with
  | nil => simp [Memory.write, Memory.read]
  | cons e rest ih =>
    obtain ⟨j, w⟩ := e
    simp only [Memory.write]
    split
    · simp [Memory.read]
    · split
      · simp [Memory.read]
      · rename_i h1 h2
        simp [Memory.read, ih, Ne.symm h2]

theorem Memory.read_write_ne {i k : Nat} (h : k ≠ i) (m : Memory) (v : Int × Int) : (m.write i v).read k = m.read k := by
  induction m with
  | nil => simp [Memory.write, Memory.read, h.symm]
  | cons e rest ih =>
    obtain ⟨j, w⟩ := e
    simp only [Memory.write]
    split
    · simp [Memory.read, h.symm]
    · split
      · subst_vars
        simp [Memory.read, h.symm]
      · simp [Memory.read, ih]

/-- What a write lists: the entry written and entries that were listed. -/
theorem Memory.mem_write {m : Memory} {i : Nat} {v : Int × Int} {e : Nat × (Int × Int)} (h : e ∈ m.write i v) :
    e = (i, v) ∨ e ∈ m := by
  induction m with
  | nil => simpa [Memory.write] using h
  | cons d rest ih =>
    obtain ⟨j, w⟩ := d
    simp only [Memory.write] at h
    split at h
    · simpa using h
    · split at h
      · simp only [List.mem_cons] at h ⊢
        tauto
      · simp only [List.mem_cons] at h ⊢
        rcases h with h | h
        · exact Or.inr (Or.inl h)
        · rcases ih h with h | h
          · exact Or.inl h
          · exact Or.inr (Or.inr h)

theorem Memory.wf_cons {i : Nat} {v : Int × Int} {m : Memory} :
    Memory.wf ((i, v) :: m) = true ↔ (∀ e ∈ m, i < e.1) ∧ m.wf = true := by
  simp [Memory.wf]

/-- A write keeps the canonical form. -/
theorem Memory.wf_write {m : Memory} (h : m.wf = true) (i : Nat) (v : Int × Int) : (m.write i v).wf = true := by
  induction m with
  | nil => simp [Memory.write, Memory.wf]
  | cons d rest ih =>
    obtain ⟨j, w⟩ := d
    obtain ⟨hj, hr⟩ := Memory.wf_cons.mp h
    simp only [Memory.write]
    split
    · rename_i hij
      refine Memory.wf_cons.mpr ⟨fun e he => ?_, h⟩
      rcases List.mem_cons.mp he with rfl | he
      · exact hij
      · exact hij.trans (hj e he)
    · split
      · rename_i hij
        subst hij
        exact Memory.wf_cons.mpr ⟨hj, hr⟩
      · refine Memory.wf_cons.mpr ⟨fun e he => ?_, ih hr⟩
        rcases Memory.mem_write he with rfl | he
        · exact lt_of_le_of_ne (by omega) (by simpa using Ne.symm ‹_›)
        · exact hj e he

theorem Memory.wf_writeFrom {m : Memory} (h : m.wf = true) (base : Nat) (l : List (Int × Int)) :
    (m.writeFrom base l).wf = true := by
  induction l generalizing m base with
  | nil => exact h
  | cons v rest ih => exact ih (Memory.wf_write h base v) (base + 1)

/-- Entries before the stored run are unchanged. -/
theorem Memory.read_writeFrom_before {m : Memory} {base i : Nat} (h : i < base) (l : List (Int × Int)) :
    (m.writeFrom base l).read i = m.read i := by
  induction l generalizing m base with
  | nil => rfl
  | cons v rest ih =>
    simp only [Memory.writeFrom]
    rw [ih (by omega), Memory.read_write_ne (by omega)]

/-- The stored run reads back as the list. -/
theorem Memory.read_writeFrom {m : Memory} {base k : Nat} {l : List (Int × Int)} (h : k < l.length) :
    (m.writeFrom base l).read (base + k) = some l[k] := by
  induction l generalizing m base k with
  | nil => simp at h
  | cons v rest ih =>
    simp only [Memory.writeFrom]
    cases k with
    | zero =>
      rw [Memory.read_writeFrom_before (by omega)]
      exact Memory.read_write_same m base v
    | succ k =>
      have hk : k < rest.length := by simpa using h
      have := ih (m := m.write base v) (base := base + 1) hk
      rw [show base + (k + 1) = base + 1 + k by omega, this]
      rfl

/-- Entries past the stored run are unchanged (42_enumerator.md R191: they keep whatever they held). -/
theorem Memory.read_writeFrom_after {m : Memory} {base i : Nat} {l : List (Int × Int)} (h : base + l.length ≤ i) :
    (m.writeFrom base l).read i = m.read i := by
  induction l generalizing m base with
  | nil => rfl
  | cons v rest ih =>
    simp only [List.length_cons] at h
    simp only [Memory.writeFrom]
    rw [ih (by omega), Memory.read_write_ne (by omega)]

/-- What the loop lists: indices inside the run with members of the list, and entries that were listed. -/
theorem Memory.mem_writeFrom {m : Memory} {base : Nat} {l : List (Int × Int)} {e : Nat × (Int × Int)}
    (h : e ∈ m.writeFrom base l) : (base ≤ e.1 ∧ e.1 < base + l.length ∧ e.2 ∈ l) ∨ e ∈ m := by
  induction l generalizing m base with
  | nil => exact Or.inr h
  | cons v rest ih =>
    rcases ih h with ⟨h1, h2, h3⟩ | h
    · exact Or.inl ⟨by omega, by simp only [List.length_cons]; omega, List.mem_cons_of_mem _ h3⟩
    · rcases Memory.mem_write h with rfl | h
      · exact Or.inl ⟨le_refl _, by simp only [List.length_cons]; omega, List.mem_cons_self ..⟩
      · exact Or.inr h

/-- The curve list depends on PCOUNT and the point memory only. -/
theorem curveList_congr {s t : State} (hc : t.pcount = s.pcount) (hm : t.ptmem = s.ptmem) : curveList t = curveList s := by
  have : ptEntry t = ptEntry s := funext fun i => by simp only [ptEntry, hm]
  rw [curveList, curveList, hc, this]

/-- After ENUM stored a list and its length, the curve list is that list. -/
theorem curveList_of_stored {s : State} {m : Memory} {l : List (Int × Int)} (hc : s.pcount = l.length)
    (hm : s.ptmem = m.writeFrom 0 l) : curveList s = l := by
  apply List.ext_getElem
  · simp [curveList, hc]
  · intro i h1 h2
    have := Memory.read_writeFrom (m := m) (base := 0) h2
    rw [Nat.zero_add] at this
    simp [curveList, ptEntry, hm, this]

/-- The memory after reset is canonical, for every `NPT`, and so is the empty memory an overflow leaves. -/
theorem reset_memory_wf (capacity : Word) : (State.resetOf capacity).ptmem.wf = true := rfl

end Sys2Proof.Machine
end

