-- ==== Sys2Proof/Laws/Effects.lean ====
section
/-! SUPPORT. Laws/Effects.lean: one inversion lemma per command and per agent: everything a command's pseudocode, and a step,
can leave. The invariants and the frames are case splits over these. -/

namespace Sys2Proof.Machine

theorem mem_residues {p x : Int} : x ∈ residues p ↔ 0 ≤ x ∧ x < p := by
  simp only [residues, List.mem_map, List.mem_range]
  constructor
  · rintro ⟨n, hn, rfl⟩
    simp only [Int.ofNat_eq_natCast]
    omega
  · rintro ⟨h0, h1⟩
    exact ⟨x.toNat, by omega, by simp only [Int.ofNat_eq_natCast]; omega⟩

/-- The points of the curve list are canonical. -/
theorem allPoints_range {p a b : Int} {q : Int × Int} (h : q ∈ allPoints p a b) :
    0 ≤ q.1 ∧ q.1 < p ∧ 0 ≤ q.2 ∧ q.2 < p := by
  simp only [allPoints, List.mem_flatMap, List.mem_map, List.mem_filter] at h
  obtain ⟨x, hx, y, ⟨hy, -⟩, rfl⟩ := h
  exact ⟨(mem_residues.mp hx).1, (mem_residues.mp hx).2, (mem_residues.mp hy).1, (mem_residues.mp hy).2⟩

/-! The computations. `codes` lists the errors a computation can end with. -/

/-- A computation ends with one of the listed errors, or with a result that has the property. -/
def endsIn {α : Type} (result : Except ErrCode α) (codes : List ErrCode) (good : α → Prop) : Prop :=
  (∃ e, result = .error e ∧ e ∈ codes) ∨ ∃ v, result = .ok v ∧ good v

theorem reduceValue_ends (s : State) :
    endsIn (reduceValue s) [.badModulus] fun r => 2 ≤ sext32 s.p ∧ 0 ≤ r ∧ r < sext32 s.p := by
  rcases checkModulus_cases s with ⟨h, -⟩ | ⟨h, -⟩
  · exact Or.inr ⟨_, reduceValue_legal h, h, reduce_nonneg (by omega) _, reduce_lt (by omega) _⟩
  · exact Or.inl ⟨_, (values_small h).1, by simp⟩

theorem invValue_ends (s : State) :
    endsIn (invValue s) [.badModulus, .noInverseExists] fun x => 2 ≤ sext32 s.p ∧ 0 ≤ x ∧ x < sext32 s.p := by
  rcases checkModulus_cases s with ⟨h, -⟩ | ⟨h, -⟩
  · rw [invValue_legal h]
    rcases inverse_spec (n := sext32 s.n) h with ⟨-, x, hx, h0, h1, -⟩ | ⟨-, he⟩
    · exact Or.inr ⟨x, hx, h, h0, h1⟩
    · exact Or.inl ⟨_, he, by simp⟩
  · exact Or.inl ⟨_, (values_small h).2.1, by simp⟩

/-- A point check followed by more. -/
theorem checkPoint_then {α : Type} {v : Point} {p : Int} {f : Unit → Except ErrCode α} {codes : List ErrCode}
    {good : α → Prop} (hc : ErrCode.badPoint ∈ codes) (h : inRange v p = true → endsIn (f ()) codes good) :
    endsIn (checkPoint v p >>= f) codes good := by
  cases hv : inRange v p with
  | true => rw [checkPoint_pass hv]; exact h hv
  | false => rw [checkPoint_stop hv]; exact Or.inl ⟨_, rfl, hc⟩

/-- A scalar check followed by more. -/
theorem checkScalar_then {α : Type} {k : Int} {f : Unit → Except ErrCode α} {codes : List ErrCode} {good : α → Prop}
    (hc : ErrCode.badScalar ∈ codes) (h : 0 ≤ k → endsIn (f ()) codes good) :
    endsIn (checkScalar k >>= f) codes good := by
  rcases lt_or_ge k 0 with hk | hk
  · rw [checkScalar_stop hk]; exact Or.inl ⟨_, rfl, hc⟩
  · rw [checkScalar_pass hk]; exact h hk

/-- A scalar multiplication of a canonical point followed by more. -/
theorem scalarMul_then {α : Type} {v : Point} {k a p : Int} {f : Point → Except ErrCode α} {codes : List ErrCode}
    {good : α → Prop} (hp : 2 ≤ p) (hv : inRange v p = true) (hc : ErrCode.noInverseExists ∈ codes)
    (h : ∀ u, inRange u p = true → endsIn (f u) codes good) : endsIn (scalarMul v k a p >>= f) codes good := by
  rcases scalarMul_cases hp hv k a with ⟨u, hu, hr⟩ | he
  · rw [hu]; exact h u hr
  · rw [he]; exact Or.inl ⟨_, rfl, hc⟩

theorem pdblValue_ends (s : State) :
    endsIn (pdblValue s) [.badModulus, .badPoint, .noInverseExists] fun v =>
      2 ≤ sext32 s.p ∧ inRange v (sext32 s.p) = true := by
  rcases checkModulus_cases s with ⟨h, -⟩ | ⟨h, -⟩
  · rw [pdblValue_legal h]
    refine checkPoint_then (by simp) fun hv => ?_
    rw [ecDouble_eq_ecAdd]
    rcases ecAdd_cases (a := sext32 s.a) h hv hv with ⟨u, hu, hr⟩ | he
    · exact Or.inr ⟨u, hu, h, hr⟩
    · exact Or.inl ⟨_, he, by simp⟩
  · exact Or.inl ⟨_, (values_small h).2.2.1, by simp⟩

theorem paddValue_ends (s : State) :
    endsIn (paddValue s) [.badModulus, .badPoint, .noInverseExists] fun v =>
      2 ≤ sext32 s.p ∧ inRange v (sext32 s.p) = true := by
  rcases checkModulus_cases s with ⟨h, -⟩ | ⟨h, -⟩
  · rw [paddValue_legal h]
    refine checkPoint_then (by simp) fun hv => checkPoint_then (by simp) fun hw => ?_
    rcases ecAdd_cases (a := sext32 s.a) h hv hw with ⟨u, hu, hr⟩ | he
    · exact Or.inr ⟨u, hu, h, hr⟩
    · exact Or.inl ⟨_, he, by simp⟩
  · exact Or.inl ⟨_, (values_small h).2.2.2.1, by simp⟩

theorem pmulValue_ends (s : State) :
    endsIn (pmulValue s) [.badModulus, .badPoint, .badScalar, .noInverseExists] fun v =>
      2 ≤ sext32 s.p ∧ inRange v (sext32 s.p) = true := by
  rcases checkModulus_cases s with ⟨h, -⟩ | ⟨h, -⟩
  · rw [pmulValue_legal h]
    refine checkPoint_then (by simp) fun hv => checkScalar_then (by simp) fun _ => ?_
    rcases scalarMul_cases h hv (sext32 s.k) (sext32 s.a) with ⟨u, hu, hr⟩ | he
    · exact Or.inr ⟨u, hu, h, hr⟩
    · exact Or.inl ⟨_, he, by simp⟩
  · exact Or.inl ⟨_, (values_small h).2.2.2.2.1, by simp⟩

theorem keygenValue_ends (s : State) :
    endsIn (keygenValue s) [.badModulus, .badPoint, .badScalar, .noInverseExists] fun q =>
      2 ≤ sext32 s.p ∧ inRange q.1 (sext32 s.p) = true ∧ inRange q.2 (sext32 s.p) = true := by
  rcases checkModulus_cases s with ⟨h, -⟩ | ⟨h, -⟩
  · rw [keygenValue_legal h]
    exact checkPoint_then (by simp) fun hg => checkScalar_then (by simp) fun _ => checkScalar_then (by simp) fun _ =>
      scalarMul_then h hg (by simp) fun u hu => scalarMul_then h hg (by simp) fun w hw => Or.inr ⟨_, rfl, h, hu, hw⟩
  · exact Or.inl ⟨_, (values_small h).2.2.2.2.2.1, by simp⟩

theorem sharedValue_ends (s : State) :
    endsIn (sharedValue s) [.badModulus, .badPoint, .badScalar, .noInverseExists] fun q =>
      2 ≤ sext32 s.p ∧ inRange q.1 (sext32 s.p) = true ∧ inRange q.2 (sext32 s.p) = true := by
  rcases checkModulus_cases s with ⟨h, -⟩ | ⟨h, -⟩
  · rw [sharedValue_legal h]
    exact checkPoint_then (by simp) fun ha => checkPoint_then (by simp) fun hb => checkScalar_then (by simp) fun _ =>
      checkScalar_then (by simp) fun _ => scalarMul_then h hb (by simp) fun u hu =>
        scalarMul_then h ha (by simp) fun w hw => Or.inr ⟨_, rfl, h, hu, hw⟩
  · exact Or.inl ⟨_, (values_small h).2.2.2.2.2.2.1, by simp⟩

theorem encryptValue_ends (s : State) :
    endsIn (encryptValue s) [.badModulus, .badPoint, .noInverseExists] fun v =>
      2 ≤ sext32 s.p ∧ inRange v (sext32 s.p) = true := by
  rcases checkModulus_cases s with ⟨h, -⟩ | ⟨h, -⟩
  · rw [encryptValue_legal h]
    refine checkPoint_then (by simp) fun hv => checkPoint_then (by simp) fun hw => ?_
    rcases ecAdd_cases (a := sext32 s.a) h hv hw with ⟨u, hu, hr⟩ | he
    · exact Or.inr ⟨u, hu, h, hr⟩
    · exact Or.inl ⟨_, he, by simp⟩
  · exact Or.inl ⟨_, (values_small h).2.2.2.2.2.2.2.1, by simp⟩

/-! The bodies that are also steps of ECDH. -/

/-- ENUM stops on the modulus, overflows, or stores the list. -/
theorem enumBody_cases (s : State) :
    (sext32 s.p < 2 ∧ enumBody s = ⟨s, some .badModulus⟩) ∨
      (2 ≤ sext32 s.p ∧ npt s < (allPoints (sext32 s.p) (sext32 s.a) (sext32 s.b)).length ∧
        enumBody s = ⟨setList [] 0 false s, some .pointMemOverflow⟩) ∨
      (2 ≤ sext32 s.p ∧ (allPoints (sext32 s.p) (sext32 s.a) (sext32 s.b)).length ≤ npt s ∧
        enumBody s =
          ⟨setList (s.ptmem.writeFrom 0 (allPoints (sext32 s.p) (sext32 s.a) (sext32 s.b)))
            (allPoints (sext32 s.p) (sext32 s.a) (sext32 s.b)).length true s, none⟩) := by
  rcases checkModulus_cases s with ⟨h, -⟩ | ⟨h, hc⟩
  · rw [enumBody_legal h, enumWith]
    rcases lt_or_ge (npt s) (allPoints (sext32 s.p) (sext32 s.a) (sext32 s.b)).length with hl | hl
    · exact Or.inr (Or.inl ⟨h, hl, if_pos hl⟩)
    · exact Or.inr (Or.inr ⟨h, hl, if_neg (by omega)⟩)
  · exact Or.inl ⟨h, by rw [enumBody, hc]⟩

theorem keygenBody_cases (s : State) :
    (∃ e, keygenBody s = ⟨s, some e⟩ ∧ e ∈ [ErrCode.badModulus, .badPoint, .badScalar, .noInverseExists]) ∨
      ∃ v w, 2 ≤ sext32 s.p ∧ inRange v (sext32 s.p) = true ∧ inRange w (sext32 s.p) = true ∧
        keygenBody s = ⟨pointOut .qb w (pointOut .qa v s), none⟩ := by
  rcases keygenValue_ends s with ⟨e, he, hm⟩ | ⟨⟨v, w⟩, hv, hp, h1, h2⟩
  · exact Or.inl ⟨e, by rw [keygenBody, he]; rfl, hm⟩
  · exact Or.inr ⟨v, w, hp, h1, h2, by rw [keygenBody, hv]; rfl⟩

theorem sharedBody_cases (s : State) :
    (∃ e, sharedBody s = ⟨s, some e⟩ ∧ e ∈ [ErrCode.badModulus, .badPoint, .badScalar, .noInverseExists]) ∨
      ∃ v w, 2 ≤ sext32 s.p ∧ inRange v (sext32 s.p) = true ∧ inRange w (sext32 s.p) = true ∧
        sharedBody s = ⟨pointOut .sb w (pointOut .sa v s), if v = w then none else some .secretMismatch⟩ := by
  rcases sharedValue_ends s with ⟨e, he, hm⟩ | ⟨⟨v, w⟩, hv, hp, h1, h2⟩
  · exact Or.inl ⟨e, by rw [sharedBody, he], hm⟩
  · exact Or.inr ⟨v, w, hp, h1, h2, by rw [sharedBody, hv]⟩

theorem encryptBody_cases (s : State) :
    (∃ e, encryptBody s = ⟨s, some e⟩ ∧ e ∈ [ErrCode.badModulus, .badPoint, .noInverseExists]) ∨
      ∃ v, 2 ≤ sext32 s.p ∧ inRange v (sext32 s.p) = true ∧
        encryptBody s = ⟨setTriple .sp s.qa (pointOut .c v s), none⟩ := by
  rcases encryptValue_ends s with ⟨e, he, hm⟩ | ⟨v, hv, hp, h1⟩
  · exact Or.inl ⟨e, by rw [encryptBody, he]; rfl, hm⟩
  · exact Or.inr ⟨v, hp, h1, by rw [encryptBody, hv]; rfl⟩

/-- The search answers a point of the list, or EncodingNotFound. -/
theorem searchFrom_cases (l : List (Int × Int)) (m h p : Int) (count : Nat) (j : Int) :
    (∃ q ∈ l, searchFrom l m h p count j = .ok (.aff q.1 q.2)) ∨
      searchFrom l m h p count j = .error .encodingNotFound := by
  induction count generalizing j with
  | zero => exact Or.inr rfl
  | succ more ih =>
    simp only [searchFrom]
    cases hf : l.find? fun q => decide (q.1 = reduce (m * h + j) p) with
    | none => exact ih (j + 1)
    | some q => exact Or.inl ⟨q, List.mem_of_find?_eq_some hf, rfl⟩

/-- ENCODE stops on a check with nothing written, or writes `M` and `h` and then a point of the list or nothing more. -/
theorem encodeBody_cases (s : State) :
    (∃ e, encodeBody s = ⟨s, some e⟩ ∧ encodeChecks s = .error e ∧
        e ∈ [ErrCode.badModulus, .notEnumerated, .degenerateCurve]) ∨
      (2 ≤ sext32 s.p ∧ s.status.ptvalid = true ∧ 0 < s.pcount ∧
        ∃ s1, s1 = setCodec (enc32 (chooseM (sext32 s.msg))) (enc32 (slotWidth (sext32 s.p) (sext32 s.msg))) s ∧
          (encodeBody s = ⟨s1, some .encodingNotFound⟩ ∨
            ∃ q ∈ curveList s, encodeBody s = ⟨pointOut .qm (.aff q.1 q.2) s1, none⟩)) := by
  rcases checkModulus_cases s with ⟨h, -⟩ | ⟨h, -⟩
  · have hc := encodeChecks_legal h
    by_cases h1 : s.status.ptvalid = false
    · rw [if_pos h1] at hc
      exact Or.inl ⟨_, by rw [encodeBody, hc], hc, by simp⟩
    · rw [if_neg h1] at hc
      by_cases h2 : s.pcount = 0
      · rw [if_pos h2] at hc
        exact Or.inl ⟨_, by rw [encodeBody, hc], hc, by simp⟩
      · rw [if_neg h2] at hc
        refine Or.inr ⟨h, by simpa using h1, by omega, _, rfl, ?_⟩
        simp only [encodeBody, hc]
        rcases searchFrom_cases (curveList s) (sext32 s.msg) (slotWidth (sext32 s.p) (sext32 s.msg)) (sext32 s.p)
          (slotWidth (sext32 s.p) (sext32 s.msg)).toNat 0 with ⟨q, hq, he⟩ | he
        · exact Or.inr ⟨q, hq, by rw [encodePoint, he]; rfl⟩
        · exact Or.inl (by rw [encodePoint, he]; rfl)
  · have hc := (values_small h).2.2.2.2.2.2.2.2
    exact Or.inl ⟨_, by rw [encodeBody, hc], hc, by simp⟩

/-! The codec's numbers. -/

theorem doubleUntil_bounds (fuel : Nat) {c m : Int} (hc : 1 ≤ c) (hm : c ≤ 2 * m ∨ c = 1) :
    1 ≤ doubleUntil fuel c m ∧ (doubleUntil fuel c m ≤ 2 * m ∨ doubleUntil fuel c m = 1) := by
  induction fuel generalizing c with
  | zero => exact ⟨hc, hm⟩
  | succ more ih =>
    simp only [doubleUntil]
    split
    · exact ih (by omega) (by omega)
    · exact ⟨hc, hm⟩

/-- A bound of `m` passes is enough: the loop ends because `c` has reached `m`. -/
theorem doubleUntil_reaches (fuel : Nat) {c m : Int} (hc : 1 ≤ c) (hf : m ≤ c + fuel) : m ≤ doubleUntil fuel c m := by
  induction fuel generalizing c with
  | zero =>
    simp only [doubleUntil]
    simpa using hf
  | succ more ih =>
    simp only [doubleUntil]
    split
    · exact ih (by omega) (by push_cast at hf; omega)
    · omega

/-- The loop ends on a power of two. -/
theorem doubleUntil_pow (fuel k : Nat) (m : Int) : ∃ j : Nat, doubleUntil fuel (2 ^ k) m = 2 ^ j := by
  induction fuel generalizing k with
  | zero => exact ⟨k, rfl⟩
  | succ more ih =>
    simp only [doubleUntil]
    split
    · rw [show (2 : Int) * 2 ^ k = 2 ^ (k + 1) by ring]
      exact ih (k + 1)
    · exact ⟨k, rfl⟩

/-- `1 ≤ M ≤ 2^31` for a message a register holds (43_codec.md R210). -/
theorem chooseM_range (w : Word) : 1 ≤ chooseM (sext32 w) ∧ chooseM (sext32 w) ≤ 2 ^ 31 := by
  have hb := doubleUntil_bounds (sext32 w).toNat (c := 1) (m := sext32 w) (le_refl _) (Or.inr rfl)
  have hw := sext32_le w
  obtain ⟨j, hj⟩ := doubleUntil_pow (sext32 w).toNat 0 (sext32 w)
  rw [pow_zero] at hj
  refine ⟨hb.1, ?_⟩
  rcases hb.2 with h | h
  · have hlt : (2 : Int) ^ j < 2 ^ 32 := by rw [← hj]; omega
    have : j < 32 := (pow_lt_pow_iff_right₀ (by norm_num : (1 : Int) < 2)).mp hlt
    show doubleUntil _ _ _ ≤ _
    rw [hj]
    exact pow_le_pow_right₀ (by norm_num) (by omega)
  · show doubleUntil _ _ _ ≤ _
    omega

/-- `0 ≤ h ≤ p` for a message a register holds (43_codec.md R211). -/
theorem slotWidth_range {p : Int} (hp : 0 ≤ p) (w : Word) : 0 ≤ slotWidth p (sext32 w) ∧ slotWidth p (sext32 w) ≤ p := by
  have h := (chooseM_range w).1
  exact ⟨Int.ediv_nonneg hp (by omega), Int.ediv_le_self _ hp⟩

/-! Steps of the agents. -/

/-- The register an offset addresses is the one with that offset. -/
theorem regAt_regOffset (name : RegName) : regAt (regOffset name) = some name := by
  cases name <;> first
    | decide
    | (rename_i t; cases t <;> decide)

/-- Every register lies in the window, at an aligned offset. -/
theorem target_regOffset (name : RegName) : target (regOffset name) 4 = .reg name := by
  have h : regOffset name < 0x200 ∧ regOffset name % 4 = 0 := by
    cases name <;> first
      | decide
      | (rename_i t; cases t <;> decide)
  rw [target, if_neg (by omega), if_neg (by omega), regAt_regOffset]

/-- Everything a step can do, by the agent whose turn it is; `s0` is the state with the turn taken off the agenda. -/
inductive StepEffect (s0 t : State) : Prop
  /-- The core's turn with no command in progress. -/
  | idle (busy : s0.status.busy = false) (same : t = s0)
  /-- The completion of a command. -/
  | command (i : Instr) (busy : s0.status.busy = true) (word : decode s0.cmd = .ok i) (ran : exec i s0 = .next t)
  /-- The completion of an illegal word. -/
  | illegal (why : Illegal) (busy : s0.status.busy = true) (word : decode s0.cmd = .error why) (failed : t = failedWith 4 s0)
  /-- A reset. -/
  | reset (zeroed : t = resetStep s0)
  /-- A bus error. -/
  | busError (r : Response) (answered : t = answer r s0)
  /-- A read of a register. -/
  | read (name : RegName) (answered : t = readRegister name s0)
  /-- A write of a register. -/
  | write (name : RegName) (v : Word) (written : t = answer (.write none) (writeRegister name v s0))

theorem coreTurn_effect {s0 t : State} (h : coreTurn s0 = .next t) : StepEffect s0 t := by
  simp only [coreTurn] at h
  cases hb : s0.status.busy with
  | false =>
    simp only [hb, Bool.false_eq_true, if_false, Host.Outcome.next.injEq] at h
    exact .idle hb h.symm
  | true =>
    simp only [hb, if_true, completeStep] at h
    cases hd : decode s0.cmd with
    | ok i => exact .command i hb hd (by simpa only [hd] using h)
    | error why =>
      simp only [hd, execIllegal, finish, Host.Outcome.next.injEq] at h
      exact .illegal why hb hd h.symm

theorem hostTurn_effect {acc : Access} {s0 t : State} (h : hostTurn acc s0 = .next t) : StepEffect s0 t := by
  cases acc with
  | read off size =>
    simp only [hostTurn, busRead] at h
    cases ht : target off size with
    | reg name => exact .read name (by simpa [ht] using h.symm)
    | illegal => exact .busError _ (by simpa [ht] using h.symm)
    | outside => simp [ht] at h
  | write off size v =>
    simp only [hostTurn, busWrite] at h
    cases ht : target off size with
    | reg name => exact .write name v (by simpa [ht] using h.symm)
    | illegal => exact .busError _ (by simpa [ht] using h.symm)
    | outside => simp [ht] at h

/-- The inversion lemma of `step`. -/
theorem step_effect {s t : State} (h : step s = .next t) : StepEffect (withAgenda s.agenda.tail s) t := by
  cases ha : s.agenda with
  | nil =>
    have he : withAgenda ([] : List Turn) s = s := by rw [← ha]; rfl
    simp only [step, ha] at h
    rw [List.tail_nil, he]
    exact coreTurn_effect h
  | cons turn rest =>
    simp only [step, ha] at h
    rw [List.tail_cons]
    cases turn with
    | core => exact coreTurn_effect h
    | reset => exact .reset (by simpa [takeTurn] using h.symm)
    | host acc => exact hostTurn_effect h

end Sys2Proof.Machine
end

