-- ==== Sys2Proof/Laws/Frames.lean ====
section
/-! SUPPORT. Laws/Frames.lean: what commands do not look at. No command reads or writes the fields that are the model's own
(`exec_withOutside`), and none but ENCODE reads STATUS, of which it reads PTVALID only (the `_setStatus` lemmas). -/

namespace Sys2Proof.Machine

/-! STATUS. -/

theorem keygenBody_setStatus (f : Status) (s : State) :
    keygenBody (setStatus f s) = ⟨setStatus f (keygenBody s).state, (keygenBody s).error⟩ := by
  have h : keygenValue (setStatus f s) = keygenValue s := rfl
  rw [keygenBody, keygenBody, h]
  cases keygenValue s <;> rfl

theorem sharedBody_setStatus (f : Status) (s : State) :
    sharedBody (setStatus f s) = ⟨setStatus f (sharedBody s).state, (sharedBody s).error⟩ := by
  have h : sharedValue (setStatus f s) = sharedValue s := rfl
  rw [sharedBody, sharedBody, h]
  cases sharedValue s with
  | error e => rfl
  | ok v => rfl

theorem encryptBody_setStatus (f : Status) (s : State) :
    encryptBody (setStatus f s) = ⟨setStatus f (encryptBody s).state, (encryptBody s).error⟩ := by
  have h : encryptValue (setStatus f s) = encryptValue s := rfl
  rw [encryptBody, encryptBody, h]
  cases encryptValue s <;> rfl

theorem encodeChecks_setStatus {f : Status} {s : State} (h : f.ptvalid = s.status.ptvalid) :
    encodeChecks (setStatus f s) = encodeChecks s := by
  rcases checkModulus_cases s with ⟨h2, -⟩ | ⟨h2, -⟩
  · rw [encodeChecks_legal h2, encodeChecks_legal (s := setStatus f s) h2, setStatus_status, h]
    rfl
  · rw [(values_small h2).2.2.2.2.2.2.2.2, (values_small (s := setStatus f s) h2).2.2.2.2.2.2.2.2]

theorem encodeBody_setStatus {f : Status} {s : State} (h : f.ptvalid = s.status.ptvalid) :
    encodeBody (setStatus f s) = ⟨setStatus f (encodeBody s).state, (encodeBody s).error⟩ := by
  rw [encodeBody, encodeBody, encodeChecks_setStatus h]
  cases encodeChecks s with
  | error e => rfl
  | ok p =>
    have hl : curveList (setStatus f s) = curveList s := curveList_congr rfl rfl
    simp only [hl]
    change attempt (encodePoint (sext32 s.msg) _ _) _ _ = _
    cases encodePoint (sext32 s.msg) (curveList s) p <;> rfl

theorem keygenBody_status (s : State) : (keygenBody s).state.status = s.status := by
  rw [keygenBody]
  cases keygenValue s <;> rfl

theorem sharedBody_status (s : State) : (sharedBody s).state.status = s.status := by
  rw [sharedBody]
  cases sharedValue s with
  | error e => rfl
  | ok v => rfl

theorem encodeBody_status (s : State) : (encodeBody s).state.status = s.status := by
  rw [encodeBody]
  cases encodeChecks s with
  | error e => rfl
  | ok p =>
    simp only
    cases encodePoint (sext32 s.msg) (curveList s) p <;> rfl

theorem encryptBody_status (s : State) : (encryptBody s).state.status = s.status := by
  rw [encryptBody]
  cases encryptValue s <;> rfl

/-- Completion overwrites every field of STATUS but PTVALID and BUSYWR. -/
theorem complete_setStatus (e : Option ErrCode) (n : BitVec 4) {f : Status} {s : State} (h : f.ptvalid = s.status.ptvalid)
    (h' : f.busywr = s.status.busywr) : complete e n (setStatus f s) = complete e n s := by
  have hf : statusCompleted e n f = statusCompleted e n s.status := by simp [statusCompleted, h, h']
  rw [complete, complete, setStatus_status, hf]
  rfl

/-! The model's own fields. -/

/-- The state with the model's own fields as given. -/
def withOutside (turns : List Turn) (rs : List Response) (d : Nat) (s : State) : State :=
  { s with agenda := turns, responses := rs, draws := d }

section

variable (turns : List Turn) (rs : List Response) (d : Nat)

theorem pointOut_withOutside (t : PointReg) (v : Point) (s : State) :
    pointOut t v (withOutside turns rs d s) = withOutside turns rs d (pointOut t v s) := by cases t <;> rfl

theorem attempt_withOutside {α : Type} (result : Except ErrCode α) {commit : α → State → State} (s : State)
    (h : ∀ v s, commit v (withOutside turns rs d s) = withOutside turns rs d (commit v s)) :
    attempt result commit (withOutside turns rs d s) =
      ⟨withOutside turns rs d (attempt result commit s).state, (attempt result commit s).error⟩ := by
  cases result with
  | error e => rfl
  | ok v => simp [attempt, h]

/-- A body that neither reads nor writes the model's own fields. -/
def ignoresOutside (body : State → Ran) : Prop :=
  ∀ s, body (withOutside turns rs d s) = ⟨withOutside turns rs d (body s).state, (body s).error⟩

theorem enumBody_withOutside : ignoresOutside turns rs d enumBody := by
  intro s
  have h : checkModulus (withOutside turns rs d s) = checkModulus s := rfl
  rw [enumBody, enumBody, h]
  cases checkModulus s with
  | error e => rfl
  | ok p =>
    simp only [enumWith]
    change (if npt s < (allPoints p (sext32 s.a) (sext32 s.b)).length then _ else _) = _
    by_cases hl : npt s < (allPoints p (sext32 s.a) (sext32 s.b)).length
    · rw [if_pos hl, if_pos hl]; rfl
    · rw [if_neg hl, if_neg hl]; rfl

theorem keygenBody_withOutside : ignoresOutside turns rs d keygenBody := fun s =>
  attempt_withOutside turns rs d (keygenValue s) s fun v s => by simp [pointOut_withOutside]

theorem sharedBody_withOutside : ignoresOutside turns rs d sharedBody := by
  intro s
  have h : sharedValue (withOutside turns rs d s) = sharedValue s := rfl
  rw [sharedBody, sharedBody, h]
  cases sharedValue s with
  | error e => rfl
  | ok v => rfl

theorem encodeBody_withOutside : ignoresOutside turns rs d encodeBody := by
  intro s
  have h : encodeChecks (withOutside turns rs d s) = encodeChecks s := rfl
  rw [encodeBody, encodeBody, h]
  cases encodeChecks s with
  | error e => rfl
  | ok p =>
    exact attempt_withOutside turns rs d (encodePoint (sext32 s.msg) (curveList s) p)
      (setCodec (enc32 (chooseM (sext32 s.msg))) (enc32 (slotWidth p (sext32 s.msg))) s) fun _ _ =>
        pointOut_withOutside turns rs d _ _ _

theorem encryptBody_withOutside : ignoresOutside turns rs d encryptBody := fun s =>
  attempt_withOutside turns rs d (encryptValue s) s fun _ _ => rfl

theorem runSteps_withOutside (l : List (BitVec 4 × (State → Ran))) (hl : ∀ x ∈ l, ignoresOutside turns rs d x.2) (s : State) :
    runSteps l (withOutside turns rs d s) = withOutside turns rs d (runSteps l s) := by
  induction l generalizing s with
  | nil => rfl
  | cons x l ih =>
    obtain ⟨n, body⟩ := x
    have h := hl (n, body) (by simp) s
    simp only at h
    simp only [runSteps, h]
    cases (body s).error with
    | none => exact ih (fun y hy => hl y (by simp [hy])) _
    | some e => rfl

theorem finish_withOutside {body : State → Ran} (hb : ignoresOutside turns rs d body) {s t : State}
    (h : finish (body s) = .next t) : finish (body (withOutside turns rs d s)) = .next (withOutside turns rs d t) := by
  rw [hb]
  simp only [finish, Host.Outcome.next.injEq] at h ⊢
  rw [← h]
  rfl

/-- A command neither reads nor writes the model's own fields (00_scope.md R11). -/
theorem exec_withOutside {i : Instr} {s t : State} (h : exec i s = .next t) :
    exec i (withOutside turns rs d s) = .next (withOutside turns rs d t) := by
  have value {α : Type} (value : State → Except ErrCode α) (commit : α → State → State)
      (hv : ∀ s, value (withOutside turns rs d s) = value s)
      (hc : ∀ v s, commit v (withOutside turns rs d s) = withOutside turns rs d (commit v s)) :
      ignoresOutside turns rs d fun s => attempt (value s) commit s := fun s => by
    simp only [hv]
    exact attempt_withOutside turns rs d (value s) s hc
  cases i with
  | nop => exact finish_withOutside turns rs d (body := fun s => ⟨s, none⟩) (fun _ => rfl) h
  | reduce => exact finish_withOutside turns rs d (value reduceValue (fun r => setRn (enc32 r)) (fun _ => rfl) fun _ _ => rfl) h
  | inv => exact finish_withOutside turns rs d (value invValue (fun r => setRn (enc32 r)) (fun _ => rfl) fun _ _ => rfl) h
  | pdbl => exact finish_withOutside turns rs d (value pdblValue (pointOut .r) (fun _ => rfl) fun _ _ => rfl) h
  | padd => exact finish_withOutside turns rs d (value paddValue (pointOut .r) (fun _ => rfl) fun _ _ => rfl) h
  | pmul => exact finish_withOutside turns rs d (value pmulValue (pointOut .r) (fun _ => rfl) fun _ _ => rfl) h
  | enum => exact finish_withOutside turns rs d (enumBody_withOutside turns rs d) h
  | encode => exact finish_withOutside turns rs d (encodeBody_withOutside turns rs d) h
  | keygen => exact finish_withOutside turns rs d (keygenBody_withOutside turns rs d) h
  | shared => exact finish_withOutside turns rs d (sharedBody_withOutside turns rs d) h
  | encrypt => exact finish_withOutside turns rs d (encryptBody_withOutside turns rs d) h
  | ecdh =>
    simp only [exec, execEcdh, Host.Outcome.next.injEq] at h ⊢
    rw [← h]
    refine runSteps_withOutside turns rs d _ (fun x hx => ?_) _
    simp only [ecdhSteps, List.mem_cons, List.not_mem_nil, or_false] at hx
    rcases hx with rfl | rfl | rfl | rfl | rfl
    · exact enumBody_withOutside turns rs d
    · exact keygenBody_withOutside turns rs d
    · exact sharedBody_withOutside turns rs d
    · exact encodeBody_withOutside turns rs d
    · exact encryptBody_withOutside turns rs d

end

end Sys2Proof.Machine
end

