-- ==== Sys2Proof/Laws/Group.lean ====
section
/-! SUPPORT. Laws/Group.lean: over a prime modulus above 3 and a non-singular curve the machine's points are the points of
Mathlib's elliptic curve, `ecAdd` is its addition and `scalarMul` its multiples (41_curve_group.md R159,
93_implementation_defined.md K4). So the two shared secrets agree (44_orchestrator.md R231, R235, K5). -/

namespace Sys2Proof.Machine

open WeierstrassCurve.Affine

/-- The curve `y² = x³ + ax + b` over the integers modulo `q` (00_scope.md R2). -/
def shortCurve (q : ℕ) (a b : Int) : WeierstrassCurve (ZMod q) where
  a₁ := 0
  a₂ := 0
  a₃ := 0
  a₄ := (a : ZMod q)
  a₆ := (b : ZMod q)

theorem cast_eq_of_dvd {q : ℕ} {m n : Int} (h : (q : Int) ∣ m - n) : (m : ZMod q) = (n : ZMod q) := by
  have := (ZMod.intCast_zmod_eq_zero_iff_dvd (m - n) q).mpr h
  rw [Int.cast_sub] at this
  exact sub_eq_zero.mp this

/-- Canonical integers with the same residue are equal. -/
theorem eq_of_cast_eq {q : ℕ} {m n : Int} (h : (m : ZMod q) = (n : ZMod q)) (hm : 0 ≤ m) (hm' : m < q) (hn : 0 ≤ n)
    (hn' : n < q) : m = n := by
  have := (ZMod.intCast_eq_intCast_iff' m n q).mp h
  rwa [Int.emod_eq_of_lt hm hm', Int.emod_eq_of_lt hn hn'] at this

section

variable {q : ℕ} [Fact q.Prime] {a b : Int}

/-- A point of the machine stands for a point of the curve. -/
def represents (v : Point) (g : (shortCurve q a b).toAffine.Point) : Prop :=
  match v with
  | .inf => g = 0
  | .aff x y => ∃ h, g = .some (x : ZMod q) (y : ZMod q) h

/-- Canonical points that stand for the same point of the curve are equal. -/
theorem represents_unique {v w : Point} {g : (shortCurve q a b).toAffine.Point} (hv : represents v g)
    (hw : represents w g) (rv : inRange v q = true) (rw' : inRange w q = true) : v = w := by
  cases v with
  | inf =>
    cases w with
    | inf => rfl
    | aff x y =>
      obtain ⟨h, rfl⟩ := hw
      exact absurd hv (Point.some_ne_zero h)
  | aff x y =>
    obtain ⟨h, rfl⟩ := hv
    cases w with
    | inf => exact absurd hw (Point.some_ne_zero h)
    | aff x' y' =>
      obtain ⟨h', he⟩ := hw
      obtain ⟨hx, hy⟩ := Point.some.inj he
      obtain ⟨a1, a2, a3, a4⟩ := inRange_aff.mp rv
      obtain ⟨b1, b2, b3, b4⟩ := inRange_aff.mp rw'
      rw [eq_of_cast_eq hx a1 a2 b1 b2, eq_of_cast_eq hy a3 a4 b3 b4]

/-- The formulas of R152 for a slope are Mathlib's. -/
theorem chordPoint_represents {lam x1 y1 x2 x3 y3 : Int} (h : isChordPoint lam x1 y1 x2 x3 y3 q) :
    (x3 : ZMod q) = (shortCurve q a b).toAffine.addX x1 x2 lam ∧
      (y3 : ZMod q) = (shortCurve q a b).toAffine.addY x1 x2 y1 lam := by
  obtain ⟨⟨-, -, hx⟩, -, -, hy⟩ := h
  have hx' := cast_eq_of_dvd hx
  have hy' := cast_eq_of_dvd hy
  push_cast at hx' hy'
  refine ⟨?_, ?_⟩
  · rw [← hx']
    simp only [addX, shortCurve]
    ring
  · rw [← hy', ← hx']
    simp only [addY, negAddY, negY, addX, shortCurve]
    ring

/-- The machine's addition is the curve's. -/
theorem ecAdd_represents (h2 : 2 < q) {v w u : Point} {g h : (shortCurve q a b).toAffine.Point} (hv : represents v g)
    (hw : represents w h) (rv : inRange v q = true) (rw' : inRange w q = true) (hu : ecAdd v w a q = .ok u) :
    represents u (g + h) := by
  cases v with
  | inf =>
    rw [ecAdd_inf_left] at hu
    obtain rfl := Except.ok.inj hu
    rw [show g = 0 from hv, zero_add]
    exact hw
  | aff x1 y1 =>
    cases w with
    | inf =>
      rw [ecAdd_inf_right] at hu
      obtain rfl := Except.ok.inj hu
      rw [show h = 0 from hw, add_zero]
      exact hv
    | aff x2 y2 =>
      obtain ⟨n1, rfl⟩ := hv
      obtain ⟨n2, rfl⟩ := hw
      obtain ⟨a1, a2, a3, a4⟩ := inRange_aff.mp rv
      obtain ⟨b1, b2, b3, b4⟩ := inRange_aff.mp rw'
      have hneg : ∀ x y : ZMod q, (shortCurve q a b).toAffine.negY x y = -y := fun x y => by
        simp [negY, shortCurve]
      by_cases hx : x1 = x2
      · subst hx
        by_cases hc : y1 ≠ y2 ∨ y1 = 0
        · rw [ecAdd_cancel hc] at hu
          obtain rfl := Except.ok.inj hu
          have hy : (y1 : ZMod q) = (shortCurve q a b).toAffine.negY x1 y2 := by
            rcases Y_eq_of_X_eq n1.1 n2.1 rfl with he | he
            · rcases hc with hc | hc
              · exact absurd (eq_of_cast_eq he a3 a4 b3 b4) hc
              · rw [hneg, ← he, hc]
                simp
            · exact he
          exact Point.add_of_Y_eq rfl hy
        · push Not at hc
          obtain ⟨rfl, hy0⟩ := hc
          have hcast : (2 : ZMod q) * (y1 : ZMod q) ≠ 0 := by
            intro h0
            rcases mul_eq_zero.mp h0 with h0 | h0
            · have h2' : ((2 : Int) : ZMod q) = ((0 : Int) : ZMod q) := by push_cast; exact h0
              have := eq_of_cast_eq h2' (by norm_num) (by exact_mod_cast h2) (le_refl _) (by omega)
              omega
            · have h1' : (y1 : ZMod q) = ((0 : Int) : ZMod q) := by push_cast; exact h0
              exact hy0 (eq_of_cast_eq h1' a3 a4 (le_refl _) (by omega))
          have hne : (y1 : ZMod q) ≠ (shortCurve q a b).toAffine.negY x1 y1 := by
            rw [hneg]
            intro he
            exact hcast (by linear_combination he)
          have hg : Int.gcd (2 * y1) q = 1 := by
            by_contra hg
            rw [(ecAdd_double (by omega) hy0).2 hg] at hu
            simp at hu
          obtain ⟨x3, y3, he, lam, hl, hs⟩ := (ecAdd_double (a := a) (x := x1) (by omega) hy0).1 hg
          obtain rfl := Except.ok.inj (he.symm.trans hu)
          have hl' := cast_eq_of_dvd hl
          push_cast at hl'
          have hslope : (shortCurve q a b).toAffine.slope x1 x1 y1 y1 = (lam : ZMod q) := by
            rw [slope_of_Y_ne rfl hne, hneg, div_eq_iff (by intro h0; exact hcast (by linear_combination h0))]
            simp only [shortCurve]
            linear_combination -hl'
          obtain ⟨ex, ey⟩ := chordPoint_represents (a := a) (b := b) hs
          rw [Point.add_self_of_Y_ne hne]
          refine ⟨?_, ?_⟩
          · rw [ex, ey, ← hslope]
            exact nonsingular_add n1 n1 fun hh => hne hh.2
          · congr 1
            · rw [ex, hslope]
            · rw [ey, hslope]
      · have hg : Int.gcd (x2 - x1) q = 1 := by
          by_contra hg
          rw [(ecAdd_general (by omega) hx).2 hg] at hu
          simp at hu
        have hne : (x1 : ZMod q) ≠ (x2 : ZMod q) := fun he => hx (eq_of_cast_eq he a1 a2 b1 b2)
        obtain ⟨x3, y3, he, lam, hl, hs⟩ := (ecAdd_general (a := a) (y1 := y1) (y2 := y2) (by omega) hx).1 hg
        obtain rfl := Except.ok.inj (he.symm.trans hu)
        have hl' := cast_eq_of_dvd hl
        push_cast at hl'
        have hslope : (shortCurve q a b).toAffine.slope x1 x2 y1 y2 = (lam : ZMod q) := by
          rw [slope_of_X_ne hne, div_eq_iff (sub_ne_zero.mpr hne)]
          linear_combination hl'
        obtain ⟨ex, ey⟩ := chordPoint_represents (a := a) (b := b) hs
        rw [Point.add_of_X_ne hne]
        refine ⟨?_, ?_⟩
        · rw [ex, ey, ← hslope]
          exact nonsingular_add n1 n2 fun hh => hne hh.1
        · congr 1
          · rw [ex, hslope]
          · rw [ey, hslope]

/-- The double-and-add loop computes the multiple. -/
theorem mulLoop_represents (h2 : 2 < q) (fuel : Nat) {n : Nat} (hn : n ≤ fuel) {r t u : Point}
    {g h : (shortCurve q a b).toAffine.Point} (hr : represents r g) (ht : represents t h) (rr : inRange r q = true)
    (rt : inRange t q = true) (hu : mulLoop fuel r t n a q = .ok u) : represents u (g + n • h) := by
  have hp : (2 : Int) ≤ q := by omega
  induction fuel generalizing n r t g h with
  | zero =>
    obtain rfl : n = 0 := by omega
    obtain rfl := Except.ok.inj hu
    simpa using hr
  | succ more ih =>
    rcases Nat.eq_zero_or_pos n with rfl | hpos
    · rw [mulLoop_zero] at hu
      obtain rfl := Except.ok.inj hu
      simpa using hr
    · rw [mulLoop_pass hpos] at hu
      obtain ⟨r', h1, hu⟩ := bind_ok_iff.mp hu
      obtain ⟨t', ht', hu⟩ := bind_ok_iff.mp hu
      have ct : represents t' (h + h) := ecAdd_represents h2 ht ht rt rt ht'
      have rt' : inRange t' q = true := by
        rcases ecAdd_cases (a := a) hp rt rt with ⟨z, hz, hz'⟩ | hz
        · rw [hz] at ht'
          obtain rfl := Except.ok.inj ht'
          exact hz'
        · rw [hz] at ht'
          simp at ht'
      rw [addWhenOdd] at h1
      split at h1
      · rename_i hodd
        have cr : represents r' (g + h) := ecAdd_represents h2 hr ht rr rt h1
        have rr' : inRange r' q = true := by
          rcases ecAdd_cases (a := a) hp rr rt with ⟨z, hz, hz'⟩ | hz
          · rw [hz] at h1
            obtain rfl := Except.ok.inj h1
            exact hz'
          · rw [hz] at h1
            simp at h1
        have := ih (by omega) cr ct rr' rt' hu
        have e : g + n • h = g + h + (n / 2) • (h + h) := by
          conv_lhs => rw [show n = 1 + 2 * (n / 2) by omega]
          rw [add_nsmul, one_nsmul, mul_nsmul, two_nsmul, add_assoc]
        rw [e]
        exact this
      · rename_i heven
        obtain rfl := Except.ok.inj h1
        have := ih (by omega) hr ct rr rt' hu
        have e : g + n • h = g + (n / 2) • (h + h) := by
          conv_lhs => rw [show n = 2 * (n / 2) by omega]
          rw [mul_nsmul, two_nsmul]
        rw [e]
        exact this

/-- `scalarMul` computes the multiple of the curve's group. -/
theorem scalarMul_represents (h2 : 2 < q) {v u : Point} {k : Int} {g : (shortCurve q a b).toAffine.Point}
    (hv : represents v g) (rv : inRange v q = true) (hu : scalarMul v k a q = .ok u) : represents u (k.toNat • g) := by
  have := mulLoop_represents (r := .inf) (g := 0) h2 k.toNat (le_refl _) rfl hv rfl rv hu
  rwa [zero_add] at this

/-- A solution of a non-singular curve's equation is a point of the curve. -/
theorem represents_of_solution {x y : Int} (hd : ¬(q : Int) ∣ 4 * a * a * a + 27 * b * b) (h2 : 2 < q)
    (h : (q : Int) ∣ y * y - (x * x * x + a * x + b)) :
    ∃ g : (shortCurve q a b).toAffine.Point, represents (.aff x y) g := by
  have hdisc : (shortCurve q a b).Δ ≠ 0 := by
    have h0 : ((4 * a * a * a + 27 * b * b : Int) : ZMod q) ≠ 0 := fun h0 =>
      hd ((ZMod.intCast_zmod_eq_zero_iff_dvd _ _).mp h0)
    have h16 : ((16 : Int) : ZMod q) ≠ 0 := by
      intro h0
      have hq := (ZMod.intCast_zmod_eq_zero_iff_dvd 16 q).mp h0
      have hq' : q ∣ 2 ^ 4 := by exact_mod_cast hq
      have := (Nat.prime_dvd_prime_iff_eq Fact.out Nat.prime_two).mp ((Fact.out : q.Prime).dvd_of_dvd_pow hq')
      omega
    have e : (shortCurve q a b).Δ = -((16 : Int) : ZMod q) * ((4 * a * a * a + 27 * b * b : Int) : ZMod q) := by
      simp only [WeierstrassCurve.Δ, WeierstrassCurve.b₂, WeierstrassCurve.b₄, WeierstrassCurve.b₆, WeierstrassCurve.b₈,
        shortCurve]
      push_cast
      ring
    rw [e]
    exact mul_ne_zero (neg_ne_zero.mpr h16) h0
  have heq : (shortCurve q a b).toAffine.Equation (x : ZMod q) (y : ZMod q) := by
    rw [equation_iff]
    have := cast_eq_of_dvd h
    push_cast at this
    simp only [shortCurve]
    linear_combination this
  exact ⟨_, (equation_iff_nonsingular_of_Δ_ne_zero hdisc).mp heq, rfl⟩

end

/-- The property SHARED checks (R235): on a non-singular curve over a prime above 3 the two orders of multiplication give the
same point. -/
theorem scalarMul_comm {p a b x y dA dB : Int} {v w u u' : Point} (hp : Prime p) (h3 : 3 < p)
    (hd : ¬p ∣ 4 * a * a * a + 27 * b * b) (hx : 0 ≤ x) (hx' : x < p) (hy : 0 ≤ y) (hy' : y < p)
    (hc : p ∣ y * y - (x * x * x + a * x + b)) (hv : scalarMul (.aff x y) dA a p = .ok v)
    (hw : scalarMul (.aff x y) dB a p = .ok w) (hu : scalarMul w dA a p = .ok u) (hu' : scalarMul v dB a p = .ok u') :
    u = u' := by
  obtain ⟨q, rfl⟩ : ∃ q : ℕ, p = q := ⟨p.toNat, by omega⟩
  have : Fact q.Prime := ⟨Nat.prime_iff_prime_int.mpr hp⟩
  have h2 : 2 < q := by omega
  have rg : inRange (.aff x y) q = true := inRange_aff.mpr ⟨hx, hx', hy, hy'⟩
  obtain ⟨g, hg⟩ := represents_of_solution (b := b) hd h2 hc
  have range : ∀ {z z' : Point} {k : Int}, inRange z q = true → scalarMul z k a q = .ok z' → inRange z' q = true := by
    intro z z' k hz h
    rcases scalarMul_cases (by omega) hz k a with ⟨c, hc, hr⟩ | he
    · rw [hc] at h
      obtain rfl := Except.ok.inj h
      exact hr
    · rw [he] at h
      simp at h
  have rv := range rg hv
  have rw' := range rg hw
  have e1 := scalarMul_represents h2 (scalarMul_represents h2 hg rg hw) rw' hu
  have e2 := scalarMul_represents h2 (scalarMul_represents h2 hg rg hv) rv hu'
  rw [smul_comm] at e2
  exact represents_unique e1 e2 (range rw' hu) (range rv hu')

end Sys2Proof.Machine
end

