-- ==== Sys2Proof/Laws/PerInstr.lean ====
section
/-! SUPPORT. Laws/PerInstr.lean: the family of statements made once per command. `EncodesLegally`: the word of a command is a
legal word of the format, and its value is the opcode (30_encoding.md R90, R91, R92). -/

namespace Sys2Proof.Laws.EncodesLegally

/-- The word of `i` passes both checks of R91 and equals its opcode. -/
def Statement (i : Instr) : Prop :=
  (splitWord (encode i)).wellFormed = true ∧ (encode i).toNat = (opcodeOf i).toNat ∧ i.wellFormed = true

theorem nop : Statement .nop := by unfold Statement; decide
theorem reduce : Statement .reduce := by unfold Statement; decide
theorem inv : Statement .inv := by unfold Statement; decide
theorem pdbl : Statement .pdbl := by unfold Statement; decide
theorem padd : Statement .padd := by unfold Statement; decide
theorem pmul : Statement .pmul := by unfold Statement; decide
theorem enum : Statement .enum := by unfold Statement; decide
theorem encode : Statement .encode := by unfold Statement; decide
theorem keygen : Statement .keygen := by unfold Statement; decide
theorem shared : Statement .shared := by unfold Statement; decide
theorem encrypt : Statement .encrypt := by unfold Statement; decide
theorem ecdh : Statement .ecdh := by unfold Statement; decide

end Sys2Proof.Laws.EncodesLegally
end

