-- ==== Sys2Proof/Tests/Slice0.lean ====
section
/-! SUPPORT. Tests/Slice0.lean: the smoke tests of well-formedness, every opcode written out bit by bit, one or two steps per
command and per bus rule on a small state, and for every statement with hypotheses a state that meets them. Expected
results come from spec/95_test_vectors.md (the row is named) or from the rule named. -/

namespace Sys2Proof.Tests

open Sys2Proof Sys2Proof.Machine

/-! Helpers. -/

/-- What is observed of the next state an outcome answers; nothing of a fault or a refusal. -/
def observe {α : Type} (f : State → α) (o : Host.Outcome State Fault Refusal) : Option α :=
  match o with
  | .next t => some (f t)
  | .fault _ => none
  | .refused _ => none

/-- The state after reset with a curve in P, A and B. -/
def curve (p a b : Int) : State := { State.reset with p := enc32 p, a := enc32 a, b := enc32 b }

/-- A triple that holds an affine point. -/
def at' (x y : Int) : Triple := ⟨enc32 x, enc32 y, false⟩

/-- The triple of infinity. -/
def infinity : Triple := ⟨0, 0, true⟩

/-- R as (RX, RY, RINF), and the STATUS word. -/
def pointReport (t : State) : Triple × Word := (t.r, statusWord t.status)

/-- RN and the STATUS word. -/
def intReport (t : State) : Word × Word := (t.rn, statusWord t.status)

/-- The curve of V-EN3 with its list enumerated: 8 points, PTVALID set. -/
def listed : State :=
  { curve 5 1 1 with
    ptmem := [(0, (0, 1)), (1, (0, 4)), (2, (2, 1)), (3, (2, 4)), (4, (3, 1)), (5, (3, 4)), (6, (4, 2)), (7, (4, 3))]
    pcount := 8
    status := { Status.zero with done := true, ptvalid := true } }

/-- The scenario W1: p = 17, a = 2, b = 2, G = (5,1), dA = 3, dB = 5. -/
def scenario : State := { curve 17 2 2 with gx := 5, gy := 1, da := 3, db := 5 }

/-- A state whose next turns are the given ones. -/
def facing (turns : List Turn) (s : State) : State := { s with agenda := turns }

/-- A state with the command word `w` in progress. -/
def running (w : Word) (s : State) : State := { s with cmd := w, status := { s.status with busy := true } }

/-! Well-formedness: each check refuses an ill-formed word (30_encoding.md R91, R96). -/

theorem test_wellFormed_rejects_rsv : (CommandWord.mk 1 0).wellFormed = false := by decide
theorem test_wellFormed_rejects_opc : (CommandWord.mk 0 0x0C).wellFormed = false := by decide
theorem test_wellFormed_accepts_ecdh : (CommandWord.mk 0 0x0B).wellFormed = true := by decide
theorem test_lineWellFormed_bounds :
    lineWellFormed (.wr .n (2 ^ 32)) = false ∧ lineWellFormed (.wr .n (-2 ^ 31 - 1)) = false ∧
      lineWellFormed (.wr .n (2 ^ 32 - 1)) = true ∧ lineWellFormed (.wr .n (-2 ^ 31)) = true := by decide

/-! Decoding, the words of 30_encoding.md R92 written bit by bit: RSV in [31:8], OPC in [7:0]. -/

theorem test_decode_nop : decode 0b00000000000000000000000000000000 = .ok .nop := by decide
theorem test_decode_reduce : decode 0b00000000000000000000000000000001 = .ok .reduce := by decide
theorem test_decode_inv : decode 0b00000000000000000000000000000010 = .ok .inv := by decide
theorem test_decode_pdbl : decode 0b00000000000000000000000000000011 = .ok .pdbl := by decide
theorem test_decode_padd : decode 0b00000000000000000000000000000100 = .ok .padd := by decide
theorem test_decode_pmul : decode 0b00000000000000000000000000000101 = .ok .pmul := by decide
theorem test_decode_enum : decode 0b00000000000000000000000000000110 = .ok .enum := by decide
theorem test_decode_encode : decode 0b00000000000000000000000000000111 = .ok .encode := by decide
theorem test_decode_keygen : decode 0b00000000000000000000000000001000 = .ok .keygen := by decide
theorem test_decode_shared : decode 0b00000000000000000000000000001001 = .ok .shared := by decide
theorem test_decode_encrypt : decode 0b00000000000000000000000000001010 = .ok .encrypt := by decide
theorem test_decode_ecdh : decode 0b00000000000000000000000000001011 = .ok .ecdh := by decide
theorem test_decode_rejects :
    decode 0x0000000C = .error .reservedOpcode ∧ decode 0x000000FF = .error .reservedOpcode ∧
      decode 0x00000101 = .error .reservedBits ∧ decode 0x80000000 = .error .reservedBits ∧
      decodeBytes [0x01, 0, 0] = .error .notOneWord := by decide
/-- A table word of 32 bits, and the same opcode given as 8 bits with the rest zero. -/
theorem test_decodeTableWord :
    decodeTableWord 32 0x0000000A = some .encrypt ∧ decodeTableWord 8 0x0A = some .encrypt ∧
      decodeTableWord 32 0x0100000A = none := by decide
/-- The word is placed so that the very next step runs it: NOP after reset, V-CT1. -/
theorem test_withFetchWord :
    observe (fun t => (t.cmd, statusWord t.status, t.agenda)) (step (State.reset.withFetchWord 32 0)) =
      some (0, 0x00000002, []) := by decide

/-! Reset (10_state.md R42). -/

theorem test_reset_registers :
    regRead .id State.reset = 0x45434301 ∧ regRead .cap State.reset = 4096 ∧ regRead .p State.reset = 0 ∧
      regRead .status State.reset = 0 ∧ regRead .px State.reset = 0 := by decide
theorem test_reset_memory_wf : State.reset.ptmem.wf = true := by decide

/-! One step per command. -/

/-- V-CT1. -/
theorem test_nop : observe (fun t => statusWord t.status) (exec .nop State.reset) = some 0x00000002 := by decide
/-- V-RD row 2. -/
theorem test_reduce_lowest : observe intReport (exec .reduce { curve 17 0 0 with n := 0x80000000 }) = some (8, 0x00000002) := by
  decide
/-- V-RD row 10, with RN as before. -/
theorem test_reduce_badModulus :
    observe intReport (exec .reduce { curve 1 0 0 with n := 5, rn := 9 }) = some (9, 0x00000506) := by decide
/-- V-IN row 9, the largest modulus. -/
theorem test_inv_largest :
    observe intReport (exec .inv { curve 2147483647 0 0 with n := 2 }) = some (1073741824, 0x00000002) := by decide
/-- V-IN row 11, with RN as before. -/
theorem test_inv_none : observe intReport (exec .inv { curve 15 0 0 with n := 5, rn := 9 }) = some (9, 0x00000106) := by decide
/-- V-DB row 2. -/
theorem test_pdbl : observe pointReport (exec .pdbl { curve 17 2 0 with p1 := at' 6 3 }) = some (at' 3 1, 0x00000002) := by
  decide
/-- V-DB row 9: the coordinate -1. -/
theorem test_pdbl_badPoint :
    observe pointReport (exec .pdbl { curve 17 2 0 with p1 := at' (-1) 1, r := at' 7 7 }) = some (at' 7 7, 0x00000606) := by
  decide
/-- V-AD row 9: points off the curve. -/
theorem test_padd :
    observe pointReport (exec .padd { curve 17 2 0 with p1 := at' 1 1, p2 := at' 2 2 }) = some (at' 15 2, 0x00000002) := by
  decide
/-- V-AD row 11. -/
theorem test_padd_noInverse :
    observe pointReport (exec .padd { curve 15 0 0 with p1 := at' 1 2, p2 := at' 6 3, r := at' 7 7 }) =
      some (at' 7 7, 0x00000106) := by decide
/-- V-MU row 5. -/
theorem test_pmul :
    observe pointReport (exec .pmul { curve 17 2 0 with p1 := at' 5 1, k := 18 }) = some (at' 5 16, 0x00000002) := by decide
/-- V-MU row 13: the doubling after the top bit fails. -/
theorem test_pmul_lastDoubling :
    observe pointReport (exec .pmul { curve 2 0 0 with p1 := at' 0 1, k := 1, r := at' 7 7 }) =
      some (at' 7 7, 0x00000106) := by decide
/-- V-EN4. -/
theorem test_enum :
    observe (fun t => (t.pcount, t.ptmem.map (fun e => e.2), statusWord t.status)) (exec .enum (curve 5 2 3)) =
      some (6, [(1, 1), (1, 4), (2, 0), (3, 1), (3, 4), (4, 0)], 0x0000000A) := by decide
/-- V-EN7 for a smaller curve: 6 points do not fit in 4. -/
theorem test_enum_overflow :
    observe (fun t => (t.pcount, statusWord t.status)) (exec .enum { curve 5 2 3 with cap := 4, pcount := 3 }) =
      some (0, 0x00000806) := by decide
/-- V-CO13. -/
theorem test_encode :
    observe (fun t => (t.mreg, t.hreg, t.qm, statusWord t.status)) (exec .encode { listed with msg := 2 }) =
      some (2, 2, at' 4 2, 0x0000000A) := by decide
/-- V-CO15: M and h are written, QM is not. -/
theorem test_encode_notFound :
    observe (fun t => (t.mreg, t.hreg, t.qm, statusWord t.status)) (exec .encode { listed with msg := 5, qm := at' 4 2 }) =
      some (8, 0, at' 4 2, 0x0000020E) := by decide
/-- V-OR1. -/
theorem test_keygen :
    observe (fun t => (t.qa, t.qb, statusWord t.status)) (exec .keygen scenario) =
      some (at' 10 6, at' 9 16, 0x00000002) := by decide
/-- V-OR5: a zero scalar. -/
theorem test_keygen_zero :
    observe (fun t => (t.qa, t.qb)) (exec .keygen { scenario with da := 0 }) = some (infinity, at' 9 16) := by decide
/-- V-OR2. -/
theorem test_shared :
    observe (fun t => (t.sa, t.sb, statusWord t.status)) (exec .shared { scenario with qa := at' 10 6, qb := at' 9 16 }) =
      some (at' 3 16, at' 3 16, 0x00000002) := by decide
/-- V-OR6: a stale QB. -/
theorem test_shared_mismatch :
    observe (fun t => (t.sa, t.sb, statusWord t.status))
        (exec .shared { scenario with db := 6, qa := at' 10 6, qb := at' 9 16 }) =
      some (at' 3 16, at' 5 16, 0x00000A06) := by decide
/-- V-OR3. -/
theorem test_encrypt :
    observe (fun t => (t.c, t.sp))
        (exec .encrypt { scenario with qm := at' 10 6, sa := at' 3 16, qa := at' 10 6 }) =
      some (at' 5 16, at' 10 6) := by decide
/-- V-OR12: a secret at infinity; QA is copied bit for bit, out of range as it is (R232). -/
theorem test_encrypt_infinity :
    observe (fun t => (t.c, t.sp)) (exec .encrypt { scenario with qm := at' 10 6, sa := infinity, qa := ⟨99, 98, true⟩ }) =
      some (at' 10 6, ⟨99, 98, true⟩) := by decide
/-- V-OR4. -/
theorem test_ecdh :
    observe (fun t => (t.pcount, [t.qa, t.qb, t.sa, t.sb, t.qm, t.c, t.sp], [t.mreg, t.hreg, statusWord t.status]))
        (exec .ecdh { scenario with msg := 5 }) =
      some (18, [at' 10 6, at' 9 16, at' 3 16, at' 3 16, at' 10 6, at' 5 16, at' 10 6], [8, 2, 0x0000000A]) := by decide
/-- V-OR11: steps 1 to 3 done, step 4 finds an empty list. -/
theorem test_ecdh_degenerate :
    observe (fun t => (t.pcount, t.qa, t.sa, statusWord t.status)) (exec .ecdh { curve 3 2 2 with da := 1, db := 1 }) =
      some (0, at' 0 0, at' 0 0, 0x0000430E) := by decide

/-! One step per bus rule. -/

/-- V-CT4, V-CT5, V-CT6: data 0, the error response, nothing else. -/
theorem test_busErrors :
    observe (fun t => (t.responses, decide ({ t with responses := [] } = State.reset)))
        (step (facing [.host (.read 0x01C 4)] State.reset)) =
      some ([.read 0 (some (.busError 0x01C 4))], true) ∧
    observe (fun t => t.responses) (step (facing [.host (.read 0x010 1)] State.reset)) =
      some [.read 0 (some (.busError 0x010 1))] ∧
    observe (fun t => t.responses) (step (facing [.host (.read 0x012 4)] State.reset)) =
      some [.read 0 (some (.busError 0x012 4))] := by decide
/-- V-CT7. -/
theorem test_write_id : observe (regRead .id) (step (facing [.host (.write 0x000 4 5)] State.reset)) = some 0x45434301 := by
  decide
/-- V-CT8. -/
theorem test_write_inf :
    observe (regRead (.ptInf .p1)) (step (facing [.host (.write 0x038 4 0xFFFFFFFE)] State.reset)) = some 0 := by decide
/-- V-CT9 (b): a write while ENUM is in progress. -/
theorem test_write_busy :
    observe (fun t => (t.p, statusWord t.status)) (step (facing [.host (.write 0x010 4 7)] (running 6 (curve 17 2 2)))) =
      some (17, 0x00000011) := by decide
/-- V-CT10: `clrbw`. -/
theorem test_clrbw :
    observe (fun t => statusWord t.status)
        (step (facing [.host (.write 0x008 4 0x10)] { State.reset with status := { Status.zero with busywr := true } })) =
      some 0 := by decide
/-- 10_state.md R27: the same value of B, but PTVALID falls (program L3-4 line 8). -/
theorem test_write_b :
    observe (fun t => (t.pcount, statusWord t.status)) (step (facing [.host (.write 0x018 4 1)] listed)) =
      some (8, 0x00000002) := by decide
/-- V-CT2: the word is stored and IllegalCommand recorded. -/
theorem test_illegal :
    observe (fun t => (t.cmd, statusWord t.status)) (step (facing [.core] (running 0x0000000C State.reset))) =
      some (0x0000000C, 0x00000406) := by decide
/-- Program L3-4 lines 4 and 5: the last entry, and the index past it. -/
theorem test_read_list :
    regRead .px { listed with pidx := 7 } = 4 ∧ regRead .py { listed with pidx := 7 } = 3 ∧
      regRead .px { listed with pidx := 8 } = 0 := by decide
/-- V-CT11. -/
theorem test_reset_during_command :
    observe (fun t => decide (t = State.reset)) (step (facing [.reset] (running 6 (curve 17 2 2)))) = some true := by decide
/-- 20_memory.md R61: an access past the window is the platform's. -/
theorem test_outside : observe (fun t => t.responses) (step (facing [.host (.read 0x200 4)] State.reset)) = none := by decide
/-- 20_memory.md R65: byte lane 0x011 carries bits [15:8] of P. -/
theorem test_lanes :
    windowByte 0x010 { State.reset with p := 0x12345678 } = some 0x78 ∧
      windowByte 0x011 { State.reset with p := 0x12345678 } = some 0x56 ∧ windowByte 0x01C State.reset = none := by decide

/-! Witnesses: for each statement with hypotheses, states and operands that meet them, one for each clause and at the ends of
the ranges. `witness_X` belongs to `Obligations.X`. -/

theorem witness_LegalWordsHaveZeroReservedBitsAndAKnownOpcode :
    (0x00000100 : Word).toNat / 2 ^ 8 ≠ 0 ∧ (0x80000000 : Word).toNat / 2 ^ 8 ≠ 0 ∧ (0x0C : Word).toNat / 2 ^ 8 = 0 ∧
      0x0B < (0x0C : Word).toNat % 2 ^ 8 ∧ (0xFF : Word).toNat / 2 ^ 8 = 0 ∧ 0x0B < (0xFF : Word).toNat % 2 ^ 8 := by decide
theorem witness_ReservedOffsetsAreExactlyThoseListed :
    regAt 0x000 = some .id ∧ regAt 0x01C = none ∧ regAt 0x058 = none ∧ regAt 0x11C = some .py ∧ regAt 0x120 = none ∧
      regAt 0x1FC = none := by decide
theorem witness_PointWrittenToATripleReadsBack :
    inRange .inf (2 ^ 31 - 1) = true ∧ inRange (.aff 0 0) 2 = true ∧
      inRange (.aff (2 ^ 31 - 2) (2 ^ 31 - 2)) (2 ^ 31 - 1) = true := by decide
theorem witness_ResetStepAbandonsTheCommandInProgress :
    (facing [.reset] (running 6 (curve 17 2 2))).agenda = [.reset] ∧ (running 6 (curve 17 2 2)).status.busy = true := by decide
theorem witness_CoreTurnRunsTheDecodedCommand :
    (running 6 listed).status.busy = true ∧ decode (running 6 listed).cmd = .ok .enum ∧ (running 6 listed).agenda = [] ∧
      (facing [.core, .reset] (running 6 listed)).agenda = [.core, .reset] := by decide
theorem witness_IllegalWordEndsWithIllegalCommand :
    (facing [.core] (running 0x0C listed)).status.busy = true ∧ decode (running 0x0C listed).cmd = .error .reservedOpcode ∧
      decode (running 0x100 listed).cmd = .error .reservedBits ∧ (facing [.core] (running 0x0C listed)).agenda = [.core] := by
  decide
theorem witness_IdleCoreDoesNothing :
    (facing [.core] listed).status.busy = false ∧ (facing [.core] listed).agenda = [.core] := by decide
theorem witness_EveryDecodedTurnHasANextState :
    decoded (.host (.read 0x1FF 8)) = true ∧ decoded (.host (.write 0x200 4 0)) = false ∧ decoded .core = true := by decide
theorem witness_CommandInProgressCompletesWhenTheHostIsQuiet :
    (running 0xFFFFFFFF listed).status.busy = true ∧ (running 0xFFFFFFFF listed).agenda = [] := by decide
theorem witness_IllegalAccessIsABusErrorAndChangesNothing :
    (2 ≠ 4 ∧ 0x1FF < 0x200) ∧ (0x1FE % 4 ≠ 0 ∧ 0x1FE < 0x200) ∧ (regAt 0x1FC = none ∧ 0x1FC < 0x200) ∧
      (facing [.host (.read 0x1FE 4)] listed).agenda = [.host (.read 0x1FE 4)] ∧
      (facing [.host (.write 0x1FC 4 7)] listed).agenda = [.host (.write 0x1FC 4 7)] := by decide
theorem witness_ReadAnswersTheRegisterWithoutSideEffect :
    (facing [.host (.read (regOffset .px) 4)] listed).agenda = [.host (.read (regOffset .px) 4)] ∧
      listed.status.busy = false ∧ (running 7 listed).status.busy = true ∧ isResult .px = true ∧ isResult .pidx = false := by
  decide
theorem witness_WriteWhileBusyIsDiscarded :
    (facing [.host (.write (regOffset .cmd) 4 1)] (running 7 listed)).status.busy = true ∧ RegName.cmd ≠ .status := by decide
theorem witness_StatusWriteClearsOnlyBusywr :
    (facing [.host (.write 0x008 4 0xFFFFFFFF)] (running 7 listed)).agenda = [.host (.write 0x008 4 0xFFFFFFFF)] := by decide
theorem witness_AcceptedWriteIsStored :
    listed.status.busy = false ∧ writeClass .b = .param ∧ writeClass .pidx = .rw ∧ writeClass (.ptInf .p1) = .rw ∧
      (facing [.host (.write (regOffset .b) 4 1)] listed).agenda = [.host (.write (regOffset .b) 4 1)] := by decide
theorem witness_WriteOfAReadOnlyRegisterIsIgnored :
    listed.status.busy = false ∧ RegName.px ∈ [.id, .cap, .rn, .mreg, .hreg, .pcount, .px, .py] ∧
      RegName.ptInf .sp ∈ regsOf [.r, .qa, .qb, .sa, .sb, .qm, .c, .sp] ∧
      (facing [.host (.write (regOffset .px) 4 1)] listed).agenda = [.host (.write (regOffset .px) 4 1)] := by decide
theorem witness_CommandWriteIssuesTheWord :
    (facing [.host (.write 0x004 4 0x101)] listed).agenda = [.host (.write 0x004 4 0x101)] ∧ listed.status.busy = false ∧
      (running 7 listed).status.busy = true := by decide
/-- The write of P and the two reads of V-CT9 (b), while ENUM is in progress. -/
theorem witness_HostCannotDisturbACommandInProgress :
    ∃ t, Host.Core.run Sys2Proof.core 3
        (facing ([Access.write 0x010 4 7, .read 0x110 4, .write 0x1FE 2 7].map .host ++ [.core]) (running 6 (curve 17 2 2))) =
      .next t := ⟨_, rfl⟩
/-- Program L3-1 line 6 with two polls before the completion. -/
theorem witness_RunLineRunsTheCommandAndReadsItsReport :
    (facing (runTurns .inv 2 ++ [.reset]) (curve 17 0 0)).status.busy = false ∧
      ∃ t, exec .inv (issue (encode .inv) (facing (runTurns .inv 2 ++ [.reset]) (curve 17 0 0))) = .next t := ⟨by decide, _, rfl⟩

theorem witness_BadModulusStopsEveryCommandButNop :
    sext32 (curve 1 0 0).p < 2 ∧ sext32 (curve (-2 ^ 31) 0 0).p < 2 ∧ Instr.ecdh ≠ .nop := by decide
theorem witness_ReduceWritesTheCanonicalResidue :
    sext32 (curve 1 0 0).p < 2 ∧ 2 ≤ sext32 (curve 2 0 0).p ∧ 2 ≤ sext32 (curve (2 ^ 31 - 1) 0 0).p := by decide
theorem witness_InvWritesTheInverseOrReportsNone :
    sext32 (curve 1 0 0).p < 2 ∧ 2 ≤ sext32 (curve 15 0 0).p ∧ Int.gcd (sext32 4) (sext32 (curve 15 0 0).p) = 1 ∧
      Int.gcd (sext32 0) (sext32 (curve 15 0 0).p) ≠ 1 := by decide
theorem witness_InvAgreesWithTheLinearScan :
    2 ≤ sext32 (curve 15 0 0).p ∧ inverseScan 4 15 = .ok 4 ∧ inverseScan 5 15 = .error .noInverseExists := by decide
theorem witness_PdblWritesTheDouble :
    pointIn .p1 { curve 17 2 0 with p1 := ⟨99, 0, true⟩ } = .inf ∧
      pointIn .p1 { curve 17 2 0 with p1 := at' 17 16 } = .aff 17 16 ∧ pointIn .p1 { curve 17 2 0 with p1 := at' 16 0 } = .aff 16 0 ∧
      pointIn .p1 { curve 17 2 0 with p1 := at' 5 16 } = .aff 5 16 ∧ Int.gcd (2 * 16) 17 = 1 ∧
      pointIn .p1 { curve 2 0 0 with p1 := at' 0 1 } = .aff 0 1 ∧ Int.gcd (2 * 1) 2 ≠ 1 := by decide
theorem witness_PaddWritesTheSum :
    inRange .inf 17 = true ∧ inRange (.aff 16 16) 17 = true ∧ inRange (.aff 0 17) 17 = false ∧
      ((5 : Int) = 5 ∧ (1 : Int) ≠ 16) ∧ Int.gcd (2 * 1) 17 = 1 ∧ Int.gcd (6 - 5) 17 = 1 ∧ Int.gcd (6 - 1) 15 ≠ 1 ∧
      Int.gcd (2 * 5) 15 ≠ 1 ∧ pointIn .p1 { curve 17 2 0 with p1 := at' 16 16 } = .aff 16 16 := by decide
theorem witness_DoublingIsAddingAPointToItself :
    ({ curve 17 2 0 with p1 := at' 5 1, p2 := at' 5 1 } : State).p2 = at' 5 1 := by decide
theorem witness_PmulRunsDoubleAndAdd :
    inRange (.aff 17 0) 17 = false ∧ inRange (pointIn .p1 { curve 17 2 0 with p1 := at' 5 1 }) 17 = true ∧ sext32 0xFFFFFFFF < 0 ∧
      0 ≤ sext32 0x7FFFFFFF ∧ scalarMul (.aff 5 1) 3 2 17 = .ok (.aff 10 6) ∧
      scalarMul (.aff 0 1) 1 0 2 = .error .noInverseExists := by decide
theorem witness_PmulOfInfinityOrByZeroIsInfinity :
    pointIn .p1 { curve 2 0 0 with p1 := ⟨99, 0, true⟩, k := 5 } = .inf ∧ sext32 (curve 2 0 0).k = 0 ∧
      inRange (pointIn .p1 (curve 2 0 0)) (sext32 (curve 2 0 0).p) = true := by decide

/-- 17 is prime, as the scenario W1 needs. -/
theorem prime_17 : Prime (17 : Int) := Int.prime_iff_natAbs_prime.mpr (by norm_num)

/-- The scenario W1 meets what the statements about a non-singular curve ask. -/
theorem witness_nonsingular :
    Prime (17 : Int) ∧ 17 = sext32 scenario.p ∧ 2 = sext32 scenario.a ∧ 2 = sext32 scenario.b ∧
      ¬(17 : Int) ∣ 4 * 2 * 2 * 2 + 27 * 2 * 2 ∧ basePoint scenario = .aff 5 1 ∧
      (17 : Int) ∣ 1 * 1 - (5 * 5 * 5 + 2 * 5 + 2) ∧ 0 ≤ sext32 scenario.da ∧ 0 ≤ sext32 scenario.db :=
  ⟨prime_17, by decide⟩
theorem witness_PmulIsTheRepeatedSumOnANonsingularCurve :
    Prime (17 : Int) ∧ pointIn .p1 { scenario with p1 := at' 5 1, k := 19 } = .aff 5 1 ∧ (17 : Int) ∣ 1 * 1 - (5 * 5 * 5 + 2 * 5 + 2) ∧
      ¬(17 : Int) ∣ 4 * 2 * 2 * 2 + 27 * 2 * 2 ∧ repeatedSum 19 (.aff 5 1) 2 17 = .ok .inf := ⟨prime_17, by decide⟩
theorem witness_GroupCommandsCompleteForAnOddPrime :
    Prime (17 : Int) ∧ 17 = sext32 (curve 17 2 2).p ∧ inRange (pointIn .p1 (curve 17 2 2)) 17 = true ∧
      inRange (pointIn .p2 (curve 17 2 2)) 17 = true ∧ 0 ≤ sext32 (curve 17 2 2).k ∧ inRange (basePoint (curve 17 2 2)) 17 = true ∧ inRange (pointIn .qa (curve 17 2 2)) 17 = true ∧
      inRange (pointIn .qb (curve 17 2 2)) 17 = true ∧ inRange (pointIn .qm (curve 17 2 2)) 17 = true ∧
      inRange (pointIn .sa (curve 17 2 2)) 17 = true ∧ 0 ≤ sext32 (curve 17 2 2).da ∧ 0 ≤ sext32 (curve 17 2 2).db :=
  ⟨prime_17, by decide⟩
theorem witness_CurveListIsEverySolutionInOrder : (2 : Int) ≤ 2 ∧ allPoints 2 0 1 = [(0, 1), (1, 0)] := by decide
/-- The list of V-EN4 has 6 points: it fits in 6 entries and not in 5. -/
theorem witness_EnumStoresTheCurveListOrOverflows :
    sext32 (curve 1 0 0).p < 2 ∧ 2 ≤ sext32 (curve 5 2 3).p ∧ (allPoints 5 2 3).length ≤ npt { curve 5 2 3 with cap := 6 } ∧
      npt { curve 5 2 3 with cap := 5 } < (allPoints 5 2 3).length := by decide
theorem witness_HostReadsTheListThroughPidx :
    ∃ t, exec .enum (curve 5 1 1) = .next t ∧ t.status.err = false ∧ t.pcount = 8 := ⟨_, rfl, by decide, by decide⟩
/-- V-EN3 with MSG = 2 (a candidate at `j = 0`, entry 6) and with MSG = 5 (none). -/
theorem witness_EncodeWritesTheFirstPointOfTheFirstCandidate :
    sext32 (curve 1 0 0).p < 2 ∧ (curve 5 1 1).status.ptvalid = false ∧
      ({ curve 3 2 2 with status := { Status.zero with ptvalid := true } } : State).pcount = 0 ∧
      listed.status.ptvalid = true ∧ 0 < listed.pcount ∧ (5 / chooseM 2 = 2 ∧ (ptEntry listed 6).1 = reduce (2 * 2 + 0) 5 ∧
      ∀ i < 6, (ptEntry listed i).1 ≠ reduce (2 * 2 + 0) 5) ∧ 5 / chooseM 5 = 0 := by decide
theorem witness_KeygenWritesBothPublicPointsOrNeither :
    inRange (basePoint { scenario with gx := 17 }) 17 = false ∧ inRange (basePoint scenario) 17 = true ∧ sext32 0xFFFFFFFF < 0 ∧
      scalarMul (basePoint scenario) 3 2 17 = .ok (.aff 10 6) ∧ scalarMul (basePoint scenario) 5 2 17 = .ok (.aff 9 16) ∧
      scalarMul (.aff 0 1) 1 0 2 = .error .noInverseExists := by decide
theorem witness_SharedWritesBothSecretsAndComparesThem :
    inRange (pointIn .qa { scenario with qa := at' 17 0 }) 17 = false ∧ inRange (pointIn .qa scenario) 17 = true ∧
      inRange (pointIn .qb scenario) 17 = true ∧ sext32 0x80000000 < 0 ∧
      scalarMul (.aff 9 16) 3 2 17 = .ok (.aff 3 16) ∧ scalarMul (.aff 10 6) 6 2 17 = .ok (.aff 5 16) ∧
      scalarMul (.aff 0 1) 1 0 2 = .error .noInverseExists := by decide
theorem witness_EncryptAddsTheSecretAndCopiesTheSender :
    inRange (pointIn .qm { scenario with qm := at' 0 17 }) 17 = false ∧ inRange (pointIn .qm scenario) 17 = true ∧
      ecAdd (.aff 10 6) (.aff 3 16) 2 17 = .ok (.aff 5 16) ∧ ecAdd (.aff 1 2) (.aff 6 3) 0 15 = .error .noInverseExists := by
  decide
/-- V-OR4, step by step. -/
theorem witness_EcdhCompletesWhenItsStepsDo :
    ∃ t1 t2 t3 t4 t5, exec .enum { scenario with msg := 5 } = .next t1 ∧ exec .keygen t1 = .next t2 ∧ exec .shared t2 = .next t3 ∧
      exec .encode t3 = .next t4 ∧ exec .encrypt t4 = .next t5 ∧ t1.status.err = false ∧ t2.status.err = false ∧
      t3.status.err = false ∧ t4.status.err = false ∧ t5.status.err = false :=
  ⟨_, _, _, _, _, rfl, rfl, rfl, rfl, rfl, by decide, by decide, by decide, by decide, by decide⟩
theorem witness_SharedSecretsAgreeOnANonsingularCurve : ∃ t, exec .keygen scenario = .next t ∧ t.qa = at' 10 6 :=
  ⟨_, rfl, by decide⟩
/-- With `witness_nonsingular`: the list of V-EN1 fits, and m = 5 has the candidate of W3. -/
theorem witness_EcdhSucceedsOnANonsingularCurve :
    (allPoints 17 2 2).length ≤ npt scenario ∧ (0 : Int) < 17 / chooseM 5 ∧
      (reduce (5 * (17 / chooseM 5) + 0) 17, (6 : Int)) ∈ allPoints 17 2 2 := by decide
theorem witness_CommandsWriteOnlyTheirRow :
    (∃ t, exec .shared { scenario with db := 6, qa := at' 10 6, qb := at' 9 16 } = .next t) ∧ writesList .shared = false ∧
      RegName.ptX .qa ∉ commandWrites .shared := ⟨⟨_, rfl⟩, by decide, by decide⟩
/-- EncodingNotFound, and an ordinary failure. -/
theorem witness_FailedCommandCommitsNothing :
    (∃ t, exec .encode { listed with msg := 5 } = .next t ∧ t.status.err = true ∧ t.status.errcode = 2) ∧
      ∃ t, exec .pmul { curve 2 0 0 with p1 := at' 0 1, k := 1 } = .next t ∧ t.status.err = true ∧ t.status.errcode = 1 :=
  ⟨⟨_, rfl, by decide, by decide⟩, ⟨_, rfl, by decide, by decide⟩⟩
/-- A failed ECDH and a command that succeeds. -/
theorem witness_ErrorCodesAndStepsAreThoseOfTheTable :
    (∃ t, exec .ecdh { curve 3 2 2 with da := 1, db := 1 } = .next t ∧ t.status.err = true) ∧
      ∃ t, exec .nop State.reset = .next t ∧ t.status.err = false := ⟨⟨_, rfl, by decide⟩, ⟨_, rfl, by decide⟩⟩
theorem witness_GroupCommandsDoNotReadB :
    writesList .padd = false ∧ ∃ t, exec .padd { curve 17 2 9 with p1 := at' 5 1, p2 := at' 6 3 } = .next t := ⟨rfl, _, rfl⟩
theorem witness_ResetMeetsTheInvariants : 1 ≤ (1 : Word).toNat ∧ 1 ≤ (0xFFFFFFFF : Word).toNat := by decide

/-- The state after reset meets the invariant of the point memory. -/
theorem reset_memoryInv : MemoryInv State.reset :=
  ⟨by decide, by decide, fun _ h => (List.not_mem_nil h).elim, by decide, fun _ h => (Nat.not_lt_zero _ h).elim⟩
/-- A state with a list meets it too. -/
theorem witness_StepKeepsThePointMemory :
    MemoryInv (facing [.host (.write 0x114 4 7)] listed) ∧
      ∃ t, step (facing [.host (.write 0x114 4 7)] listed) = .next t := by
  refine ⟨⟨by decide, by decide, ?_, by decide, ?_⟩, _, rfl⟩
  · show ∀ e ∈ listed.ptmem, e.1 < npt listed ∧ 0 ≤ e.2.1 ∧ e.2.1 < 2 ^ 31 - 1 ∧ 0 ≤ e.2.2 ∧ e.2.2 < 2 ^ 31 - 1
    decide
  · show ∀ i < 8, (listed.ptmem.read i).isSome
    decide
theorem witness_ValidListBelongsToTheCurrentCurve :
    ListInv (facing [.host (.write 0x018 4 1)] listed) ∧ listed.status.ptvalid = true ∧
      ∃ t, step (facing [.host (.write 0x018 4 1)] listed) = .next t := by
  refine ⟨fun _ => ⟨by decide, ?_⟩, rfl, _, rfl⟩
  show curveList listed = allPoints 5 1 1
  decide
theorem witness_StepKeepsStatusConsistent :
    StatusInv (facing [.core] (running 0x0B State.reset)) ∧ ∃ t, step (facing [.core] (running 0x0B State.reset)) = .next t := by
  refine ⟨⟨?_, ?_, ?_, ?_, ?_, ?_⟩, _, rfl⟩ <;> decide
theorem witness_StepKeepsResultsCanonical :
    MemoryInv State.reset ∧ ResultsInv State.reset ∧ ∃ t, step State.reset = .next t := by
  refine ⟨reset_memoryInv, ⟨fun t _ => ?_, by decide, by decide, by decide⟩, _, rfl⟩
  cases t <;> exact ⟨fun _ => ⟨rfl, rfl⟩, by decide, by decide⟩

end Sys2Proof.Tests
end

/-! The state after reset (10_state.md R42): what its STATUS word, its triples and its empty curve list read as. -/

namespace Sys2Proof.Machine

@[simp] theorem statusWord_zero : statusWord .zero = 0 := by decide

@[simp] theorem infWord_false : infWord false = 0 := by decide

@[simp] theorem enc32_zero : enc32 0 = 0 := by decide

@[simp] theorem getTriple_resetOf (t : PointReg) (capacity : Word) : getTriple t (State.resetOf capacity) = .zero := by
  cases t <;> rfl

/-- R37: PX reads 0 for an index at or past the end of the list. -/
theorem regRead_px_of_pcount_le {s : State} (h : s.pcount ≤ s.pidx.toNat) : regRead .px s = 0 := if_neg h.not_gt

/-- R37: PY reads 0 for an index at or past the end of the list. -/
theorem regRead_py_of_pcount_le {s : State} (h : s.pcount ≤ s.pidx.toNat) : regRead .py s = 0 := if_neg h.not_gt

/-- Settles O7. A stored register reads the value reset gives its field; STATUS, the triples, PCOUNT and the two views of
the empty list read 0 by the lemmas above. -/
theorem resetLeavesEveryRegisterAtItsResetValue : Obligations.ResetLeavesEveryRegisterAtItsResetValue := by
  intro capacity name
  refine ⟨?_, rfl⟩
  cases name with
  | status => exact statusWord_zero
  | pcount => exact enc32_zero
  | px => exact regRead_px_of_pcount_le (Nat.zero_le _)
  | py => exact regRead_py_of_pcount_le (Nat.zero_le _)
  | ptX t => exact congrArg Triple.x (getTriple_resetOf t capacity)
  | ptY t => exact congrArg Triple.y (getTriple_resetOf t capacity)
  | ptInf t => exact (congrArg (fun v => infWord v.inf) (getTriple_resetOf t capacity)).trans infWord_false
  | _ => rfl

end Sys2Proof.Machine

/-! The commands REDUCE and INV (40_modular.md R120 to R124): how each ends, and what the inverse satisfies. -/

namespace Sys2Proof.Machine

/-- R123: REDUCE with a legal modulus stores the residue in RN and completes. -/
theorem exec_reduce_of_legal {s : State} (hp : 2 ≤ sext32 s.p) :
    exec .reduce s =
      .next { s with rn := enc32 (reduce (sext32 s.n) (sext32 s.p)), status := okStatus s.status } :=
  finish_attempt_ok (reduceValue_legal hp) _ s

/-- R124: INV with a legal modulus stores in RN the inverse that `inverse` answers, and completes. -/
theorem exec_inv_of_inverse_ok {s : State} {x : Int} (hp : 2 ≤ sext32 s.p)
    (h : inverse (sext32 s.n) (sext32 s.p) = .ok x) :
    exec .inv s = .next { s with rn := enc32 x, status := okStatus s.status } :=
  finish_attempt_ok ((invValue_legal hp).trans h) _ s

/-- R124: INV with a legal modulus ends with the error that `inverse` answers. -/
theorem exec_inv_of_inverse_error {s : State} {e : ErrCode} (hp : 2 ≤ sext32 s.p)
    (h : inverse (sext32 s.n) (sext32 s.p) = .error e) : exec .inv s = .next (failedWith (errNumber e) s) :=
  finish_attempt_error ((invValue_legal hp).trans h) _ s

/-- What `inverse` answers lies in `[1, p)` and is an inverse modulo `p`: 0 is excluded because its products have residue 0. -/
theorem inverse_ok_of_gcd_eq_one {n p : Int} (hp : 2 ≤ p) (hg : Int.gcd n p = 1) :
    ∃ x, inverse n p = .ok x ∧ 1 ≤ x ∧ x < p ∧ p ∣ n * x - 1 := by
  obtain ⟨-, x, hx, hx0, hxp, hres⟩ | ⟨hne, -⟩ := inverse_spec (n := n) hp
  · have hx_ne : x ≠ 0 := by
      rintro rfl
      simp [reduce] at hres
    exact ⟨x, hx, by omega, hxp, hres ▸ dvd_sub_reduce (n * x) p⟩
  · exact absurd hg hne

/-- An operand that shares a factor with `p`, 0 included, has no inverse. -/
theorem inverse_error_of_gcd_ne_one {n p : Int} (hp : 2 ≤ p) (hg : Int.gcd n p ≠ 1) :
    inverse n p = .error .noInverseExists := by
  obtain ⟨h1, -⟩ | ⟨-, he⟩ := inverse_spec (n := n) hp
  · exact absurd h1 hg
  · exact he

/-- Settles O25. The residue stored is `reduce`, whose range and congruence are the laws of R120. -/
theorem reduceWritesTheCanonicalResidue : Obligations.ReduceWritesTheCanonicalResidue := by
  intro s
  constructor
  · intro hp
    obtain ⟨hreduce, -⟩ := values_small hp
    exact finish_attempt_error hreduce _ s
  · intro hp
    have hp0 : 0 < sext32 s.p := by omega
    exact ⟨_, reduce_nonneg hp0 _, reduce_lt hp0 _, dvd_sub_reduce _ _, exec_reduce_of_legal hp⟩

/-- Settles O26. Whether `inverse` answers a number or the error is decided by the gcd, and INV ends accordingly. -/
theorem invWritesTheInverseOrReportsNone : Obligations.InvWritesTheInverseOrReportsNone := by
  intro s
  constructor
  · intro hp
    obtain ⟨-, hinv, -⟩ := values_small hp
    exact finish_attempt_error hinv _ s
  · intro hp
    constructor
    · intro hg
      obtain ⟨x, hx, hx1, hxp, hdvd⟩ := inverse_ok_of_gcd_eq_one hp hg
      exact ⟨x, hx1, hxp, hdvd, exec_inv_of_inverse_ok hp hx⟩
    · intro hg
      exact exec_inv_of_inverse_error hp (inverse_error_of_gcd_ne_one hp hg)

end Sys2Proof.Machine

/-! The commands PDBL, PADD and PMUL (41_curve_group.md R150 to R157): how each ends, given what the group law answers. -/

namespace Sys2Proof.Machine

theorem inRange_aff_eq_false {x y p : Int} (h : ¬(0 ≤ x ∧ x < p ∧ 0 ≤ y ∧ y < p)) : inRange (.aff x y) p = false :=
  Bool.eq_false_iff.mpr (mt inRange_aff.mp h)

/-! PDBL. -/

theorem exec_pdbl_of_small {s : State} (hp : sext32 s.p < 2) : exec .pdbl s = .next (failedWith 5 s) := by
  obtain ⟨-, -, hpdbl, -⟩ := values_small hp
  exact finish_attempt_error hpdbl _ s

/-- R155: a point out of range ends PDBL with BadPoint. -/
theorem exec_pdbl_of_badPoint {s : State} (hp : 2 ≤ sext32 s.p) (hr : inRange (pointIn .p1 s) (sext32 s.p) = false) :
    exec .pdbl s = .next (failedWith 6 s) := by
  have hval : pdblValue s = .error .badPoint := by rw [pdblValue_legal hp, checkPoint_stop hr, error_bind]
  exact finish_attempt_error hval _ s

/-- PDBL on a point in range computes the sum of the point with itself (R153). -/
theorem pdblValue_of_inRange {s : State} {v : Point} (hp : 2 ≤ sext32 s.p) (hv : pointIn .p1 s = v)
    (hr : inRange v (sext32 s.p) = true) : pdblValue s = ecAdd v v (sext32 s.a) (sext32 s.p) := by
  rw [pdblValue_legal hp, hv, checkPoint_pass hr, ok_bind, ecDouble_eq_ecAdd]

theorem exec_pdbl_of_ok {s : State} {v u : Point} (hp : 2 ≤ sext32 s.p) (hv : pointIn .p1 s = v)
    (hr : inRange v (sext32 s.p) = true) (h : ecAdd v v (sext32 s.a) (sext32 s.p) = .ok u) :
    exec .pdbl s = .next { s with r := tripleOf u, status := okStatus s.status } :=
  finish_attempt_ok ((pdblValue_of_inRange hp hv hr).trans h) _ s

theorem exec_pdbl_of_error {s : State} {v : Point} {e : ErrCode} (hp : 2 ≤ sext32 s.p) (hv : pointIn .p1 s = v)
    (hr : inRange v (sext32 s.p) = true) (h : ecAdd v v (sext32 s.a) (sext32 s.p) = .error e) :
    exec .pdbl s = .next (failedWith (errNumber e) s) :=
  finish_attempt_error ((pdblValue_of_inRange hp hv hr).trans h) _ s

/-- Settles O28. The double is the sum of the point with itself, so each case of PDBL is a case of `ecAdd`. -/
theorem pdblWritesTheDouble : Obligations.PdblWritesTheDouble := by
  rintro s _ rfl
  refine ⟨exec_pdbl_of_small, fun hp hv => ?infinity, fun x y hp hv => ?affine⟩
  case infinity => exact exec_pdbl_of_ok hp hv (inRange_inf _) (ecAdd_inf_left ..)
  case affine =>
    refine ⟨?badPoint, ?torsion, ?noInverse, ?double⟩
    case badPoint =>
      intro hbad
      exact exec_pdbl_of_badPoint hp (hv ▸ inRange_aff_eq_false hbad)
    case torsion =>
      rintro ⟨hx0, hxp⟩ rfl
      exact exec_pdbl_of_ok hp hv (inRange_aff.mpr ⟨hx0, hxp, le_rfl, by omega⟩) (ecAdd_cancel (.inr rfl))
    case noInverse =>
      rintro ⟨hx0, hxp, hy0, hyp⟩ hg
      obtain ⟨-, herr⟩ := ecAdd_double (x := x) (a := sext32 s.a) hp hy0.ne'
      exact exec_pdbl_of_error hp hv (inRange_aff.mpr ⟨hx0, hxp, hy0.le, hyp⟩) (herr hg)
    case double =>
      rintro ⟨hx0, hxp, hy0, hyp⟩ hg
      obtain ⟨hok, -⟩ := ecAdd_double (x := x) (a := sext32 s.a) hp hy0.ne'
      obtain ⟨x3, y3, hadd, hdouble⟩ := hok hg
      exact ⟨x3, y3, hdouble, exec_pdbl_of_ok hp hv (inRange_aff.mpr ⟨hx0, hxp, hy0.le, hyp⟩) hadd⟩

/-! PADD. -/

theorem exec_padd_of_small {s : State} (hp : sext32 s.p < 2) : exec .padd s = .next (failedWith 5 s) := by
  obtain ⟨-, -, -, hpadd, -⟩ := values_small hp
  exact finish_attempt_error hpadd _ s

/-- R156: a point out of range ends PADD with BadPoint, whichever of the two it is. -/
theorem exec_padd_of_badPoint {s : State} (hp : 2 ≤ sext32 s.p)
    (hr : inRange (pointIn .p1 s) (sext32 s.p) = false ∨ inRange (pointIn .p2 s) (sext32 s.p) = false) :
    exec .padd s = .next (failedWith 6 s) := by
  have hval : paddValue s = .error .badPoint := by
    rw [paddValue_legal hp]
    cases hv : inRange (pointIn .p1 s) (sext32 s.p) with
    | false => rw [checkPoint_stop hv, error_bind]
    | true =>
      have hw : inRange (pointIn .p2 s) (sext32 s.p) = false := hr.resolve_left (by simp [hv])
      rw [checkPoint_pass hv, ok_bind, checkPoint_stop hw, error_bind]
  exact finish_attempt_error hval _ s

/-- PADD on two points in range computes their sum. -/
theorem paddValue_of_inRange {s : State} {v w : Point} (hp : 2 ≤ sext32 s.p) (hv : pointIn .p1 s = v)
    (hw : pointIn .p2 s = w) (hrv : inRange v (sext32 s.p) = true) (hrw : inRange w (sext32 s.p) = true) :
    paddValue s = ecAdd v w (sext32 s.a) (sext32 s.p) := by
  rw [paddValue_legal hp, hv, hw, checkPoint_pass hrv, ok_bind, checkPoint_pass hrw, ok_bind]

theorem exec_padd_of_ok {s : State} {v w u : Point} (hp : 2 ≤ sext32 s.p) (hv : pointIn .p1 s = v)
    (hw : pointIn .p2 s = w) (hrv : inRange v (sext32 s.p) = true) (hrw : inRange w (sext32 s.p) = true)
    (h : ecAdd v w (sext32 s.a) (sext32 s.p) = .ok u) :
    exec .padd s = .next { s with r := tripleOf u, status := okStatus s.status } :=
  finish_attempt_ok ((paddValue_of_inRange hp hv hw hrv hrw).trans h) _ s

theorem exec_padd_of_error {s : State} {v w : Point} {e : ErrCode} (hp : 2 ≤ sext32 s.p) (hv : pointIn .p1 s = v)
    (hw : pointIn .p2 s = w) (hrv : inRange v (sext32 s.p) = true) (hrw : inRange w (sext32 s.p) = true)
    (h : ecAdd v w (sext32 s.a) (sext32 s.p) = .error e) : exec .padd s = .next (failedWith (errNumber e) s) :=
  finish_attempt_error ((paddValue_of_inRange hp hv hw hrv hrw).trans h) _ s

/-- Settles O29. With the checks passed PADD ends as `ecAdd` does, and each of its cases is a case of `ecAdd`. -/
theorem paddWritesTheSum : Obligations.PaddWritesTheSum := by
  rintro s _ v w rfl hv hw
  refine ⟨exec_padd_of_small, fun hp hbad => exec_padd_of_badPoint hp (by rwa [hv, hw]), fun hp hrv hrw => ?_⟩
  have hok {u} := exec_padd_of_ok (u := u) hp hv hw hrv hrw
  have herr := exec_padd_of_error (e := .noInverseExists) hp hv hw hrv hrw
  refine ⟨?identityLeft, ?identityRight, ?affine⟩
  case identityLeft =>
    rintro rfl
    exact hok (ecAdd_inf_left ..)
  case identityRight =>
    rintro rfl
    exact hok (ecAdd_inf_right ..)
  case affine =>
    rintro x1 y1 x2 y2 rfl rfl
    refine ⟨?cancel, ?double, ?general, ?noInverse⟩
    case cancel =>
      rintro rfl hy
      exact hok (ecAdd_cancel hy)
    case double =>
      rintro rfl rfl hy hg
      obtain ⟨x3, y3, hadd, hdouble⟩ := (ecAdd_double hp hy).1 hg
      exact ⟨x3, y3, hdouble, hok hadd⟩
    case general =>
      intro hx hg
      obtain ⟨x3, y3, hadd, hsum⟩ := (ecAdd_general hp hx).1 hg
      exact ⟨x3, y3, hsum, hok hadd⟩
    case noInverse =>
      rintro (⟨rfl, rfl, hy, hg⟩ | ⟨hx, hg⟩)
      · exact herr ((ecAdd_double hp hy).2 hg)
      · exact herr ((ecAdd_general hp hx).2 hg)

/-! PMUL. -/

theorem exec_pmul_of_small {s : State} (hp : sext32 s.p < 2) : exec .pmul s = .next (failedWith 5 s) := by
  obtain ⟨-, -, -, -, hpmul, -⟩ := values_small hp
  exact finish_attempt_error hpmul _ s

/-- R157: a point out of range ends PMUL with BadPoint, before the scalar is looked at. -/
theorem exec_pmul_of_badPoint {s : State} (hp : 2 ≤ sext32 s.p) (hr : inRange (pointIn .p1 s) (sext32 s.p) = false) :
    exec .pmul s = .next (failedWith 6 s) := by
  have hval : pmulValue s = .error .badPoint := by rw [pmulValue_legal hp, checkPoint_stop hr, error_bind]
  exact finish_attempt_error hval _ s

/-- R157: with the point in range a negative scalar ends PMUL with BadScalar. -/
theorem exec_pmul_of_badScalar {s : State} (hp : 2 ≤ sext32 s.p) (hr : inRange (pointIn .p1 s) (sext32 s.p) = true)
    (hk : sext32 s.k < 0) : exec .pmul s = .next (failedWith 7 s) := by
  have hval : pmulValue s = .error .badScalar := by
    rw [pmulValue_legal hp, checkPoint_pass hr, ok_bind, checkScalar_stop hk, error_bind]
  exact finish_attempt_error hval _ s

/-- PMUL on operands that pass their checks computes `scalarMul`. -/
theorem pmulValue_of_checked {s : State} (hp : 2 ≤ sext32 s.p) (hr : inRange (pointIn .p1 s) (sext32 s.p) = true)
    (hk : 0 ≤ sext32 s.k) : pmulValue s = scalarMul (pointIn .p1 s) (sext32 s.k) (sext32 s.a) (sext32 s.p) := by
  rw [pmulValue_legal hp, checkPoint_pass hr, ok_bind, checkScalar_pass hk, ok_bind]

theorem exec_pmul_of_ok {s : State} {u : Point} (hp : 2 ≤ sext32 s.p)
    (hr : inRange (pointIn .p1 s) (sext32 s.p) = true) (hk : 0 ≤ sext32 s.k)
    (h : scalarMul (pointIn .p1 s) (sext32 s.k) (sext32 s.a) (sext32 s.p) = .ok u) :
    exec .pmul s = .next { s with r := tripleOf u, status := okStatus s.status } :=
  finish_attempt_ok ((pmulValue_of_checked hp hr hk).trans h) _ s

theorem exec_pmul_of_error {s : State} {e : ErrCode} (hp : 2 ≤ sext32 s.p)
    (hr : inRange (pointIn .p1 s) (sext32 s.p) = true) (hk : 0 ≤ sext32 s.k)
    (h : scalarMul (pointIn .p1 s) (sext32 s.k) (sext32 s.a) (sext32 s.p) = .error e) :
    exec .pmul s = .next (failedWith (errNumber e) s) :=
  finish_attempt_error ((pmulValue_of_checked hp hr hk).trans h) _ s

/-- Settles O31. The checks come in the order of R157, and `scalarMul` fails only with NoInverseExists. -/
theorem pmulRunsDoubleAndAdd : Obligations.PmulRunsDoubleAndAdd := by
  rintro s _ rfl
  refine ⟨exec_pmul_of_small, exec_pmul_of_badPoint, exec_pmul_of_badScalar, fun hp hr hk => ?_⟩
  refine ⟨fun v h => exec_pmul_of_ok hp hr hk h, fun e h => ?_⟩
  obtain rfl := scalarMul_error h
  exact exec_pmul_of_error hp hr hk h

/-! The loop of `scalarMul` (R154). -/

/-- A pass handles one binary digit of the scalar, and the halved scalar bounds the passes that are left. -/
theorem mulLoop_digit {n : Nat} (hn : 0 < n) (r t : Point) (a p : Int) :
    mulLoop n r t n a p =
      (addWhenOdd n r t a p >>= fun r' => ecAdd t t a p >>= fun t' => mulLoop (n / 2) r' t' (n / 2) a p) := by
  obtain ⟨fuel, rfl⟩ : ∃ fuel, n = fuel + 1 := ⟨n - 1, by omega⟩
  have hhalf : (fuel + 1) / 2 ≤ fuel := by omega
  simp only [mulLoop_pass hn, mulLoop_fuel hhalf]

/-- Settles O32. A pass is `mulLoop_digit`; the start and the end of the loop are its definition. -/
theorem scalarMulConsumesTheBinaryDigits : Obligations.ScalarMulConsumesTheBinaryDigits := by
  intro v a p
  refine ⟨fun k _ => rfl, fun r t => ⟨rfl, fun n hn => ?_⟩⟩
  exact mulLoop_digit hn r t a p

end Sys2Proof.Machine

/-! The curve list and the command ENUM (42_enumerator.md R190 to R193): what the list holds, how ENUM ends, and what the
host reads of it. -/

namespace Sys2Proof.Machine

/-! The list. -/

theorem onCurve_iff {x y a b p : Int} : onCurve x y a b p = true ↔ p ∣ y * y - (x * x * x + a * x + b) :=
  decide_eq_true_iff.trans reduce_eq_reduce_iff

/-- R190: the loops reach every pair of residues, and the test keeps the solutions. -/
theorem mem_allPoints {x y p a b : Int} :
    (x, y) ∈ allPoints p a b ↔
      0 ≤ x ∧ x < p ∧ 0 ≤ y ∧ y < p ∧ p ∣ y * y - (x * x * x + a * x + b) := by
  simp [allPoints, mem_residues, onCurve_iff, and_assoc]

/-- R190: a loop runs through the residues in increasing order. -/
theorem residues_pairwise_lt (p : Int) : (residues p).Pairwise (· < ·) :=
  List.pairwise_lt_range.map _ fun _ _ => Int.ofNat_lt.mpr

/-- R190: points of one `x` are ordered by the inner loop, points of different `x` by the outer one. -/
theorem allPoints_pairwise (p a b : Int) :
    (allPoints p a b).Pairwise fun u v => u.1 < v.1 ∨ u.1 = v.1 ∧ u.2 < v.2 := by
  refine List.pairwise_flatMap.mpr ⟨fun x _ => ?sameX, (residues_pairwise_lt p).imp fun hx => ?differentX⟩
  case sameX =>
    exact ((residues_pairwise_lt p).filter _).map _ fun y y' hy => .inr ⟨rfl, hy⟩
  case differentX =>
    intro u hu v hv
    obtain ⟨y, -, rfl⟩ := List.mem_map.mp hu
    obtain ⟨y', -, rfl⟩ := List.mem_map.mp hv
    exact .inl hx

/-- Settles O36. The members are those of `mem_allPoints`, the order is that of the two loops. -/
theorem curveListIsEverySolutionInOrder : Obligations.CurveListIsEverySolutionInOrder :=
  fun p a b _ => ⟨fun _ _ => mem_allPoints, allPoints_pairwise p a b⟩

/-! How ENUM ends. -/

theorem exec_enum (s : State) : exec .enum s = finish (enumBody s) := rfl

theorem exec_enum_of_small {s : State} (hp : sext32 s.p < 2) : exec .enum s = .next (failedWith 5 s) := by
  rw [exec_enum, enumBody, checkModulus_small hp]
  rfl

/-- R192: a list longer than `NPT` ends ENUM with PointMemOverflow, PCOUNT and PTVALID 0. -/
theorem exec_enum_of_overflow {s : State} (hp : 2 ≤ sext32 s.p)
    (hl : npt s < (allPoints (sext32 s.p) (sext32 s.a) (sext32 s.b)).length) :
    exec .enum s = .next (complete (some .pointMemOverflow) 0 (setList [] 0 false s)) := by
  rw [exec_enum, enumBody_legal hp, enumWith, if_pos hl]
  rfl

/-- R191: a list that fits is stored from entry 0 on and ENUM completes. -/
theorem exec_enum_of_fits {s : State} {l : List (Int × Int)} (hl : l = allPoints (sext32 s.p) (sext32 s.a) (sext32 s.b))
    (hp : 2 ≤ sext32 s.p) (hfit : l.length ≤ npt s) :
    exec .enum s = .next (complete none 0 (setList (s.ptmem.writeFrom 0 l) l.length true s)) := by
  rw [exec_enum, enumBody_legal hp, ← hl, enumWith, if_neg hfit.not_gt]
  rfl

/-- Settles O37. ENUM's three ends; the stored run reads back, and entries past it are not written. -/
theorem enumStoresTheCurveListOrOverflows : Obligations.EnumStoresTheCurveListOrOverflows := by
  intro s l hl
  refine ⟨exec_enum_of_small, fun hp hfit => ?fits, fun hp hlong => ?overflows⟩
  case fits =>
    refine ⟨_, exec_enum_of_fits hl hp hfit, rfl, fun i hi => ?stored, fun i hi => ?past⟩
    case stored => simpa using Memory.read_writeFrom (m := s.ptmem) (base := 0) hi
    case past => exact Memory.read_writeFrom_after (m := s.ptmem) (base := 0) (by omega)
  case overflows => exact ⟨_, exec_enum_of_overflow hp (hl ▸ hlong), rfl⟩

/-! What the host reads. -/

theorem curveList_getElem? (s : State) (i : Nat) :
    (curveList s)[i]? = if i < s.pcount then some (ptEntry s i) else none := by
  by_cases h : i < s.pcount <;> simp [curveList, h]

/-- R37: PX reads the abscissa of entry PIDX of the curve list, and 0 at and past its end. -/
theorem regRead_px (s : State) : regRead .px s = enc32 (((curveList s)[s.pidx.toNat]?.map Prod.fst).getD 0) := by
  rw [curveList_getElem?, regRead]
  split <;> simp

/-- R37: PY reads the ordinate of entry PIDX of the curve list, and 0 at and past its end. -/
theorem regRead_py (s : State) : regRead .py s = enc32 (((curveList s)[s.pidx.toNat]?.map Prod.snd).getD 0) := by
  rw [curveList_getElem?, regRead]
  split <;> simp

/-- After an ENUM that completes without error the curve list is that of P, A and B: its other ends set ERR. -/
theorem curveList_of_exec_enum {s t : State} (h : exec .enum s = .next t) (herr : t.status.err = false) :
    curveList t = allPoints (sext32 s.p) (sext32 s.a) (sext32 s.b) := by
  rcases lt_or_ge (sext32 s.p) 2 with hp | hp
  · obtain rfl := Host.Outcome.next.inj ((exec_enum_of_small hp).symm.trans h)
    cases herr
  · rcases lt_or_ge (npt s) (allPoints (sext32 s.p) (sext32 s.a) (sext32 s.b)).length with hl | hl
    · obtain rfl := Host.Outcome.next.inj ((exec_enum_of_overflow hp hl).symm.trans h)
      cases herr
    · obtain rfl := Host.Outcome.next.inj ((exec_enum_of_fits rfl hp hl).symm.trans h)
      exact curveList_of_stored rfl rfl

/-- Settles O38. PX and PY are views of the curve list, which a write of PIDX leaves as ENUM stored it. -/
theorem hostReadsTheListThroughPidx : Obligations.HostReadsTheListThroughPidx := by
  intro s t i h herr hi
  have hlist : curveList { t with pidx := BitVec.ofNat 32 i } = allPoints (sext32 s.p) (sext32 s.a) (sext32 s.b) :=
    (curveList_congr (s := t) rfl rfl).trans (curveList_of_exec_enum h herr)
  have hidx : (BitVec.ofNat 32 i).toNat = i := by rw [BitVec.toNat_ofNat, Nat.mod_eq_of_lt hi]
  constructor
  · rw [regRead_px, hlist, hidx, enc32]
  · rw [regRead_py, hlist, hidx, enc32]

end Sys2Proof.Machine

/-! What PTVALID says (10_state.md R24, R27): what `ListInv` looks at, who leaves that unchanged, and who does not. -/

namespace Sys2Proof.Machine

/-- The part of the state `ListInv` speaks about: PTVALID, P, A, B, PCOUNT and the point memory. -/
def listView (s : State) : Bool × Word × Word × Word × Nat × Memory := (s.status.ptvalid, s.p, s.a, s.b, s.pcount, s.ptmem)

/-- `ListInv` depends on the view only. -/
theorem ListInv.of_listView {s t : State} (hs : ListInv s) (h : listView t = listView s) : ListInv t := by
  simp only [listView, Prod.mk.injEq] at h
  obtain ⟨hv, hp, ha, hb, hc, hm⟩ := h
  rw [ListInv, hv, hp, ha, hb, curveList_congr hc hm]
  exact hs

/-- With PTVALID 0 nothing is said about the list. -/
theorem listInv_of_not_ptvalid {s : State} (h : s.status.ptvalid = false) : ListInv s := fun hv => by simp [h] at hv

/-! Operations that keep the view. -/

@[simp] theorem listView_setTriple (t : PointReg) (v : Triple) (s : State) : listView (setTriple t v s) = listView s := by
  cases t <;> rfl

@[simp] theorem listView_pointOut (t : PointReg) (v : Point) (s : State) : listView (pointOut t v s) = listView s :=
  listView_setTriple t (tripleOf v) s

@[simp] theorem listView_setRn (w : Word) (s : State) : listView (setRn w s) = listView s := rfl

@[simp] theorem listView_setCodec (m h : Word) (s : State) : listView (setCodec m h s) = listView s := rfl

@[simp] theorem listView_complete (e : Option ErrCode) (n : BitVec 4) (s : State) :
    listView (complete e n s) = listView s := rfl

theorem listView_attempt {α : Type} (result : Except ErrCode α) {commit : α → State → State} (s : State)
    (h : ∀ v, listView (commit v s) = listView s) : listView (attempt result commit s).state = listView s := by
  cases result with
  | ok v => exact h v
  | error e => rfl

theorem listView_readRegister (name : RegName) (s : State) : listView (readRegister name s) = listView s := by
  rw [readRegister]
  split <;> rfl

/-- A host's word in a register of class RW: P, A and B are not of that class. -/
theorem listView_regStore {name : RegName} (h : writeClass name = .rw) (v : Word) (s : State) :
    listView (regStore name v s) = listView s := by
  cases name with
  | p | a | b => cases h
  | ptX t | ptY t | ptInf t =>
    rw [regStore]
    split
    · exact listView_setTriple ..
    · rfl
  | _ => rfl

/-! The commands. -/

/-- A body that keeps what PTVALID says. -/
def keepsListInv (body : State → Ran) : Prop := ∀ s, ListInv s → ListInv (body s).state

theorem keepsListInv_of_listView {body : State → Ran} (h : ∀ s, listView (body s).state = listView s) : keepsListInv body :=
  fun s hs => hs.of_listView (h s)

theorem keepsListInv_attempt {α : Type} (value : State → Except ErrCode α) {commit : α → State → State}
    (h : ∀ v s, listView (commit v s) = listView s) : keepsListInv fun s => attempt (value s) commit s :=
  keepsListInv_of_listView fun s => listView_attempt (value s) s (h · s)

/-- R191, R192: ENUM leaves the list as it was, or with PTVALID 0, or with the curve list of P, A and B stored. -/
theorem enumBody_keepsListInv : keepsListInv enumBody := by
  intro s hs
  rcases enumBody_cases s with ⟨-, h⟩ | ⟨-, -, h⟩ | ⟨hp, -, h⟩
  · rw [h]
    exact hs
  · rw [h]
    exact listInv_of_not_ptvalid rfl
  · rw [h]
    exact fun _ => ⟨hp, curveList_of_stored rfl rfl⟩

theorem keygenBody_keepsListInv : keepsListInv keygenBody :=
  keepsListInv_attempt keygenValue fun _ _ => by simp

theorem sharedBody_keepsListInv : keepsListInv sharedBody := by
  refine keepsListInv_of_listView fun s => ?_
  rcases sharedBody_cases s with ⟨e, h, -⟩ | ⟨v, w, -, -, -, h⟩
  · rw [h]
  · simp [h]

theorem encodeBody_keepsListInv : keepsListInv encodeBody := by
  refine keepsListInv_of_listView fun s => ?_
  rcases encodeBody_cases s with ⟨e, h, -⟩ | ⟨-, -, -, _, rfl, h | ⟨q, -, h⟩⟩
  · rw [h]
  · simp [h]
  · simp [h]

theorem encryptBody_keepsListInv : keepsListInv encryptBody :=
  keepsListInv_attempt encryptValue fun _ _ => by simp

/-- A run of steps keeps what each of its bodies keeps. -/
theorem runSteps_listInv {steps : List (BitVec 4 × (State → Ran))} (h : ∀ x ∈ steps, keepsListInv x.2) {s : State}
    (hs : ListInv s) : ListInv (runSteps steps s) := by
  induction steps generalizing s with
  | nil => exact hs
  | cons x rest ih =>
    obtain ⟨hx, hrest⟩ := List.forall_mem_cons.mp h
    rw [runSteps]
    split
    · exact ih hrest (hx s hs)
    · exact (hx s hs).of_listView rfl

theorem finish_listInv {body : State → Ran} (hb : keepsListInv body) {s t : State} (hs : ListInv s)
    (h : finish (body s) = .next t) : ListInv t := by
  obtain rfl := Host.Outcome.next.inj h
  exact (hb s hs).of_listView (listView_complete ..)

theorem exec_listInv {i : Instr} {s t : State} (hs : ListInv s) (h : exec i s = .next t) : ListInv t := by
  cases i with
  | nop => exact finish_listInv (body := fun s => ⟨s, none⟩) (fun _ hs => hs) hs h
  | reduce => exact finish_listInv (keepsListInv_attempt reduceValue fun r => listView_setRn (enc32 r)) hs h
  | inv => exact finish_listInv (keepsListInv_attempt invValue fun r => listView_setRn (enc32 r)) hs h
  | pdbl => exact finish_listInv (keepsListInv_attempt pdblValue (listView_pointOut .r)) hs h
  | padd => exact finish_listInv (keepsListInv_attempt paddValue (listView_pointOut .r)) hs h
  | pmul => exact finish_listInv (keepsListInv_attempt pmulValue (listView_pointOut .r)) hs h
  | enum => exact finish_listInv enumBody_keepsListInv hs h
  | encode => exact finish_listInv encodeBody_keepsListInv hs h
  | keygen => exact finish_listInv keygenBody_keepsListInv hs h
  | shared => exact finish_listInv sharedBody_keepsListInv hs h
  | encrypt => exact finish_listInv encryptBody_keepsListInv hs h
  | ecdh =>
    obtain rfl := Host.Outcome.next.inj h
    refine runSteps_listInv ?_ hs
    simp [ecdhSteps, enumBody_keepsListInv, keygenBody_keepsListInv, sharedBody_keepsListInv, encodeBody_keepsListInv,
      encryptBody_keepsListInv]

/-! The host. -/

/-- R27: a write of P, A or B clears PTVALID; every other write keeps the view. -/
theorem writeRegister_listInv {s : State} (hs : ListInv s) (name : RegName) (v : Word) :
    ListInv (writeRegister name v s) := by
  by_cases hn : name = .status
  · rw [hn, writeRegister_status]
    exact hs.of_listView rfl
  cases hb : s.status.busy with
  | true =>
    rw [writeRegister_busy hb hn]
    exact hs.of_listView rfl
  | false =>
    rw [writeRegister_idle hb hn]
    cases hc : writeClass name with
    | ro | status => exact hs
    | rw => exact hs.of_listView (listView_regStore hc v s)
    | cmd => exact hs.of_listView rfl
    | param => exact listInv_of_not_ptvalid rfl

/-- Settles O54. Only a write of P, A or B, ENUM, ECDH and reset change what PTVALID speaks of, and each leaves PTVALID 0 or
the curve list of the current P, A and B. -/
theorem validListBelongsToTheCurrentCurve : Obligations.ValidListBelongsToTheCurrentCurve := by
  intro s t hs hstep
  have hs0 : ListInv (withAgenda s.agenda.tail s) := hs.of_listView rfl
  cases step_effect hstep with
  | idle _ same => exact same ▸ hs0
  | command _ _ _ ran => exact exec_listInv hs0 ran
  | illegal _ _ _ failed => exact failed ▸ hs0.of_listView rfl
  | reset zeroed => exact zeroed ▸ listInv_of_not_ptvalid rfl
  | busError _ answered => exact answered ▸ hs0.of_listView rfl
  | read name answered => exact answered ▸ hs0.of_listView (listView_readRegister name _)
  | write name v written => exact written ▸ (writeRegister_listInv hs0 name v).of_listView rfl

end Sys2Proof.Machine

/-! The command ENCODE (43_codec.md R210 to R213): the codec's power of two, the search of the curve list, and how ENCODE
ends. -/

namespace Sys2Proof.Machine

/-! The power of two. -/

theorem doubleUntil_of_le (fuel : Nat) {c m : Int} (h : m ≤ c) : doubleUntil fuel c m = c := by
  cases fuel with
  | zero => rfl
  | succ more => exact if_neg h.not_gt

/-- Only a `c` below `m` is doubled, so the loop stays below `2 * m`. -/
theorem doubleUntil_lt_two_mul (fuel : Nat) {c m : Int} (h : c < 2 * m) : doubleUntil fuel c m < 2 * m := by
  induction fuel generalizing c with
  | zero => exact h
  | succ more ih =>
    rw [doubleUntil]
    split
    · exact ih (by omega)
    · exact h

theorem chooseM_of_le_one {m : Int} (h : m ≤ 1) : chooseM m = 1 := doubleUntil_of_le m.toNat h

theorem chooseM_eq_pow (m : Int) : ∃ k : Nat, chooseM m = 2 ^ k := doubleUntil_pow m.toNat 0 m

theorem le_chooseM (m : Int) : m ≤ chooseM m := doubleUntil_reaches m.toNat le_rfl (by omega)

theorem chooseM_lt_two_mul {m : Int} (h : 1 < m) : chooseM m < 2 * m := doubleUntil_lt_two_mul m.toNat (by omega)

/-- R210: a power of two below `M` is at most half of it, which is below `m`. -/
theorem chooseM_le_pow {m : Int} {k : Nat} (h : m ≤ 2 ^ k) : chooseM m ≤ 2 ^ k := by
  rcases le_or_gt m 1 with hm | hm
  · exact (chooseM_of_le_one hm).trans_le (one_le_pow₀ one_le_two)
  · obtain ⟨j, hj⟩ := chooseM_eq_pow m
    have hlt : (2 : Int) ^ j < 2 ^ (k + 1) := by
      have := chooseM_lt_two_mul hm
      rw [pow_succ]
      omega
    have hjk : j < k + 1 := (pow_lt_pow_iff_right₀ one_lt_two).mp hlt
    exact hj.trans_le (pow_le_pow_right₀ one_le_two (by omega))

/-- Settles O39. The loop ends on a power of two between `m` and `2 * m`, and there is only one. -/
theorem codecPowerIsTheSmallestNotBelowTheMessage : Obligations.CodecPowerIsTheSmallestNotBelowTheMessage :=
  fun m => ⟨chooseM_eq_pow m, le_chooseM m, chooseM_of_le_one, chooseM_lt_two_mul, fun _ => chooseM_le_pow⟩

/-! The search. -/

/-- R212: a candidate abscissa that the list does not hold is passed over. -/
theorem searchFrom_miss {l : List (Int × Int)} {m h p j : Int} (hmiss : ∀ q ∈ l, q.1 ≠ reduce (m * h + j) p)
    (count : Nat) : searchFrom l m h p (count + 1) j = searchFrom l m h p count (j + 1) := by
  have hnone : l.find? (fun q => decide (q.1 = reduce (m * h + j) p)) = none := by simpa using hmiss
  simp only [searchFrom, hnone]

/-- R212: at a candidate abscissa that the list holds, the search answers its first point there. -/
theorem searchFrom_hit {l : List (Int × Int)} {m h p j : Int} {q : Int × Int}
    (hq : l.find? (fun q => decide (q.1 = reduce (m * h + j) p)) = some q) (count : Nat) :
    searchFrom l m h p (count + 1) j = .ok (.aff q.1 q.2) := by
  simp only [searchFrom, hq]

/-- A run of candidates that the list does not hold is passed over. -/
theorem searchFrom_miss_run {l : List (Int × Int)} {m h p : Int} (n count : Nat) {j : Int}
    (hmiss : ∀ j', j ≤ j' → j' < j + n → ∀ q ∈ l, q.1 ≠ reduce (m * h + j') p) :
    searchFrom l m h p (n + count) j = searchFrom l m h p count (j + n) := by
  induction n generalizing j with
  | zero => simp
  | succ n ih =>
    push_cast at hmiss
    rw [Nat.add_right_comm, searchFrom_miss (hmiss j le_rfl (by omega)),
      ih fun j' h1 h2 => hmiss j' (by omega) (by omega)]
    push_cast
    rw [add_assoc, add_comm 1]

/-- R212: with no candidate in the list the search ends with EncodingNotFound. -/
theorem encodePoint_of_absent {l : List (Int × Int)} {m p : Int}
    (hmiss : ∀ j, 0 ≤ j → j < slotWidth p m → ∀ q ∈ l, q.1 ≠ reduce (m * slotWidth p m + j) p) :
    encodePoint m l p = .error .encodingNotFound :=
  searchFrom_miss_run (slotWidth p m).toNat 0 fun j h0 hj => hmiss j h0 (by omega)

/-- R212: the search answers the first point of the list at the first candidate that the list holds. -/
theorem encodePoint_of_first {l : List (Int × Int)} {m p j : Int} {q : Int × Int} (h0 : 0 ≤ j)
    (hj : j < slotWidth p m)
    (hq : l.find? (fun q => decide (q.1 = reduce (m * slotWidth p m + j) p)) = some q)
    (hmiss : ∀ j', 0 ≤ j' → j' < j → ∀ q ∈ l, q.1 ≠ reduce (m * slotWidth p m + j') p) :
    encodePoint m l p = .ok (.aff q.1 q.2) := by
  lift j to Nat using h0
  obtain ⟨count, hcount⟩ : ∃ count, (slotWidth p m).toNat = j + (count + 1) :=
    ⟨(slotWidth p m).toNat - (j + 1), by omega⟩
  rw [encodePoint, hcount, searchFrom_miss_run j _ fun j' h1 h2 => hmiss j' h1 (by omega), zero_add,
    searchFrom_hit hq]

/-! The curve list, entry by entry. -/

theorem forall_mem_curveList {s : State} {P : Int × Int → Prop} :
    (∀ q ∈ curveList s, P q) ↔ ∀ i < s.pcount, P (ptEntry s i) := by
  simp [curveList]

/-- The first entry of the curve list with a given abscissa is what a search for that abscissa finds. -/
theorem curveList_find?_abscissa {s : State} {i : Nat} {x : Int} (hi : i < s.pcount) (hx : (ptEntry s i).1 = x)
    (hfirst : ∀ i' < i, (ptEntry s i').1 ≠ x) :
    (curveList s).find? (fun q => decide (q.1 = x)) = some (ptEntry s i) := by
  refine List.find?_eq_some_iff_getElem.mpr ⟨by simpa using hx, i, by simpa [curveList] using hi, ?_, fun i' hi' => ?_⟩
  · simp [curveList]
  · simpa [curveList] using hfirst i' hi'

/-! How ENCODE ends. -/

theorem exec_encode (s : State) : exec .encode s = finish (encodeBody s) := rfl

/-- R213: a check that fails ends ENCODE with nothing written. -/
theorem exec_encode_of_check_error {s : State} {e : ErrCode} (h : encodeChecks s = .error e) :
    exec .encode s = .next (failedWith (errNumber e) s) := by
  rw [exec_encode, encodeBody, h]
  rfl

theorem encodeChecks_pass {s : State} (hp : 2 ≤ sext32 s.p) (hv : s.status.ptvalid = true) (hc : 0 < s.pcount) :
    encodeChecks s = .ok (sext32 s.p) := by
  rw [encodeChecks_legal hp, if_neg (by simp [hv]), if_neg hc.ne']

/-- R213: with the checks passed and a point found, ENCODE writes `M`, `h` and the point. -/
theorem exec_encode_of_ok {s : State} {p : Int} {v : Point} (hc : encodeChecks s = .ok p)
    (h : encodePoint (sext32 s.msg) (curveList s) p = .ok v) :
    exec .encode s = .next { s with
      mreg := enc32 (chooseM (sext32 s.msg)), hreg := enc32 (slotWidth p (sext32 s.msg)), qm := tripleOf v
      status := okStatus s.status } := by
  rw [exec_encode, encodeBody, hc]
  exact finish_attempt_ok h _ _

/-- R213: with the checks passed and no point found, ENCODE writes `M` and `h`, and QM is unchanged. -/
theorem exec_encode_of_error {s : State} {p : Int} {e : ErrCode} (hc : encodeChecks s = .ok p)
    (h : encodePoint (sext32 s.msg) (curveList s) p = .error e) :
    exec .encode s = .next { s with
      mreg := enc32 (chooseM (sext32 s.msg)), hreg := enc32 (slotWidth p (sext32 s.msg))
      status := errStatus s.status (errNumber e) 0 } := by
  rw [exec_encode, encodeBody, hc]
  exact finish_attempt_error h _ _

/-- Settles O40. The checks come in the order of `encodeChecks_legal`; after them ENCODE ends as the search does. -/
theorem encodeWritesTheFirstPointOfTheFirstCandidate : Obligations.EncodeWritesTheFirstPointOfTheFirstCandidate := by
  rintro s _ _ _ rfl rfl rfl
  refine ⟨?modulus, ?notEnumerated, ?noPoints, fun hp hv hc => ⟨?found, ?notFound⟩⟩
  case modulus =>
    intro hp
    obtain ⟨-, -, -, -, -, -, -, -, hchecks⟩ := values_small hp
    exact exec_encode_of_check_error hchecks
  case notEnumerated =>
    intro hp hv
    exact exec_encode_of_check_error (e := .notEnumerated) (by rw [encodeChecks_legal hp, if_pos hv])
  case noPoints =>
    intro hp hv hc
    exact exec_encode_of_check_error (e := .degenerateCurve)
      (by rw [encodeChecks_legal hp, if_neg (by simp [hv]), if_pos hc])
  case found =>
    intro j i h0 hj hi hx hfirstX hfirst
    refine exec_encode_of_ok (encodeChecks_pass hp hv hc)
      (encodePoint_of_first h0 hj (curveList_find?_abscissa hi hx hfirst) fun j' h0' hj' => ?_)
    exact forall_mem_curveList.mpr fun i' => hfirstX j' i' h0' hj'
  case notFound =>
    intro habsent
    refine exec_encode_of_error (encodeChecks_pass hp hv hc) (encodePoint_of_absent fun j h0 hj => ?_)
    exact forall_mem_curveList.mpr fun i => habsent j i h0 hj

end Sys2Proof.Machine

/-! The record of a command's end (60_exceptions.md R301, 44_orchestrator.md R234): which codes and which steps it can hold,
and that every step keeps the fields of STATUS in agreement with one another and with CMD. -/

namespace Sys2Proof.Machine

/-! What a body can report. -/

/-- CMD and PTVALID are as given. -/
def issuedWith (w : Word) (valid : Bool) (s : State) : Prop := s.cmd = w ∧ s.status.ptvalid = valid

/-- With CMD and PTVALID as given, the body keeps both, and an error it ends with has one of the numbers `codes`. -/
def runsWithin (w : Word) (valid : Bool) (codes : List (BitVec 4)) (body : State → Ran) : Prop :=
  ∀ s, issuedWith w valid s → issuedWith w valid (body s).state ∧ ∀ e, (body s).error = some e → errNumber e ∈ codes

theorem runsWithin_attempt {α : Type} {w : Word} {valid : Bool} {errors : List ErrCode} {codes : List (BitVec 4)}
    {value : State → Except ErrCode α} {good : State → α → Prop} {commit : α → State → State}
    (hvalue : ∀ s, endsIn (value s) errors (good s)) (hcodes : ∀ e ∈ errors, errNumber e ∈ codes)
    (hcmd : ∀ v s, (commit v s).cmd = s.cmd) (hstatus : ∀ v s, (commit v s).status = s.status) :
    runsWithin w valid codes fun s => attempt (value s) commit s := by
  intro s hs
  obtain ⟨e, he, hmem⟩ | ⟨v, hv, -⟩ := hvalue s
  · simp only [attempt, he]
    exact ⟨hs, by rintro _ ⟨⟩; exact hcodes e hmem⟩
  · simp only [attempt, hv]
    exact ⟨by simpa [issuedWith, hcmd, hstatus] using hs, by rintro _ ⟨⟩⟩

section

variable {w : Word} {valid : Bool} {codes : List (BitVec 4)}

theorem keygenBody_runsWithin
    (hcodes : ∀ e ∈ [ErrCode.badModulus, .badPoint, .badScalar, .noInverseExists], errNumber e ∈ codes) :
    runsWithin w valid codes keygenBody :=
  runsWithin_attempt keygenValue_ends hcodes (fun _ _ => by simp) fun _ _ => by simp

theorem sharedBody_runsWithin
    (hcodes : ∀ e ∈ [ErrCode.badModulus, .badPoint, .badScalar, .noInverseExists, .secretMismatch], errNumber e ∈ codes) :
    runsWithin w valid codes sharedBody := by
  intro s hs
  rcases sharedBody_cases s with ⟨e, h, hmem⟩ | ⟨u, v, -, -, -, h⟩
  · rw [h]
    exact ⟨hs, by rintro _ ⟨⟩; exact hcodes e (List.mem_append_left [ErrCode.secretMismatch] hmem)⟩
  · rw [h]
    refine ⟨by simpa [issuedWith] using hs, fun e he => ?_⟩
    obtain rfl : .secretMismatch = e := by simpa using (Option.ite_none_left_eq_some.mp he).2
    exact hcodes _ (by simp)

theorem encodeChecks_ne_notEnumerated {s : State} (h : s.status.ptvalid = true) :
    encodeChecks s ≠ .error .notEnumerated := by
  rcases checkModulus_cases s with ⟨hp, -⟩ | ⟨hp, -⟩
  · rw [encodeChecks_legal hp, if_neg (by simp [h])]
    split <;> simp
  · obtain ⟨-, -, -, -, -, -, -, -, hchecks⟩ := values_small hp
    simp [hchecks]

/-- ENCODE reports NotEnumerated only while PTVALID is 0. -/
theorem encodeBody_runsWithin
    (hcodes : ∀ e ∈ [ErrCode.badModulus, .degenerateCurve, .encodingNotFound], errNumber e ∈ codes)
    (hnot : valid = false → errNumber .notEnumerated ∈ codes) : runsWithin w valid codes encodeBody := by
  intro s hs
  rcases encodeBody_cases s with ⟨e, h, hchecks, hmem⟩ | ⟨-, -, -, _, rfl, h | ⟨q, -, h⟩⟩
  · rw [h]
    refine ⟨hs, ?_⟩
    rintro _ ⟨⟩
    by_cases he : e = .notEnumerated
    · subst he
      exact hnot (by rw [← hs.2]; exact Bool.eq_false_iff.mpr fun hv => encodeChecks_ne_notEnumerated hv hchecks)
    · exact hcodes e (by simp only [List.mem_cons] at hmem ⊢; tauto)
  · rw [h]
    exact ⟨hs, by rintro _ ⟨⟩; exact hcodes _ (by simp)⟩
  · rw [h]
    exact ⟨by simpa [issuedWith] using hs, by rintro _ ⟨⟩⟩

theorem encryptBody_runsWithin
    (hcodes : ∀ e ∈ [ErrCode.badModulus, .badPoint, .noInverseExists], errNumber e ∈ codes) :
    runsWithin w valid codes encryptBody :=
  runsWithin_attempt encryptValue_ends hcodes (fun _ _ => by simp) fun _ _ => by simp

end

/-! What a command can report. -/

/-- The state is a completion with the word `w` in CMD: without error, or with an error whose number is one of `codes`, in a
step that is one of `numbers`. -/
def completedWithin (w : Word) (codes numbers : List (BitVec 4)) (t : State) : Prop :=
  ∃ s, s.cmd = w ∧ (t = complete none 0 s ∨ ∃ e n, errNumber e ∈ codes ∧ n ∈ numbers ∧ t = complete (some e) n s)

theorem completedWithin_mono {w : Word} {codes numbers more : List (BitVec 4)} {t : State} (hsub : ∀ n ∈ numbers, n ∈ more)
    (h : completedWithin w codes numbers t) : completedWithin w codes more t := by
  obtain ⟨s, hw, rfl | ⟨e, n, he, hn, rfl⟩⟩ := h
  · exact ⟨s, hw, .inl rfl⟩
  · exact ⟨s, hw, .inr ⟨e, n, he, hsub n hn, rfl⟩⟩

/-- The step numbers a command can record with an error: those of ECDH's steps, and 0 for every other command (R234). -/
def recordedSteps : Instr → List (BitVec 4)
  | .ecdh => [1, 2, 3, 4, 5]
  | _ => [0]

theorem recordedSteps_of_ne_ecdh {i : Instr} (h : i ≠ .ecdh) : recordedSteps i = [0] := by
  cases i with
  | ecdh => exact absurd rfl h
  | _ => rfl

theorem completedWithin_finish {codes : List (BitVec 4)} {body : State → Ran} {s t : State}
    (hb : runsWithin s.cmd s.status.ptvalid codes body) (h : finish (body s) = .next t) :
    completedWithin s.cmd codes [0] t := by
  obtain rfl := Host.Outcome.next.inj h
  obtain ⟨⟨hcmd, -⟩, herr⟩ := hb s ⟨rfl, rfl⟩
  refine ⟨(body s).state, hcmd, ?_⟩
  cases he : (body s).error with
  | none => exact .inl rfl
  | some e => exact .inr ⟨e, 0, herr e he, List.mem_singleton_self 0, rfl⟩

/-- A run of steps completes without error, or with an error of one of its bodies in that body's step. -/
theorem completedWithin_runSteps {w : Word} {valid : Bool} {codes : List (BitVec 4)}
    {steps : List (BitVec 4 × (State → Ran))} (h : ∀ x ∈ steps, runsWithin w valid codes x.2) {s : State}
    (hs : issuedWith w valid s) : completedWithin w codes (steps.map Prod.fst) (runSteps steps s) := by
  induction steps generalizing s with
  | nil => exact ⟨s, hs.1, .inl rfl⟩
  | cons x rest ih =>
    obtain ⟨hx, hrest⟩ := List.forall_mem_cons.mp h
    obtain ⟨hkeep, herr⟩ := hx s hs
    rw [runSteps]
    cases he : (x.2 s).error with
    | none => exact completedWithin_mono (fun n hn => List.mem_cons_of_mem _ hn) (ih hrest hkeep)
    | some e => exact ⟨_, hkeep.1, .inr ⟨e, x.1, herr e he, List.mem_cons_self .., rfl⟩⟩

/-- R191, R192: ENUM completes with PTVALID set, or with BadModulus or PointMemOverflow. -/
theorem enumBody_report (s : State) :
    (enumBody s).state.cmd = s.cmd ∧
      ((enumBody s).error = none ∧ (enumBody s).state.status.ptvalid = true ∨
        ∃ e, (enumBody s).error = some e ∧ e ∈ [ErrCode.badModulus, .pointMemOverflow]) := by
  rcases enumBody_cases s with ⟨-, h⟩ | ⟨-, -, h⟩ | ⟨-, -, h⟩ <;> simp [h]

theorem exec_enum_completedWithin {s t : State} (h : exec .enum s = .next t) :
    completedWithin s.cmd (commandCodes .enum) [0] t := by
  obtain rfl := Host.Outcome.next.inj h
  obtain ⟨hcmd, ⟨he, -⟩ | ⟨e, he, hmem⟩⟩ := enumBody_report s
  · exact ⟨_, hcmd, .inl (by rw [he])⟩
  · have hcodes : ∀ e ∈ [ErrCode.badModulus, .pointMemOverflow], errNumber e ∈ commandCodes .enum := by decide
    exact ⟨_, hcmd, .inr ⟨e, 0, hcodes e hmem, List.mem_singleton_self 0, by rw [he]⟩⟩

/-- ECDH never reports NotEnumerated: its first step sets PTVALID or ends it. -/
theorem exec_ecdh_completedWithin {s t : State} (h : exec .ecdh s = .next t) :
    completedWithin s.cmd (commandCodes .ecdh) (recordedSteps .ecdh) t := by
  obtain rfl := Host.Outcome.next.inj h
  rw [ecdhSteps, runSteps]
  obtain ⟨hcmd, ⟨he, hv⟩ | ⟨e, he, hmem⟩⟩ := enumBody_report s
  · rw [he]
    refine completedWithin_mono (fun n hn => List.mem_cons_of_mem 1 hn)
      (completedWithin_runSteps (valid := true) ?_ ⟨hcmd, hv⟩)
    exact List.forall_mem_cons.mpr ⟨keygenBody_runsWithin (by decide),
      List.forall_mem_cons.mpr ⟨sharedBody_runsWithin (by decide),
        List.forall_mem_cons.mpr ⟨encodeBody_runsWithin (by decide) nofun,
          List.forall_mem_singleton.mpr (encryptBody_runsWithin (by decide))⟩⟩⟩
  · rw [he]
    have hcodes : ∀ e ∈ [ErrCode.badModulus, .pointMemOverflow], errNumber e ∈ commandCodes .ecdh := by decide
    exact ⟨_, hcmd, .inr ⟨e, 1, hcodes e hmem, by decide, rfl⟩⟩

/-- R301, R234: what any command can record. -/
theorem exec_completedWithin {i : Instr} {s t : State} (h : exec i s = .next t) :
    completedWithin s.cmd (commandCodes i) (recordedSteps i) t := by
  cases i with
  | nop => exact completedWithin_finish (body := fun s => ⟨s, none⟩) (fun s hs => ⟨hs, by rintro _ ⟨⟩⟩) h
  | reduce =>
    exact completedWithin_finish
      (runsWithin_attempt (commit := fun r => setRn (enc32 r)) reduceValue_ends (by decide) (fun _ _ => rfl) fun _ _ => rfl) h
  | inv =>
    exact completedWithin_finish
      (runsWithin_attempt (commit := fun r => setRn (enc32 r)) invValue_ends (by decide) (fun _ _ => rfl) fun _ _ => rfl) h
  | pdbl => exact completedWithin_finish (runsWithin_attempt pdblValue_ends (by decide) (pointOut_cmd _) (pointOut_status _)) h
  | padd => exact completedWithin_finish (runsWithin_attempt paddValue_ends (by decide) (pointOut_cmd _) (pointOut_status _)) h
  | pmul => exact completedWithin_finish (runsWithin_attempt pmulValue_ends (by decide) (pointOut_cmd _) (pointOut_status _)) h
  | enum => exact exec_enum_completedWithin h
  | encode => exact completedWithin_finish (encodeBody_runsWithin (by decide) fun _ => by decide) h
  | keygen => exact completedWithin_finish (keygenBody_runsWithin (by decide)) h
  | shared => exact completedWithin_finish (sharedBody_runsWithin (by decide)) h
  | encrypt => exact completedWithin_finish (encryptBody_runsWithin (by decide)) h
  | ecdh => exact exec_ecdh_completedWithin h

theorem zero_mem_commandCodes (i : Instr) : 0 ∈ commandCodes i := by cases i <;> decide

/-- R301: a completion sets ERR exactly when the number it records is not 0. -/
theorem complete_err_iff (e : Option ErrCode) (n : BitVec 4) (s : State) :
    (complete e n s).status.err = true ↔ (complete e n s).status.errcode ≠ 0 := by
  cases e with
  | none => exact iff_of_false Bool.false_ne_true (not_not.mpr rfl)
  | some e => exact iff_of_true rfl (errNumber_range e).1

/-- Settles O50. The codes are those of `exec_completedWithin`; its steps are 0 alone for every command but ECDH. -/
theorem errorCodesAndStepsAreThoseOfTheTable : Obligations.ErrorCodesAndStepsAreThoseOfTheTable := by
  intro i s t h
  obtain ⟨s', -, rfl | ⟨e, n, he, hn, rfl⟩⟩ := exec_completedWithin h
  · exact ⟨zero_mem_commandCodes i, complete_err_iff none 0 s', fun _ => rfl, nofun⟩
  · refine ⟨he, complete_err_iff (some e) n s', ?_, ?_⟩
    · rintro (hi | herr)
      · rw [recordedSteps_of_ne_ecdh hi] at hn
        exact List.mem_singleton.mp hn
      · cases herr
    · rintro rfl -
      have hrange : ∀ n ∈ recordedSteps .ecdh, 1 ≤ n.toNat ∧ n.toNat ≤ 5 := by decide
      exact hrange n hn

/-! The invariant. -/

/-- The part of the state `StatusInv` speaks about: CMD, and STATUS but for PTVALID and BUSYWR. -/
def reportView (s : State) : Word × Bool × Bool × Bool × BitVec 4 × BitVec 4 :=
  (s.cmd, s.status.busy, s.status.done, s.status.err, s.status.errcode, s.status.errstep)

/-- `StatusInv` depends on the view only. -/
theorem StatusInv.of_reportView {s t : State} (hs : StatusInv s) (h : reportView t = reportView s) : StatusInv t := by
  simp only [reportView, Prod.mk.injEq] at h
  obtain ⟨hcmd, hbusy, hdone, herr, hcode, hstep⟩ := h
  constructor
  case err => rw [herr, hcode]; exact hs.err
  case code => rw [hcode]; exact hs.code
  case stepRange => rw [hstep]; exact hs.stepRange
  case stepError => rw [hstep, herr, hcmd]; exact hs.stepError
  case ecdhStep => rw [hstep, herr, hcmd]; exact hs.ecdhStep
  case running => rw [hbusy, hdone, herr]; exact hs.running

theorem statusInv_of_noReport {s : State} (herr : s.status.err = false) (hcode : s.status.errcode = 0)
    (hstep : s.status.errstep = 0) (hrun : s.status.busy = true → s.status.done = false) : StatusInv s := by
  constructor <;> simp_all

/-- A completion with an error keeps STATUS consistent when a step number is recorded exactly for ECDH. -/
theorem statusInv_complete_some {e : ErrCode} {n : BitVec 4} {s : State} (hn : n.toNat ≤ 5)
    (hstep : n ≠ 0 ↔ decode s.cmd = .ok .ecdh) : StatusInv (complete (some e) n s) where
  err := complete_err_iff (some e) n s
  code := (errNumber_range e).2
  stepRange := hn
  stepError h := ⟨rfl, hstep.mp h⟩
  ecdhStep _ h := hstep.mpr h
  running h := by cases h

theorem exec_statusInv {i : Instr} {s t : State} (hword : decode s.cmd = .ok i) (h : exec i s = .next t) :
    StatusInv t := by
  obtain ⟨s', hcmd, rfl | ⟨e, n, -, hn, rfl⟩⟩ := exec_completedWithin h
  · exact statusInv_of_noReport rfl rfl rfl nofun
  · rw [← hcmd] at hword
    by_cases hi : i = .ecdh
    · subst hi
      have hrange : ∀ n ∈ recordedSteps .ecdh, n.toNat ≤ 5 ∧ n ≠ 0 := by decide
      exact statusInv_complete_some (hrange n hn).1 (iff_of_true (hrange n hn).2 hword)
    · rw [recordedSteps_of_ne_ecdh hi, List.mem_singleton] at hn
      subst hn
      exact statusInv_complete_some (Nat.zero_le 5) (iff_of_false (by simp) (by simp [hword, hi]))

theorem reportView_readRegister (name : RegName) (s : State) : reportView (readRegister name s) = reportView s := by
  rw [readRegister]
  split <;> rfl

theorem reportView_regStore (name : RegName) (v : Word) (s : State) : reportView (regStore name v s) = reportView s := by
  simp [reportView]

/-- R67, R270: a host write keeps CMD and the report, or issues a command, which clears the report. -/
theorem writeRegister_statusInv {s : State} (hs : StatusInv s) (name : RegName) (v : Word) :
    StatusInv (writeRegister name v s) := by
  by_cases hn : name = .status
  · rw [hn, writeRegister_status]
    exact hs.of_reportView rfl
  cases hb : s.status.busy with
  | true =>
    rw [writeRegister_busy hb hn]
    exact hs.of_reportView rfl
  | false =>
    rw [writeRegister_idle hb hn]
    cases writeClass name with
    | ro | status => exact hs
    | rw => exact hs.of_reportView (reportView_regStore name v s)
    | cmd => exact statusInv_of_noReport rfl rfl rfl fun _ => rfl
    | param => exact hs.of_reportView (by simp [reportView])

/-- Settles O55. A completion records what `exec_completedWithin` allows for the command in CMD; an issue and a reset clear
the report; every other turn keeps it. -/
theorem stepKeepsStatusConsistent : Obligations.StepKeepsStatusConsistent := by
  intro s t hs hstep
  have hs0 : StatusInv (withAgenda s.agenda.tail s) := hs.of_reportView rfl
  cases step_effect hstep with
  | idle _ same => exact same ▸ hs0
  | command i _ word ran => exact exec_statusInv word ran
  | illegal why _ word failed =>
    have hdone : StatusInv (complete (some .illegalCommand) 0 (withAgenda s.agenda.tail s)) :=
      statusInv_complete_some (Nat.zero_le 5) (iff_of_false (by simp) (by rw [word]; nofun))
    exact failed ▸ hdone
  | reset zeroed => exact zeroed ▸ statusInv_of_noReport rfl rfl rfl nofun
  | busError _ answered => exact answered ▸ hs0.of_reportView rfl
  | read name answered => exact answered ▸ hs0.of_reportView (reportView_readRegister name _)
  | write name v written => exact written ▸ (writeRegister_statusInv hs0 name v).of_reportView rfl

end Sys2Proof.Machine

/-! The commands KEYGEN, SHARED and ENCRYPT (44_orchestrator.md R230 to R232): how each ends, given what the group law
answers. -/

namespace Sys2Proof.Machine

/-! Two checks, and two multiplications, one after the other. -/

theorem checkPoint_pair_stop {α : Type} {v w : Point} {p : Int} (h : inRange v p = false ∨ inRange w p = false)
    (f : Except ErrCode α) : (do checkPoint v p; checkPoint w p; f) = .error .badPoint := by
  cases hv : inRange v p with
  | false => rw [checkPoint_stop hv, error_bind]
  | true =>
    have hw : inRange w p = false := h.resolve_left (by simp [hv])
    rw [checkPoint_pass hv, ok_bind, checkPoint_stop hw, error_bind]

theorem checkScalar_pair_stop {α : Type} {k l : Int} (h : k < 0 ∨ l < 0) (f : Except ErrCode α) :
    (do checkScalar k; checkScalar l; f) = .error .badScalar := by
  rcases lt_or_ge k 0 with hk | hk
  · rw [checkScalar_stop hk, error_bind]
  · rw [checkScalar_pass hk, ok_bind, checkScalar_stop (h.resolve_left (by omega)), error_bind]

/-- Two multiplications fail together, with the one error a multiplication has. -/
theorem scalarMul_pair_error {v w : Point} {k l a p : Int} {e : ErrCode}
    (h : scalarMul v k a p = .error e ∨ scalarMul w l a p = .error e) :
    (do let u ← scalarMul v k a p; let u' ← scalarMul w l a p; return (u, u')) =
      (.error .noInverseExists : Except ErrCode (Point × Point)) := by
  cases hv : scalarMul v k a p with
  | error e' => rw [error_bind, scalarMul_error hv]
  | ok u =>
    have hw : scalarMul w l a p = .error e := h.resolve_left (by simp [hv])
    rw [ok_bind, hw, error_bind, scalarMul_error hw]

/-! KEYGEN. -/

theorem exec_keygen_of_small {s : State} (hp : sext32 s.p < 2) : exec .keygen s = .next (failedWith 5 s) := by
  obtain ⟨-, -, -, -, -, hkeygen, -⟩ := values_small hp
  exact finish_attempt_error hkeygen _ s

/-- R230: a base point out of range ends KEYGEN with BadPoint, before the scalars are looked at. -/
theorem exec_keygen_of_badPoint {s : State} (hp : 2 ≤ sext32 s.p) (hr : inRange (basePoint s) (sext32 s.p) = false) :
    exec .keygen s = .next (failedWith 6 s) := by
  have hval : keygenValue s = .error .badPoint := by rw [keygenValue_legal hp, checkPoint_stop hr, error_bind]
  exact finish_attempt_error hval _ s

/-- R230: with the base point in range a negative scalar ends KEYGEN with BadScalar, whichever of the two it is. -/
theorem exec_keygen_of_badScalar {s : State} (hp : 2 ≤ sext32 s.p) (hr : inRange (basePoint s) (sext32 s.p) = true)
    (hk : sext32 s.da < 0 ∨ sext32 s.db < 0) : exec .keygen s = .next (failedWith 7 s) := by
  have hval : keygenValue s = .error .badScalar := by
    rw [keygenValue_legal hp, checkPoint_pass hr, ok_bind, checkScalar_pair_stop hk]
  exact finish_attempt_error hval _ s

section

variable {s : State} (hp : 2 ≤ sext32 s.p) (hr : inRange (basePoint s) (sext32 s.p) = true)
  (hda : 0 ≤ sext32 s.da) (hdb : 0 ≤ sext32 s.db)

include hp hr hda hdb

/-- KEYGEN on operands that pass their checks computes the two multiples of the base point. -/
theorem keygenValue_of_checked :
    keygenValue s = (do
      let v ← scalarMul (basePoint s) (sext32 s.da) (sext32 s.a) (sext32 s.p)
      let w ← scalarMul (basePoint s) (sext32 s.db) (sext32 s.a) (sext32 s.p)
      return (v, w)) := by
  rw [keygenValue_legal hp, checkPoint_pass hr, ok_bind, checkScalar_pass hda, ok_bind, checkScalar_pass hdb, ok_bind]

theorem exec_keygen_of_ok {v w : Point} (hv : scalarMul (basePoint s) (sext32 s.da) (sext32 s.a) (sext32 s.p) = .ok v)
    (hw : scalarMul (basePoint s) (sext32 s.db) (sext32 s.a) (sext32 s.p) = .ok w) :
    exec .keygen s = .next { s with qa := tripleOf v, qb := tripleOf w, status := okStatus s.status } := by
  have hval : keygenValue s = .ok (v, w) := by
    rw [keygenValue_of_checked hp hr hda hdb, hv, ok_bind, hw, ok_bind]
    rfl
  exact finish_attempt_ok hval _ s

theorem exec_keygen_of_error {e : ErrCode}
    (h : scalarMul (basePoint s) (sext32 s.da) (sext32 s.a) (sext32 s.p) = .error e ∨
      scalarMul (basePoint s) (sext32 s.db) (sext32 s.a) (sext32 s.p) = .error e) :
    exec .keygen s = .next (failedWith 1 s) :=
  finish_attempt_error ((keygenValue_of_checked hp hr hda hdb).trans (scalarMul_pair_error h)) _ s

end

/-- Settles O41. The checks come in the order of R230; after them KEYGEN ends as its two multiplications do. -/
theorem keygenWritesBothPublicPointsOrNeither : Obligations.KeygenWritesBothPublicPointsOrNeither := by
  rintro s _ _ rfl rfl
  refine ⟨exec_keygen_of_small, exec_keygen_of_badPoint, exec_keygen_of_badScalar, fun hp hr hda hdb => ⟨?_, ?_⟩⟩
  · exact fun v w hv hw => exec_keygen_of_ok hp hr hda hdb hv hw
  · exact fun e h => exec_keygen_of_error hp hr hda hdb h

/-! SHARED. -/

theorem exec_shared (s : State) : exec .shared s = finish (sharedBody s) := rfl

theorem exec_shared_of_value_error {s : State} {e : ErrCode} (h : sharedValue s = .error e) :
    exec .shared s = .next (failedWith (errNumber e) s) := by
  rw [exec_shared, sharedBody, h]
  rfl

theorem exec_shared_of_small {s : State} (hp : sext32 s.p < 2) : exec .shared s = .next (failedWith 5 s) := by
  obtain ⟨-, -, -, -, -, -, hshared, -⟩ := values_small hp
  exact exec_shared_of_value_error hshared

/-- R231: a point out of range ends SHARED with BadPoint, whichever of the two it is. -/
theorem exec_shared_of_badPoint {s : State} (hp : 2 ≤ sext32 s.p)
    (hr : inRange (pointIn .qa s) (sext32 s.p) = false ∨ inRange (pointIn .qb s) (sext32 s.p) = false) :
    exec .shared s = .next (failedWith 6 s) :=
  exec_shared_of_value_error (e := .badPoint) (by rw [sharedValue_legal hp, checkPoint_pair_stop hr])

section

variable {s : State} (hp : 2 ≤ sext32 s.p) (hra : inRange (pointIn .qa s) (sext32 s.p) = true)
  (hrb : inRange (pointIn .qb s) (sext32 s.p) = true)

include hp hra hrb

/-- R231: with both points in range a negative scalar ends SHARED with BadScalar, whichever of the two it is. -/
theorem exec_shared_of_badScalar (hk : sext32 s.da < 0 ∨ sext32 s.db < 0) :
    exec .shared s = .next (failedWith 7 s) := by
  refine exec_shared_of_value_error (e := .badScalar) ?_
  rw [sharedValue_legal hp, checkPoint_pass hra, ok_bind, checkPoint_pass hrb, ok_bind, checkScalar_pair_stop hk]

variable (hda : 0 ≤ sext32 s.da) (hdb : 0 ≤ sext32 s.db)

include hda hdb

/-- SHARED on operands that pass their checks computes the multiples of the two public points. -/
theorem sharedValue_of_checked :
    sharedValue s = (do
      let v ← scalarMul (pointIn .qb s) (sext32 s.da) (sext32 s.a) (sext32 s.p)
      let w ← scalarMul (pointIn .qa s) (sext32 s.db) (sext32 s.a) (sext32 s.p)
      return (v, w)) := by
  rw [sharedValue_legal hp, checkPoint_pass hra, ok_bind, checkPoint_pass hrb, ok_bind, checkScalar_pass hda, ok_bind,
    checkScalar_pass hdb, ok_bind]

/-- R231: with both secrets computed SHARED writes them, and reports SecretMismatch when they differ. -/
theorem exec_shared_of_ok {v w : Point}
    (hv : scalarMul (pointIn .qb s) (sext32 s.da) (sext32 s.a) (sext32 s.p) = .ok v)
    (hw : scalarMul (pointIn .qa s) (sext32 s.db) (sext32 s.a) (sext32 s.p) = .ok w) :
    exec .shared s = .next { s with
      sa := tripleOf v, sb := tripleOf w
      status := if v = w then okStatus s.status else errStatus s.status 10 0 } := by
  have hval : sharedValue s = .ok (v, w) := by
    rw [sharedValue_of_checked hp hra hrb hda hdb, hv, ok_bind, hw, ok_bind]
    rfl
  have hbody : sharedBody s = ⟨pointOut .sb w (pointOut .sa v s), if v = w then none else some .secretMismatch⟩ := by
    rw [sharedBody, hval]
  rw [exec_shared, hbody]
  split_ifs <;> rfl

theorem exec_shared_of_error {e : ErrCode}
    (h : scalarMul (pointIn .qb s) (sext32 s.da) (sext32 s.a) (sext32 s.p) = .error e ∨
      scalarMul (pointIn .qa s) (sext32 s.db) (sext32 s.a) (sext32 s.p) = .error e) :
    exec .shared s = .next (failedWith 1 s) :=
  exec_shared_of_value_error ((sharedValue_of_checked hp hra hrb hda hdb).trans (scalarMul_pair_error h))

end

/-- Settles O42. The checks come in the order of R231; after them SHARED ends as its two multiplications do. -/
theorem sharedWritesBothSecretsAndComparesThem : Obligations.SharedWritesBothSecretsAndComparesThem := by
  rintro s _ _ rfl rfl
  refine ⟨exec_shared_of_small, exec_shared_of_badPoint, fun hp hra hrb => ?_⟩
  refine ⟨exec_shared_of_badScalar hp hra hrb, fun hda hdb => ⟨?_, ?_⟩⟩
  · exact fun v w hv hw => exec_shared_of_ok hp hra hrb hda hdb hv hw
  · exact fun e h => exec_shared_of_error hp hra hrb hda hdb h

/-! ENCRYPT. -/

theorem exec_encrypt_of_small {s : State} (hp : sext32 s.p < 2) : exec .encrypt s = .next (failedWith 5 s) := by
  obtain ⟨-, -, -, -, -, -, -, hencrypt, -⟩ := values_small hp
  exact finish_attempt_error hencrypt _ s

/-- R232: a point out of range ends ENCRYPT with BadPoint, whichever of the two it is. -/
theorem exec_encrypt_of_badPoint {s : State} (hp : 2 ≤ sext32 s.p)
    (hr : inRange (pointIn .qm s) (sext32 s.p) = false ∨ inRange (pointIn .sa s) (sext32 s.p) = false) :
    exec .encrypt s = .next (failedWith 6 s) := by
  have hval : encryptValue s = .error .badPoint := by rw [encryptValue_legal hp, checkPoint_pair_stop hr]
  exact finish_attempt_error hval _ s

section

variable {s : State} (hp : 2 ≤ sext32 s.p) (hrm : inRange (pointIn .qm s) (sext32 s.p) = true)
  (hrs : inRange (pointIn .sa s) (sext32 s.p) = true)

include hp hrm hrs

/-- ENCRYPT on points in range computes their sum. -/
theorem encryptValue_of_inRange :
    encryptValue s = ecAdd (pointIn .qm s) (pointIn .sa s) (sext32 s.a) (sext32 s.p) := by
  rw [encryptValue_legal hp, checkPoint_pass hrm, ok_bind, checkPoint_pass hrs, ok_bind]

theorem exec_encrypt_of_ok {v : Point} (h : ecAdd (pointIn .qm s) (pointIn .sa s) (sext32 s.a) (sext32 s.p) = .ok v) :
    exec .encrypt s = .next { s with c := tripleOf v, sp := s.qa, status := okStatus s.status } :=
  finish_attempt_ok ((encryptValue_of_inRange hp hrm hrs).trans h) _ s

theorem exec_encrypt_of_error {e : ErrCode}
    (h : ecAdd (pointIn .qm s) (pointIn .sa s) (sext32 s.a) (sext32 s.p) = .error e) :
    exec .encrypt s = .next (failedWith (errNumber e) s) :=
  finish_attempt_error ((encryptValue_of_inRange hp hrm hrs).trans h) _ s

end

/-- Settles O43. The checks come in the order of R232; after them ENCRYPT ends as the addition does, which fails only with
NoInverseExists. -/
theorem encryptAddsTheSecretAndCopiesTheSender : Obligations.EncryptAddsTheSecretAndCopiesTheSender := by
  rintro s _ rfl
  refine ⟨exec_encrypt_of_small, exec_encrypt_of_badPoint, fun hp hrm hrs => ⟨fun v h => ?_, fun e h => ?_⟩⟩
  · exact exec_encrypt_of_ok hp hrm hrs h
  · obtain rfl := ecAdd_error h
    exact exec_encrypt_of_error hp hrm hrs h

/-! Over an odd prime (R121): no addition misses an inverse, so no multiplication does. -/

section

variable {p : Int} (hp : Prime p) (h2 : 2 < p)

include hp h2

theorem mulLoop_ok_of_oddPrime (a : Int) (fuel : Nat) {r t : Point} (n : Nat) (hr : inRange r p = true)
    (ht : inRange t p = true) : ∃ u, mulLoop fuel r t n a p = .ok u ∧ inRange u p = true := by
  induction fuel generalizing r t n with
  | zero => exact ⟨r, rfl, hr⟩
  | succ more ih =>
    rcases Nat.eq_zero_or_pos n with rfl | hn
    · exact ⟨r, mulLoop_zero .., hr⟩
    · have hodd : ∃ r', addWhenOdd n r t a p = .ok r' ∧ inRange r' p = true := by
        rw [addWhenOdd]
        split
        · exact ecAdd_ok_of_oddPrime hp h2 a hr ht
        · exact ⟨r, rfl, hr⟩
      obtain ⟨r', hadd, hr'⟩ := hodd
      obtain ⟨t', hdouble, ht'⟩ := ecAdd_ok_of_oddPrime hp h2 a ht ht
      rw [mulLoop_pass hn, hadd, ok_bind, hdouble, ok_bind]
      exact ih (n / 2) hr' ht'

theorem scalarMul_ok_of_oddPrime {v : Point} (hv : inRange v p = true) (k a : Int) :
    ∃ u, scalarMul v k a p = .ok u ∧ inRange u p = true :=
  mulLoop_ok_of_oddPrime hp h2 a _ _ (inRange_inf p) hv

end

/-- Settles O35. Each command, its checks passed, ends as additions and multiplications that all succeed. -/
theorem groupCommandsCompleteForAnOddPrime : Obligations.GroupCommandsCompleteForAnOddPrime := by
  rintro s _ rfl hprime h2
  have hp : 2 ≤ sext32 s.p := h2.le
  have hadd {v w : Point} := ecAdd_ok_of_oddPrime (v := v) (w := w) hprime h2 (sext32 s.a)
  have hmul {v : Point} (hv) (k : Int) := scalarMul_ok_of_oddPrime (v := v) hprime h2 hv k (sext32 s.a)
  refine ⟨?pdbl, ?padd, ?pmul, ?keygen, ?shared, ?encrypt⟩
  case pdbl =>
    intro hr
    obtain ⟨u, hu, hru⟩ := hadd hr hr
    exact ⟨u, hru, exec_pdbl_of_ok hp rfl hr hu⟩
  case padd =>
    intro hr1 hr2
    obtain ⟨u, hu, hru⟩ := hadd hr1 hr2
    exact ⟨u, hru, exec_padd_of_ok hp rfl rfl hr1 hr2 hu⟩
  case pmul =>
    intro hr hk
    obtain ⟨u, hu, hru⟩ := hmul hr (sext32 s.k)
    exact ⟨u, hru, exec_pmul_of_ok hp hr hk hu⟩
  case keygen =>
    intro hr hda hdb
    obtain ⟨v, hv, hrv⟩ := hmul hr (sext32 s.da)
    obtain ⟨w, hw, hrw⟩ := hmul hr (sext32 s.db)
    exact ⟨v, w, hrv, hrw, exec_keygen_of_ok hp hr hda hdb hv hw⟩
  case shared =>
    intro hra hrb hda hdb
    obtain ⟨v, hv, hrv⟩ := hmul hrb (sext32 s.da)
    obtain ⟨w, hw, hrw⟩ := hmul hra (sext32 s.db)
    exact ⟨v, w, hrv, hrw, exec_shared_of_ok hp hra hrb hda hdb hv hw⟩
  case encrypt =>
    intro hrm hrs
    obtain ⟨u, hu, hru⟩ := hadd hrm hrs
    exact ⟨u, hru, exec_encrypt_of_ok hp hrm hrs hu⟩

end Sys2Proof.Machine

/-! The command ECDH (44_orchestrator.md R233 to R235): its five steps as five commands, and how it ends on a non-singular
curve. -/

namespace Sys2Proof.Machine

/-! ECDH as a run of commands. -/

/-- A body that does the same on the state a completion without error leaves: it looks at no field completion writes. -/
def ignoresReport (body : State → Ran) : Prop :=
  ∀ s, body (complete none 0 s) = ⟨complete none 0 (body s).state, (body s).error⟩

theorem ignoresReport_of_setStatus {body : State → Ran}
    (hset : ∀ {f : Status} {s : State}, f.ptvalid = s.status.ptvalid →
      body (setStatus f s) = ⟨setStatus f (body s).state, (body s).error⟩)
    (hstatus : ∀ s, (body s).state.status = s.status) : ignoresReport body := by
  intro s
  rw [complete, complete, hset (statusCompleted_ptvalid ..), hstatus]

theorem keygenBody_ignoresReport : ignoresReport keygenBody :=
  ignoresReport_of_setStatus (fun _ => keygenBody_setStatus ..) keygenBody_status

theorem sharedBody_ignoresReport : ignoresReport sharedBody :=
  ignoresReport_of_setStatus (fun _ => sharedBody_setStatus ..) sharedBody_status

theorem encodeBody_ignoresReport : ignoresReport encodeBody :=
  ignoresReport_of_setStatus encodeBody_setStatus encodeBody_status

theorem encryptBody_ignoresReport : ignoresReport encryptBody :=
  ignoresReport_of_setStatus (fun _ => encryptBody_setStatus ..) encryptBody_status

/-- A run of commands goes on with the completed state, or ends at the command's error. -/
theorem commandRun_cons {i : Instr} {s : State} {ran : Ran} (h : exec i s = finish ran) (n : BitVec 4)
    (rest : List (BitVec 4 × Instr)) :
    commandRun ((n, i) :: rest) s =
      match ran.error with
      | none => commandRun rest (complete none 0 ran.state)
      | some e => .next (complete (some e) n ran.state) := by
  rw [commandRun, h, finish]
  cases ran.error <;> rfl

/-- A command and a numbered body are the same step of a run. -/
structure SameStep (c : BitVec 4 × Instr) (x : BitVec 4 × (State → Ran)) : Prop where
  number : c.1 = x.1
  meaning : ∀ s, exec c.2 s = finish (x.2 s)
  blind : ignoresReport x.2

/-- Run after a completed step, commands end as their bodies do run on that step's registers. -/
theorem commandRun_eq_runSteps {cs : List (BitVec 4 × Instr)} {steps : List (BitVec 4 × (State → Ran))}
    (h : List.Forall₂ SameStep cs steps) (s : State) :
    commandRun cs (complete none 0 s) = .next (runSteps steps s) := by
  induction h generalizing s with
  | nil => rfl
  | @cons c x cs steps hstep _ ih =>
    obtain ⟨n, i⟩ := c
    obtain ⟨m, body⟩ := x
    obtain ⟨rfl, hexec, hblind⟩ := hstep
    rw [commandRun_cons ((hexec _).trans (congrArg finish (hblind s))), runSteps]
    cases (body s).error with
    | none => exact ih (body s).state
    | some e => rfl

/-- Settles O44. After ENUM the four commands left look at no field a completion writes, so completing in between is the
same as going straight on. -/
theorem ecdhIsTheFiveCommandsInOrder : Obligations.EcdhIsTheFiveCommandsInOrder := by
  intro s
  have hrest : List.Forall₂ SameStep [(2, .keygen), (3, .shared), (4, .encode), (5, .encrypt)]
      [(2, keygenBody), (3, sharedBody), (4, encodeBody), (5, encryptBody)] :=
    .cons ⟨rfl, fun _ => rfl, keygenBody_ignoresReport⟩ <| .cons ⟨rfl, fun _ => rfl, sharedBody_ignoresReport⟩ <|
      .cons ⟨rfl, fun _ => rfl, encodeBody_ignoresReport⟩ <| .cons ⟨rfl, fun _ => rfl, encryptBody_ignoresReport⟩ .nil
  rw [commandRun_cons (exec_enum s), exec, execEcdh, ecdhSteps, runSteps]
  cases (enumBody s).error with
  | none => exact (commandRun_eq_runSteps hrest (enumBody s).state).symm
  | some e => rfl

/-! ECDH when no step fails. -/

theorem commandRun_step {i : Instr} {s t : State} (h : exec i s = .next t) (herr : t.status.err = false) (n : BitVec 4)
    (rest : List (BitVec 4 × Instr)) : commandRun ((n, i) :: rest) s = commandRun rest t := by
  simp [commandRun, h, herr]

theorem exec_ecdh_of_steps {s t1 t2 t3 t4 t5 : State} (h1 : exec .enum s = .next t1) (h2 : exec .keygen t1 = .next t2)
    (h3 : exec .shared t2 = .next t3) (h4 : exec .encode t3 = .next t4) (h5 : exec .encrypt t4 = .next t5)
    (e1 : t1.status.err = false) (e2 : t2.status.err = false) (e3 : t3.status.err = false)
    (e4 : t4.status.err = false) (e5 : t5.status.err = false) : exec .ecdh s = .next t5 := by
  rw [ecdhIsTheFiveCommandsInOrder s, commandRun_step h1 e1, commandRun_step h2 e2, commandRun_step h3 e3,
    commandRun_step h4 e4, commandRun_step h5 e5, commandRun]

theorem exec_status_done {i : Instr} {s t : State} (h : exec i s = .next t) : t.status.done = true := by
  obtain ⟨s', -, rfl | ⟨e, n, -, -, rfl⟩⟩ := exec_completedWithin h
  · rfl
  · rfl

theorem exec_enum_ptvalid {s t : State} (h : exec .enum s = .next t) (herr : t.status.err = false) :
    t.status.ptvalid = true := by
  obtain rfl := Host.Outcome.next.inj h
  obtain ⟨-, ⟨-, hv⟩ | ⟨e, he, -⟩⟩ := enumBody_report s
  · exact hv
  · simp [complete, he] at herr

theorem finish_ptvalid {body : State → Ran} {s t : State} (hstatus : (body s).state.status = s.status)
    (h : finish (body s) = .next t) : t.status.ptvalid = s.status.ptvalid := by
  obtain rfl := Host.Outcome.next.inj h
  simp [complete, hstatus]

/-- Settles O45. The run of the five commands is not stopped; ENUM sets PTVALID and the other four keep it. -/
theorem ecdhCompletesWhenItsStepsDo : Obligations.EcdhCompletesWhenItsStepsDo := by
  intro s t1 t2 t3 t4 t5 h1 h2 h3 h4 h5 e1 e2 e3 e4 e5
  obtain ⟨-, -, hstep, -⟩ := errorCodesAndStepsAreThoseOfTheTable .encrypt t4 t5 h5
  refine ⟨exec_ecdh_of_steps h1 h2 h3 h4 h5 e1 e2 e3 e4 e5, hstep (.inr e5), exec_status_done h5, ?_⟩
  rw [finish_ptvalid (encryptBody_status t4) h5, finish_ptvalid (encodeBody_status t3) h4,
    finish_ptvalid (sharedBody_status t2) h3, finish_ptvalid (keygenBody_status t1) h2, exec_enum_ptvalid h1 e1]

/-! A non-singular curve. -/

/-- A canonical point of a modulus a register holds reads back from its triple (R31, R32). -/
theorem pointIn_of_getTriple {t : PointReg} {s : State} {v : Point} {p : Int} (hp : p ≤ 2 ^ 31 - 1)
    (hv : inRange v p = true) (h : getTriple t s = tripleOf v) : pointIn t s = v := by
  cases v with
  | inf => simp [pointIn, h, tripleOf]
  | aff x y =>
    obtain ⟨hx0, hxp, hy0, hyp⟩ := inRange_aff.mp hv
    simp only [pointIn, h, tripleOf, Bool.false_eq_true, if_false]
    rw [sext32_enc32 (by omega) (by omega), sext32_enc32 (by omega) (by omega)]

/-- R231: on public points a command has written, with equal multiples, SHARED completes and writes them. -/
theorem exec_shared_of_equal {s : State} {qa qb u : Point} (hp : 2 ≤ sext32 s.p) (hqa : s.qa = tripleOf qa)
    (hqb : s.qb = tripleOf qb) (hra : inRange qa (sext32 s.p) = true) (hrb : inRange qb (sext32 s.p) = true)
    (hda : 0 ≤ sext32 s.da) (hdb : 0 ≤ sext32 s.db) (hu : scalarMul qb (sext32 s.da) (sext32 s.a) (sext32 s.p) = .ok u)
    (hu' : scalarMul qa (sext32 s.db) (sext32 s.a) (sext32 s.p) = .ok u) :
    exec .shared s = .next { s with sa := tripleOf u, sb := tripleOf u, status := okStatus s.status } := by
  have hina := pointIn_of_getTriple (t := .qa) (sext32_le s.p) hra hqa
  have hinb := pointIn_of_getTriple (t := .qb) (sext32_le s.p) hrb hqb
  rw [← hina] at hra hu'
  rw [← hinb] at hrb hu
  rw [exec_shared_of_ok hp hra hrb hda hdb hu hu', if_pos rfl]

/-- R235 (K4, K5): from a base point on a non-singular curve KEYGEN completes, and then SHARED, with equal secrets. -/
theorem exec_keygen_shared_agree {s : State} {b x y : Int} (hprime : Prime (sext32 s.p)) (h3 : 3 < sext32 s.p)
    (hdisc : ¬sext32 s.p ∣ 4 * sext32 s.a * sext32 s.a * sext32 s.a + 27 * b * b) (hg : basePoint s = .aff x y)
    (hr : inRange (.aff x y) (sext32 s.p) = true)
    (hcurve : sext32 s.p ∣ y * y - (x * x * x + sext32 s.a * x + b)) (hda : 0 ≤ sext32 s.da) (hdb : 0 ≤ sext32 s.db) :
    ∃ qa qb u t, t = { s with qa := tripleOf qa, qb := tripleOf qb, status := okStatus s.status } ∧
      inRange u (sext32 s.p) = true ∧ exec .keygen s = .next t ∧
      exec .shared t = .next { t with sa := tripleOf u, sb := tripleOf u, status := okStatus t.status } := by
  have hp : 2 ≤ sext32 s.p := by omega
  have hmul {v : Point} (hv) (k : Int) := scalarMul_ok_of_oddPrime (v := v) hprime (by omega) hv k (sext32 s.a)
  obtain ⟨qa, hqa, hra⟩ := hmul hr (sext32 s.da)
  obtain ⟨qb, hqb, hrb⟩ := hmul hr (sext32 s.db)
  obtain ⟨u, hu, hru⟩ := hmul hrb (sext32 s.da)
  obtain ⟨u', hu', -⟩ := hmul hra (sext32 s.db)
  obtain ⟨hx0, hxp, hy0, hyp⟩ := inRange_aff.mp hr
  obtain rfl : u = u' := scalarMul_comm hprime h3 hdisc hx0 hxp hy0 hyp hcurve hqa hqb hu hu'
  rw [← hg] at hr hqa hqb
  exact ⟨qa, qb, u, _, rfl, hru, exec_keygen_of_ok hp hr hda hdb hqa hqb,
    exec_shared_of_equal hp rfl rfl hra hrb hda hdb hu hu'⟩

/-- Settles O46. The two orders of multiplication give one point of the curve's group (`scalarMul_comm`). -/
theorem sharedSecretsAgreeOnANonsingularCurve : Obligations.SharedSecretsAgreeOnANonsingularCurve := by
  rintro s t _ _ b x y rfl rfl hprime h3 hdisc hg hx0 hxp hy0 hyp hcurve hda hdb hkeygen
  obtain ⟨qa, qb, u, t', -, -, hkeygen', hshared⟩ :=
    exec_keygen_shared_agree hprime h3 hdisc hg (inRange_aff.mpr ⟨hx0, hxp, hy0, hyp⟩) hcurve hda hdb
  obtain rfl := Host.Outcome.next.inj (hkeygen.symm.trans hkeygen')
  exact ⟨u, hshared⟩

/-- R212: the search answers a point of the list when the list holds a candidate abscissa. -/
theorem searchFrom_ok_of_candidate {l : List (Int × Int)} {m h p j' : Int} {q : Int × Int} (hq : q ∈ l)
    (hx : q.1 = reduce (m * h + j') p) (count : Nat) {j : Int} (hj : j ≤ j') (hj' : j' < j + count) :
    ∃ u ∈ l, searchFrom l m h p count j = .ok (.aff u.1 u.2) := by
  induction count generalizing j with
  | zero => omega
  | succ count ih =>
    cases hf : l.find? (fun q => decide (q.1 = reduce (m * h + j) p)) with
    | some u => exact ⟨u, List.mem_of_find?_eq_some hf, searchFrom_hit hf count⟩
    | none =>
      have hmiss : ∀ q ∈ l, q.1 ≠ reduce (m * h + j) p := by simpa using hf
      have hne : j ≠ j' := by
        rintro rfl
        exact hmiss q hq hx
      rw [searchFrom_miss hmiss]
      exact ih (by omega) (by omega)

/-- R213: with the curve list present and a candidate abscissa in it, ENCODE completes with a point of the list. -/
theorem exec_encode_of_candidate {s : State} {q : Int × Int} {j : Int} (hp : 2 ≤ sext32 s.p)
    (hv : s.status.ptvalid = true) (hq : q ∈ curveList s) (h0 : 0 ≤ j)
    (hj : j < slotWidth (sext32 s.p) (sext32 s.msg))
    (hx : q.1 = reduce (sext32 s.msg * slotWidth (sext32 s.p) (sext32 s.msg) + j) (sext32 s.p)) :
    ∃ u ∈ curveList s, exec .encode s = .next { s with
      mreg := enc32 (chooseM (sext32 s.msg)), hreg := enc32 (slotWidth (sext32 s.p) (sext32 s.msg))
      qm := tripleOf (.aff u.1 u.2), status := okStatus s.status } := by
  have hcount : 0 < s.pcount := by simpa [curveList] using List.length_pos_of_mem hq
  obtain ⟨u, hu, hfound⟩ := searchFrom_ok_of_candidate hq hx (slotWidth (sext32 s.p) (sext32 s.msg)).toNat h0 (by omega)
  exact ⟨u, hu, exec_encode_of_ok (encodeChecks_pass hp hv hcount) hfound⟩

/-- Over an odd prime ENCRYPT completes on points a command has written (R32, R232). -/
theorem exec_encrypt_of_oddPrime {s : State} {m v : Point} (hprime : Prime (sext32 s.p)) (h2 : 2 < sext32 s.p)
    (hqm : s.qm = tripleOf m) (hsa : s.sa = tripleOf v) (hrm : inRange m (sext32 s.p) = true)
    (hrv : inRange v (sext32 s.p) = true) :
    ∃ u, exec .encrypt s = .next { s with c := tripleOf u, sp := s.qa, status := okStatus s.status } := by
  rw [← pointIn_of_getTriple (t := .qm) (sext32_le s.p) hrm hqm] at hrm
  rw [← pointIn_of_getTriple (t := .sa) (sext32_le s.p) hrv hsa] at hrv
  obtain ⟨u, hu, -⟩ := ecAdd_ok_of_oddPrime hprime h2 (sext32 s.a) hrm hrv
  exact ⟨u, exec_encrypt_of_ok h2.le hrm hrv hu⟩

/-- ENCODE and then ENCRYPT complete, over an odd prime, on a curve list with a candidate abscissa and a secret a command has
written. -/
theorem exec_encode_encrypt_complete {s : State} {q : Int × Int} {j : Int} {v : Point} (hprime : Prime (sext32 s.p))
    (h2 : 2 < sext32 s.p) (hv : s.status.ptvalid = true)
    (hlist : curveList s = allPoints (sext32 s.p) (sext32 s.a) (sext32 s.b)) (hq : q ∈ curveList s) (h0 : 0 ≤ j)
    (hj : j < slotWidth (sext32 s.p) (sext32 s.msg))
    (hx : q.1 = reduce (sext32 s.msg * slotWidth (sext32 s.p) (sext32 s.msg) + j) (sext32 s.p))
    (hsa : s.sa = tripleOf v) (hrv : inRange v (sext32 s.p) = true) :
    ∃ t t', exec .encode s = .next t ∧ t.status.err = false ∧ exec .encrypt t = .next t' ∧
      t' = { s with
        mreg := t'.mreg, hreg := t'.hreg, qm := t'.qm, c := t'.c, sp := s.qa, status := okStatus s.status } := by
  obtain ⟨u, hu, hencode⟩ := exec_encode_of_candidate h2.le hv hq h0 hj hx
  have hru : inRange (.aff u.1 u.2) (sext32 s.p) = true := inRange_aff.mpr (allPoints_range (hlist ▸ hu))
  obtain ⟨w, hencrypt⟩ := exec_encrypt_of_oddPrime (s := { s with
    mreg := enc32 (chooseM (sext32 s.msg)), hreg := enc32 (slotWidth (sext32 s.p) (sext32 s.msg))
    qm := tripleOf (.aff u.1 u.2), status := okStatus s.status }) hprime h2 rfl hsa hru hrv
  exact ⟨_, _, hencode, rfl, hencrypt, rfl⟩

/-- Settles O47. Each step leaves the next one operands it completes on: ENUM the list, KEYGEN and SHARED canonical points
with equal secrets, ENCODE a point of the list. -/
theorem ecdhSucceedsOnANonsingularCurve : Obligations.EcdhSucceedsOnANonsingularCurve := by
  rintro s _ _ _ _ x y rfl rfl rfl rfl hprime h3 hdisc hg hx0 hxp hy0 hyp hcurve hda hdb hfit ⟨j, z, h0, hj, hmem⟩
  have h2 : 2 < sext32 s.p := by omega
  obtain ⟨-, hfits, -⟩ := enumStoresTheCurveListOrOverflows s _ rfl
  obtain ⟨t, henum, ht, -⟩ := hfits h2.le hfit
  obtain ⟨mem, rfl⟩ : ∃ mem, t = { s with
      ptmem := mem, pcount := (allPoints (sext32 s.p) (sext32 s.a) (sext32 s.b)).length
      status := ⟨false, true, false, true, s.status.busywr, 0, 0⟩ } := ⟨_, ht⟩
  have hlist := curveList_of_exec_enum henum rfl
  obtain ⟨qa, qb, u, _, rfl, hru, hkeygen, hshared⟩ := exec_keygen_shared_agree (s := { s with
      ptmem := mem, pcount := (allPoints (sext32 s.p) (sext32 s.a) (sext32 s.b)).length
      status := ⟨false, true, false, true, s.status.busywr, 0, 0⟩ })
    hprime h3 hdisc hg (inRange_aff.mpr ⟨hx0, hxp, hy0, hyp⟩) hcurve hda hdb
  obtain ⟨t4, t5, hencode, herr, hencrypt, ht5⟩ := exec_encode_encrypt_complete (s := { s with
      ptmem := mem, pcount := (allPoints (sext32 s.p) (sext32 s.a) (sext32 s.b)).length
      qa := tripleOf qa, qb := tripleOf qb, sa := tripleOf u, sb := tripleOf u
      status := ⟨false, true, false, true, s.status.busywr, 0, 0⟩ })
    hprime h2 rfl hlist (hlist.symm ▸ hmem) h0 hj rfl rfl hru
  refine ⟨t5, exec_ecdh_of_steps henum hkeygen hshared hencode hencrypt rfl rfl rfl herr ?_, ?_, ?_, ?_, ?_⟩
  · rw [ht5]; rfl
  · rw [ht5]; rfl
  · rw [ht5]; exact hlist
  · rw [ht5]
  · rw [ht5]

end Sys2Proof.Machine

/-! What a command writes (45_control.md R272): the frame as a relation between two states that composes, each operation's
frame, and from them the frame of every command. -/

namespace Sys2Proof.Machine

/-! The frame. -/

/-- The list in the point memory, its length, and whether it is valid. -/
def listContent (s : State) : Memory × Nat × Bool := (s.ptmem, s.pcount, s.status.ptvalid)

/-- From `s` to `t` no register but those of `ws` has changed, nothing of the list unless PCOUNT is one of them, and not
BUSYWR, which no command writes although it is a bit of STATUS. -/
structure WritesOnly (ws : List RegName) (s t : State) : Prop where
  regs : ∀ name, name ∉ ws → regRead name t = regRead name s
  list : .pcount ∉ ws → listContent t = listContent s
  busywr : t.status.busywr = s.status.busywr

theorem WritesOnly.refl (ws : List RegName) (s : State) : WritesOnly ws s s := ⟨fun _ _ => rfl, fun _ => rfl, rfl⟩

theorem WritesOnly.trans {ws : List RegName} {s t u : State} (hst : WritesOnly ws s t) (htu : WritesOnly ws t u) :
    WritesOnly ws s u where
  regs name h := (htu.regs name h).trans (hst.regs name h)
  list h := (htu.list h).trans (hst.list h)
  busywr := htu.busywr.trans hst.busywr

theorem WritesOnly.mono {ws more : List RegName} {s t : State} (h : WritesOnly ws s t)
    (hsub : ∀ name ∈ ws, name ∈ more) : WritesOnly more s t where
  regs name hn := h.regs name (mt (hsub name) hn)
  list hn := h.list (mt (hsub _) hn)
  busywr := h.busywr

/-! The operations. -/

theorem setRn_writesOnly (w : Word) (s : State) : WritesOnly [.rn] s (setRn w s) where
  regs name h := by
    cases name with
    | rn => simp at h
    | ptX t | ptY t | ptInf t => simp [regRead]
    | _ => rfl
  list _ := rfl
  busywr := rfl

theorem setCodec_writesOnly (m h : Word) (s : State) : WritesOnly [.mreg, .hreg] s (setCodec m h s) where
  regs name hn := by
    cases name with
    | mreg | hreg => simp at hn
    | ptX t | ptY t | ptInf t => simp [regRead]
    | _ => rfl
  list _ := rfl
  busywr := rfl

/-- PX and PY are views of the point memory, and PTVALID is a bit of STATUS. -/
theorem setList_writesOnly (mem : Memory) (count : Nat) (valid : Bool) (s : State) :
    WritesOnly [.status, .pcount, .px, .py] s (setList mem count valid s) where
  regs name h := by
    cases name with
    | status | pcount | px | py => simp at h
    | ptX t | ptY t | ptInf t => simp [regRead]
    | _ => rfl
  list h := by simp at h
  busywr := rfl

theorem setStatus_writesOnly {f : Status} {s : State} (hv : f.ptvalid = s.status.ptvalid)
    (hb : f.busywr = s.status.busywr) : WritesOnly [.status] s (setStatus f s) where
  regs name h := by
    cases name with
    | status => simp at h
    | ptX t | ptY t | ptInf t => simp [regRead]
    | _ => rfl
  list _ := by simp [listContent, hv]
  busywr := hb

theorem complete_writesOnly (e : Option ErrCode) (n : BitVec 4) (s : State) : WritesOnly [.status] s (complete e n s) :=
  setStatus_writesOnly rfl rfl

theorem setTriple_writesOnly {u : PointReg} {ts : List PointReg} (hu : u ∈ ts) (v : Triple) (s : State) :
    WritesOnly (regsOf ts) s (setTriple u v s) where
  regs name h := by
    cases name with
    | ptX t | ptY t | ptInf t =>
      have htu : t ≠ u := by rintro rfl; simp [regsOf, tripleRegs, hu] at h
      simp [regRead, getTriple_setTriple_ne htu]
    | _ => simp [regRead, ptEntry]
  list _ := by simp [listContent]
  busywr := by simp

theorem pointOut_writesOnly {u : PointReg} {ts : List PointReg} (hu : u ∈ ts) (v : Point) (s : State) :
    WritesOnly (regsOf ts) s (pointOut u v s) := setTriple_writesOnly hu (tripleOf v) s

theorem pointOut_pair_writesOnly (u w : PointReg) (v₁ v₂ : Point) (s : State) :
    WritesOnly (regsOf [u, w]) s (pointOut w v₂ (pointOut u v₁ s)) :=
  (pointOut_writesOnly (by simp) v₁ s).trans (pointOut_writesOnly (by simp) v₂ _)

/-! The commands. -/

theorem attempt_writesOnly {α : Type} {ws : List RegName} (result : Except ErrCode α) {commit : α → State → State} {s : State}
    (h : ∀ v, WritesOnly ws s (commit v s)) : WritesOnly ws s (attempt result commit s).state := by
  rcases attempt_cases result commit s with ⟨v, -, ha⟩ | ⟨e, -, ha⟩
  · rw [ha]
    exact h v
  · rw [ha]
    exact .refl ws s

theorem attempt_pointOut_writesOnly (result : Except ErrCode Point) (u : PointReg) (s : State) :
    WritesOnly (regsOf [u]) s (attempt result (pointOut u) s).state :=
  attempt_writesOnly result fun v => pointOut_writesOnly (List.mem_singleton_self u) v s

/-- A command other than ECDH writes STATUS and what its pseudocode writes. -/
theorem finish_writesOnly {ws more : List RegName} {s t : State} {ran : Ran} (h : finish ran = .next t)
    (hran : WritesOnly ws s ran.state) (hsub : ∀ name ∈ .status :: ws, name ∈ more) : WritesOnly more s t := by
  obtain rfl := Host.Outcome.next.inj h
  obtain ⟨hstatus, hws⟩ := List.forall_mem_cons.mp hsub
  exact (hran.mono hws).trans ((complete_writesOnly ..).mono (List.forall_mem_singleton.mpr hstatus))

theorem enumBody_writesOnly (s : State) : WritesOnly [.status, .pcount, .px, .py] s (enumBody s).state := by
  rcases enumBody_cases s with ⟨-, h⟩ | ⟨-, -, h⟩ | ⟨-, -, h⟩
  · rw [h]
    exact .refl _ s
  · rw [h]
    exact setList_writesOnly ..
  · rw [h]
    exact setList_writesOnly ..

theorem sharedBody_writesOnly (s : State) : WritesOnly (regsOf [.sa, .sb]) s (sharedBody s).state := by
  rcases sharedBody_cases s with ⟨e, h, -⟩ | ⟨v, w, -, -, -, h⟩
  · rw [h]
    exact .refl _ s
  · rw [h]
    exact pointOut_pair_writesOnly ..

theorem encodeBody_writesOnly (s : State) : WritesOnly ([.mreg, .hreg] ++ regsOf [.qm]) s (encodeBody s).state := by
  have hcodec (m h : Word) : WritesOnly ([.mreg, .hreg] ++ regsOf [.qm]) s (setCodec m h s) :=
    (setCodec_writesOnly m h s).mono fun _ hn => List.mem_append_left _ hn
  rcases encodeBody_cases s with ⟨e, h, -⟩ | ⟨-, -, -, _, rfl, h | ⟨q, -, h⟩⟩
  · rw [h]
    exact .refl _ s
  · rw [h]
    exact hcodec ..
  · rw [h]
    exact (hcodec ..).trans ((pointOut_writesOnly (List.mem_singleton_self _) ..).mono fun _ hn => List.mem_append_right _ hn)

theorem encryptBody_writesOnly (s : State) : WritesOnly (regsOf [.c, .sp]) s (encryptBody s).state :=
  attempt_writesOnly (encryptValue s) fun v =>
    (pointOut_writesOnly (by simp) v s).trans (setTriple_writesOnly (by simp) (getTriple .qa s) _)

/-- What relates a state to the ones its commands leave relates it to the one a run of commands leaves, when it composes and
looks over the step number a failed run records. -/
theorem commandRun_rel {R : State → State → Prop} (hrefl : ∀ s, R s s) (htrans : ∀ {s t u}, R s t → R t u → R s u)
    (hrecord : ∀ (n : BitVec 4) t, R t (setStatus { t.status with errstep := n } t)) {cs : List (BitVec 4 × Instr)}
    (hcs : ∀ c ∈ cs, ∀ {s t}, exec c.2 s = .next t → R s t) {s t : State} (h : commandRun cs s = .next t) : R s t := by
  induction cs generalizing s with
  | nil =>
    obtain rfl := Host.Outcome.next.inj h
    exact hrefl s
  | cons c rest ih =>
    obtain ⟨hc, hrest⟩ := List.forall_mem_cons.mp hcs
    rw [commandRun] at h
    cases hu : exec c.2 s with
    | next u =>
      rw [hu] at h
      dsimp only at h
      split at h
      · obtain rfl := Host.Outcome.next.inj h
        exact htrans (hc hu) (hrecord c.1 u)
      · exact htrans (hc hu) (ih hrest h)
    | fault r => simp [hu] at h
    | refused r => simp [hu] at h

/-- R272, R92: every command but ECDH. -/
theorem exec_writesOnly_of_ne_ecdh {i : Instr} (hi : i ≠ .ecdh) {s t : State} (h : exec i s = .next t) :
    WritesOnly (commandWrites i) s t := by
  cases i with
  | nop => exact finish_writesOnly h (.refl [] s) (by decide)
  | reduce => exact finish_writesOnly h (attempt_writesOnly _ fun _ => setRn_writesOnly ..) (by decide)
  | inv => exact finish_writesOnly h (attempt_writesOnly _ fun _ => setRn_writesOnly ..) (by decide)
  | pdbl => exact finish_writesOnly h (attempt_pointOut_writesOnly ..) (by decide)
  | padd => exact finish_writesOnly h (attempt_pointOut_writesOnly ..) (by decide)
  | pmul => exact finish_writesOnly h (attempt_pointOut_writesOnly ..) (by decide)
  | enum => exact finish_writesOnly h (enumBody_writesOnly s) (by decide)
  | encode => exact finish_writesOnly h (encodeBody_writesOnly s) (by decide)
  | keygen => exact finish_writesOnly h (attempt_writesOnly _ fun _ => pointOut_pair_writesOnly ..) (by decide)
  | shared => exact finish_writesOnly h (sharedBody_writesOnly s) (by decide)
  | encrypt => exact finish_writesOnly h (encryptBody_writesOnly s) (by decide)
  | ecdh => exact absurd rfl hi

/-- What relates a state to the ones the five commands of ECDH leave relates it to the one ECDH leaves. -/
theorem exec_ecdh_rel {R : State → State → Prop} (hrefl : ∀ s, R s s) (htrans : ∀ {s t u}, R s t → R t u → R s u)
    (hrecord : ∀ (n : BitVec 4) t, R t (setStatus { t.status with errstep := n } t))
    (hcmd : ∀ i ∈ [Instr.enum, .keygen, .shared, .encode, .encrypt], ∀ {s t}, exec i s = .next t → R s t) {s t : State}
    (h : exec .ecdh s = .next t) : R s t := by
  rw [ecdhIsTheFiveCommandsInOrder s] at h
  have hcs : ∀ c ∈ [((1 : BitVec 4), Instr.enum), (2, .keygen), (3, .shared), (4, .encode), (5, .encrypt)],
      c.2 ∈ [Instr.enum, .keygen, .shared, .encode, .encrypt] := by decide
  exact commandRun_rel hrefl htrans hrecord (fun c hc => hcmd c.2 (hcs c hc)) h

/-- The rows of ECDH's five commands lie in ECDH's own. -/
theorem ecdh_row_covers : ∀ i ∈ [Instr.enum, .keygen, .shared, .encode, .encrypt],
    i ≠ .ecdh ∧ ∀ name ∈ commandWrites i, name ∈ commandWrites .ecdh := by decide

/-- R272, R92: a command writes its row only; ECDH what its five commands write. -/
theorem exec_writesOnly {i : Instr} {s t : State} (h : exec i s = .next t) : WritesOnly (commandWrites i) s t := by
  by_cases hi : i = .ecdh
  · subst hi
    have hstatus : ∀ name ∈ [RegName.status], name ∈ commandWrites .ecdh := by decide
    refine exec_ecdh_rel (.refl _) (·.trans ·) (fun n t => ?_) (fun j hj s t hst => ?_) h
    · exact (setStatus_writesOnly (f := { t.status with errstep := n }) rfl rfl).mono hstatus
    · obtain ⟨hne, hrow⟩ := ecdh_row_covers j hj
      exact (exec_writesOnly_of_ne_ecdh hne hst).mono hrow
  · exact exec_writesOnly_of_ne_ecdh hi h

/-- Only ENUM and ECDH have PCOUNT in their row. -/
theorem pcount_mem_commandWrites_iff (i : Instr) : .pcount ∈ commandWrites i ↔ writesList i = true := by
  cases i <;> decide

theorem exec_sameOutside {i : Instr} {s t : State} (h : exec i s = .next t) : sameOutside s t := by
  have hsame : withOutside s.agenda s.responses s.draws t = t :=
    Host.Outcome.next.inj ((exec_withOutside s.agenda s.responses s.draws h).symm.trans h)
  rw [← hsame]
  exact ⟨rfl, rfl, rfl⟩

/-- The point memory, PCOUNT and PTVALID after a command that has no PCOUNT in its row. -/
theorem exec_listContent {i : Instr} (hi : writesList i = false) {s t : State} (h : exec i s = .next t) :
    listContent t = listContent s :=
  (exec_writesOnly h).list (by simp [pcount_mem_commandWrites_iff, hi])

/-- Settles O48. The registers and BUSYWR by the frame of the command's row; the list because PCOUNT is in the row of ENUM
and ECDH only; the model's own fields because a command does the same whatever they hold. -/
theorem commandsWriteOnlyTheirRow : Obligations.CommandsWriteOnlyTheirRow := by
  intro i s t h
  have hrow := exec_writesOnly h
  refine ⟨hrow.regs, fun hi => ?_, hrow.busywr, exec_sameOutside h⟩
  obtain ⟨hmem, hcount, hvalid⟩ : t.ptmem = s.ptmem ∧ t.pcount = s.pcount ∧ t.status.ptvalid = s.status.ptvalid := by
    simpa [listContent] using exec_listContent hi h
  exact ⟨⟨fun _ => by rw [hmem], hcount⟩, hvalid⟩

end Sys2Proof.Machine

/-! The point memory's invariant (10_state.md R36, R25): what it looks at, what ENUM stores, and that every turn keeps it. -/

namespace Sys2Proof.Machine

/-- The part of the state `MemoryInv` speaks about: CAP, PCOUNT and the point memory. -/
def memoryView (s : State) : Word × Nat × Memory := (s.cap, s.pcount, s.ptmem)

/-- `MemoryInv` depends on the view only. -/
theorem MemoryInv.of_memoryView {s t : State} (hs : MemoryInv s) (h : memoryView t = memoryView s) : MemoryInv t := by
  simp only [memoryView, Prod.mk.injEq] at h
  obtain ⟨hcap, hcount, hmem⟩ := h
  constructor
  case nptPos => rw [npt, hcap]; exact hs.nptPos
  case canonical => rw [hmem]; exact hs.canonical
  case entries => rw [hmem, npt, hcap]; exact hs.entries
  case count => rw [hcount, npt, hcap]; exact hs.count
  case listed => rw [hcount, hmem]; exact hs.listed

/-- An empty memory with an empty list meets the invariant, for every `NPT ≥ 1`. -/
theorem memoryInv_of_empty {s : State} (hnpt : 1 ≤ npt s) (hmem : s.ptmem = []) (hcount : s.pcount = 0) : MemoryInv s where
  nptPos := hnpt
  canonical := by rw [hmem]; rfl
  entries := by simp [hmem]
  count := by omega
  listed := by simp [hcount]

/-- R191: a list that fits, with coordinates a register holds, stored from entry 0. -/
theorem memoryInv_setList {s : State} (hs : MemoryInv s) {l : List (Int × Int)} (hfit : l.length ≤ npt s)
    (hrange : ∀ q ∈ l, 0 ≤ q.1 ∧ q.1 < 2 ^ 31 - 1 ∧ 0 ≤ q.2 ∧ q.2 < 2 ^ 31 - 1) (valid : Bool) :
    MemoryInv (setList (s.ptmem.writeFrom 0 l) l.length valid s) where
  nptPos := hs.nptPos
  canonical := Memory.wf_writeFrom hs.canonical 0 l
  entries e he := by
    rcases Memory.mem_writeFrom he with ⟨-, hlt, hmem⟩ | hold
    · exact ⟨(Nat.zero_add l.length ▸ hlt).trans_le hfit, hrange e.2 hmem⟩
    · exact hs.entries e hold
  count := hfit
  listed i hi := by
    have hread := Memory.read_writeFrom (m := s.ptmem) (base := 0) hi
    rw [Nat.zero_add] at hread
    exact Option.isSome_of_mem hread

/-- The coordinates of the curve list lie below a modulus a register holds. -/
theorem allPoints_coordinates {w : Word} {a b : Int} : ∀ q ∈ allPoints (sext32 w) a b,
    0 ≤ q.1 ∧ q.1 < 2 ^ 31 - 1 ∧ 0 ≤ q.2 ∧ q.2 < 2 ^ 31 - 1 := by
  intro q hq
  obtain ⟨hx0, hx1, hy0, hy1⟩ := allPoints_range hq
  have hw := sext32_le w
  exact ⟨hx0, hx1.trans_le hw, hy0, hy1.trans_le hw⟩

/-! The turns. -/

/-- R191, R192: ENUM leaves the memory as it was, or empty, or with the curve list stored. -/
theorem exec_enum_memoryInv {s t : State} (h : exec .enum s = .next t) (hs : MemoryInv s) : MemoryInv t := by
  obtain rfl := Host.Outcome.next.inj h
  suffices hbody : MemoryInv (enumBody s).state from hbody.of_memoryView rfl
  rcases enumBody_cases s with ⟨-, hb⟩ | ⟨-, -, hb⟩ | ⟨-, hfit, hb⟩
  · rw [hb]
    exact hs
  · rw [hb]
    exact memoryInv_of_empty hs.nptPos rfl rfl
  · rw [hb]
    exact memoryInv_setList hs hfit allPoints_coordinates true

/-- CAP is in no command's row. -/
theorem cap_not_mem_commandWrites (i : Instr) : .cap ∉ commandWrites i := by cases i <;> decide

/-- A command without PCOUNT in its row writes nothing the invariant speaks of. -/
theorem memoryView_exec {i : Instr} (hi : writesList i = false) {s t : State} (h : exec i s = .next t) :
    memoryView t = memoryView s := by
  have hcap : t.cap = s.cap := (exec_writesOnly h).regs .cap (cap_not_mem_commandWrites i)
  have hlist := exec_listContent hi h
  simp only [listContent, Prod.mk.injEq] at hlist
  obtain ⟨hmem, hcount, -⟩ := hlist
  rw [memoryView, hcap, hcount, hmem, memoryView]

theorem exec_memoryInv_of_ne_ecdh {i : Instr} (hi : i ≠ .ecdh) {s t : State} (h : exec i s = .next t) (hs : MemoryInv s) :
    MemoryInv t := by
  cases i with
  | enum => exact exec_enum_memoryInv h hs
  | ecdh => exact absurd rfl hi
  | _ => exact hs.of_memoryView (memoryView_exec rfl h)

/-- A command keeps the invariant; ECDH because its five commands do. -/
theorem exec_memoryInv {i : Instr} {s t : State} (h : exec i s = .next t) (hs : MemoryInv s) : MemoryInv t := by
  by_cases hi : i = .ecdh
  · subst hi
    exact exec_ecdh_rel (R := fun s t => MemoryInv s → MemoryInv t) (fun _ => id) (fun hst htu => htu ∘ hst)
      (fun _ _ ht => ht.of_memoryView rfl)
      (fun j hj _ _ hst => exec_memoryInv_of_ne_ecdh (ecdh_row_covers j hj).1 hst) h hs
  · exact exec_memoryInv_of_ne_ecdh hi h hs

theorem memoryView_readRegister (name : RegName) (s : State) : memoryView (readRegister name s) = memoryView s := by
  rw [readRegister]
  split <;> rfl

/-- No host write reaches CAP, PCOUNT or the point memory (R21, R36). -/
theorem memoryView_writeRegister (name : RegName) (v : Word) (s : State) :
    memoryView (writeRegister name v s) = memoryView s := by
  by_cases hn : name = .status
  · rw [hn, writeRegister_status]
    rfl
  cases hb : s.status.busy with
  | true =>
    rw [writeRegister_busy hb hn]
    rfl
  | false =>
    rw [writeRegister_idle hb hn]
    cases writeClass name with
    | ro | status | cmd => rfl
    | rw | param => simp [memoryView]

/-- Settles O53. Of all turns only ENUM, ECDH and a reset write what the invariant speaks of. ENUM, also as a step of ECDH,
stores a list that fits, of residues of a modulus a register holds, or leaves the memory empty, as a reset does. -/
theorem stepKeepsThePointMemory : Obligations.StepKeepsThePointMemory := by
  intro s t hs hstep
  have hs0 : MemoryInv (withAgenda s.agenda.tail s) := hs.of_memoryView rfl
  cases step_effect hstep with
  | idle _ same => exact same ▸ hs0
  | command _ _ _ ran => exact exec_memoryInv ran hs0
  | illegal _ _ _ failed => exact failed ▸ hs0.of_memoryView rfl
  | reset zeroed => exact zeroed ▸ memoryInv_of_empty hs0.nptPos rfl rfl
  | busError _ answered => exact answered ▸ hs0.of_memoryView rfl
  | read name answered => exact answered ▸ hs0.of_memoryView (memoryView_readRegister name _)
  | write name v written => exact written ▸ hs0.of_memoryView (memoryView_writeRegister name v _)

end Sys2Proof.Machine

/-! The turns (45_control.md R270 to R275, 60_exceptions.md R305, R314): that every command and every decoded access has a next
state, what the core's turn does, and the issue of a command. -/

namespace Sys2Proof.Machine

/-! The core. -/

/-- Settles O23. NOP has no pseudocode, so it is its completion. -/
theorem nopOnlyCompletes : Obligations.NopOnlyCompletes := fun s => congrArg Host.Outcome.next (complete_none 0 s)

theorem completeStep_of_ok {s : State} {i : Instr} (h : decode s.cmd = .ok i) : completeStep s = exec i s := by
  rw [completeStep, h]

/-- R275: an illegal word raises IllegalCommand and writes nothing else. -/
theorem completeStep_of_error {s : State} {why : Illegal} (h : decode s.cmd = .error why) :
    completeStep s = .next (failedWith 4 s) := by
  rw [completeStep, h]
  exact congrArg Host.Outcome.next (complete_some .illegalCommand 0 s)

/-- No command stops the machine (R273). -/
theorem exec_next (i : Instr) (s : State) : ∃ t, exec i s = .next t := by cases i <;> exact ⟨_, rfl⟩

theorem exec_status_busy {i : Instr} {s t : State} (h : exec i s = .next t) : t.status.busy = false := by
  obtain ⟨s', -, rfl | ⟨e, n, -, -, rfl⟩⟩ := exec_completedWithin h
  · rfl
  · rfl

/-- R271: the completion step ends with BUSY clear and DONE set, for a legal word and an illegal one. -/
theorem completeStep_completes (s : State) :
    ∃ t, completeStep s = .next t ∧ t.status.busy = false ∧ t.status.done = true := by
  cases hd : decode s.cmd with
  | ok i =>
    obtain ⟨t, ht⟩ := exec_next i s
    exact ⟨t, (completeStep_of_ok hd).trans ht, exec_status_busy ht, exec_status_done ht⟩
  | error why => exact ⟨_, completeStep_of_error hd, rfl, rfl⟩

theorem coreTurn_next (s : State) : ∃ t, coreTurn s = .next t := by
  cases hb : s.status.busy with
  | false => exact ⟨s, coreTurn_idle hb⟩
  | true =>
    obtain ⟨t, ht, -⟩ := completeStep_completes s
    exact ⟨t, (coreTurn_busy hb).trans ht⟩

theorem step_core_busy {s : State} {rest : List Turn} (hbusy : s.status.busy = true) (ha : s.agenda = .core :: rest) :
    step s = completeStep (withAgenda rest s) := (step_turn ha).trans (coreTurn_busy hbusy)

/-- Settles O9. The core's turn while BUSY is 1 is the completion of the decoded word. -/
theorem coreTurnRunsTheDecodedCommand : Obligations.CoreTurnRunsTheDecodedCommand := by
  intro s i hbusy hword
  refine ⟨fun ha => ?_, fun rest ha => ?_⟩
  · rw [step_noTurn ha, coreTurn_busy hbusy, completeStep_of_ok hword]
  · rw [step_core_busy hbusy ha]
    exact completeStep_of_ok hword

/-- Settles O10. The core's turn while BUSY is 1 is the completion of the illegal word. -/
theorem illegalWordEndsWithIllegalCommand : Obligations.IllegalWordEndsWithIllegalCommand := by
  intro s why rest hbusy hword ha
  rw [step_core_busy hbusy ha]
  exact completeStep_of_error hword

/-- Settles O13. An empty agenda is the core's turn, and its completion ends the command. -/
theorem commandInProgressCompletesWhenTheHostIsQuiet : Obligations.CommandInProgressCompletesWhenTheHostIsQuiet := by
  intro s hbusy ha
  rw [step_noTurn ha, coreTurn_busy hbusy]
  exact completeStep_completes s

/-! The host. -/

/-- R61 to R64: inside the window an access addresses a register or is a bus error. -/
theorem target_inside {off : Nat} (h : off < 0x200) (size : Nat) :
    (∃ name, target off size = .reg name) ∨ target off size = .illegal := by
  by_cases hs : size ≠ 4 ∨ off % 4 ≠ 0 ∨ regAt off = none
  · exact .inr (target_illegal h hs)
  · push Not at hs
    obtain ⟨hsize, halign, hreg⟩ := hs
    obtain ⟨name, hname⟩ := Option.ne_none_iff_exists'.mp hreg
    exact .inl ⟨name, by rw [target, if_neg (by omega), if_neg (by omega), hname]⟩

theorem busRead_reg {off size : Nat} {name : RegName} (h : target off size = .reg name) (s : State) :
    busRead off size s = .next (readRegister name s) := by rw [busRead, h]

theorem busWrite_reg {off size : Nat} {name : RegName} (h : target off size = .reg name) (v : Word) (s : State) :
    busWrite off size v s = .next (answer (.write none) (writeRegister name v s)) := by rw [busWrite, h]

/-- R305: inside the window every access is answered. -/
theorem hostTurn_next {acc : Access} (h : decoded (.host acc) = true) (s : State) : ∃ t, hostTurn acc s = .next t := by
  cases acc with
  | read off size =>
    rcases target_inside (of_decide_eq_true h) size with ⟨name, ht⟩ | ht
    · exact ⟨_, busRead_reg ht s⟩
    · exact ⟨_, by rw [hostTurn, busRead, ht]⟩
  | write off size v =>
    rcases target_inside (of_decide_eq_true h) size with ⟨name, ht⟩ | ht
    · exact ⟨_, busWrite_reg ht v s⟩
    · exact ⟨_, by rw [hostTurn, busWrite, ht]⟩

/-- R61: an access this block does not decode is refused. -/
theorem hostTurn_refused {acc : Access} (h : decoded (.host acc) = false) (s : State) :
    ∃ off size, hostTurn acc s = .refused (.outsideWindow off size) := by
  cases acc with
  | read off size =>
    exact ⟨off, size, by rw [hostTurn, busRead, target_outside (not_lt.mp (of_decide_eq_false h))]⟩
  | write off size v =>
    exact ⟨off, size, by rw [hostTurn, busWrite, target_outside (not_lt.mp (of_decide_eq_false h))]⟩

theorem takeTurn_next {turn : Turn} (h : decoded turn = true) (s : State) : ∃ t, takeTurn turn s = .next t := by
  cases turn with
  | host acc => exact hostTurn_next h s
  | core => exact coreTurn_next s
  | reset => exact ⟨_, rfl⟩

theorem takeTurn_refused {turn : Turn} (h : decoded turn = false) (s : State) :
    ∃ off size, takeTurn turn s = .refused (.outsideWindow off size) := by
  cases turn with
  | host acc => exact hostTurn_refused h s
  | core | reset => cases h

/-- Settles O12. The core and the reset always have a next state; a host access has one exactly inside the window. -/
theorem everyDecodedTurnHasANextState : Obligations.EveryDecodedTurnHasANextState := by
  intro s
  cases ha : s.agenda with
  | nil =>
    rw [step_noTurn ha]
    exact ⟨fun _ => coreTurn_next s, nofun⟩
  | cons turn rest =>
    rw [step_turn ha]
    refine ⟨fun h => takeTurn_next (h turn rfl) _, fun t ht hout => ?_⟩
    obtain rfl := Option.some.inj ht
    exact takeTurn_refused hout _

/-- R67: the host's write of a register, by its name. -/
theorem step_write {s : State} {name : RegName} {v : Word} {rest : List Turn}
    (ha : s.agenda = .host (.write (regOffset name) 4 v) :: rest) :
    step s = .next (answer (.write none) (writeRegister name v (withAgenda rest s))) := by
  rw [step_turn ha, takeTurn, hostTurn, busWrite_reg (target_regOffset name)]

/-- R66: the host's read of a register, by its name. -/
theorem step_read {s : State} {name : RegName} {rest : List Turn}
    (ha : s.agenda = .host (.read (regOffset name) 4) :: rest) :
    step s = .next (readRegister name (withAgenda rest s)) := by
  rw [step_turn ha, takeTurn, hostTurn, busRead_reg (target_regOffset name)]

/-- R270: a write of CMD while no command runs is its issue. -/
theorem step_issue {s : State} {v : Word} {rest : List Turn} (hidle : s.status.busy = false)
    (ha : s.agenda = .host (.write (regOffset .cmd) 4 v) :: rest) :
    step s = .next (answer (.write none) (issue v (withAgenda rest s))) := by
  rw [step_write ha, writeRegister_idle (by exact hidle) (by decide)]
  rfl

/-- Settles O20. While no command runs the write is the issue; while one runs it is discarded like any other. -/
theorem commandWriteIssuesTheWord : Obligations.CommandWriteIssuesTheWord := by
  intro s rest v ha
  refine ⟨step_issue (ha := ha), fun hbusy => ?_⟩
  rw [step_write (name := .cmd) ha, writeRegister_busy (by exact hbusy) (by decide)]
  rfl

end Sys2Proof.Machine

/-! A host's `run` line (30_encoding.md R96, R97): the issue, the polls while the command runs, its completion, the last
poll. -/

namespace Sys2Proof.Machine

/-- R90, R92: the word of a command decodes to it. -/
theorem decode_encode (i : Instr) : decode (encode i) = .ok i := by cases i <;> decide

theorem run_step {s t : State} (h : step s = .next t) (k : Nat) :
    Host.Core.run Sys2Proof.core (k + 1) s = Host.Core.run Sys2Proof.core k t := by
  have hcore : Sys2Proof.core.step s = .next t := h
  simp only [Host.Core.run, hcore]

/-- The answer to a read of STATUS. -/
def statusAnswer (s : State) : Response := .read (statusWord s.status) none

/-- R66: a read of STATUS answers its word, whether a command runs or not, and changes no register. -/
theorem step_poll {s : State} {rest : List Turn} (ha : s.agenda = lineTurns [.rd .status] ++ rest) :
    step s = .next (withOutside rest (statusAnswer s :: s.responses) s.draws s) := by
  rw [step_read ha, readRegister_stored (.inr rfl)]
  rfl

/-- Any number of polls with no turn of another agent in between. -/
theorem run_polls (polls k : Nat) {s : State} {rest : List Turn}
    (ha : s.agenda = lineTurns (List.replicate polls (.rd .status)) ++ rest) :
    Host.Core.run Sys2Proof.core (polls + k) s =
      Host.Core.run Sys2Proof.core k
        (withOutside rest (List.replicate polls (statusAnswer s) ++ s.responses) s.draws s) := by
  induction polls generalizing s with
  | zero =>
    have hsame : withOutside rest s.responses s.draws s = s := by
      rw [show rest = s.agenda from ha.symm]
      rfl
    rw [Nat.zero_add, List.replicate_zero, List.nil_append, hsame]
  | succ polls ih =>
    rw [Nat.succ_add, run_step (step_poll ha), ih rfl, List.replicate_succ', List.append_assoc]
    rfl

/-- R271: the core's turn is the command in progress, whatever the model's own fields hold. -/
theorem step_command {i : Instr} {s t : State} (hbusy : s.status.busy = true) (hword : decode s.cmd = .ok i)
    (h : exec i s = .next t) (rest : List Turn) (rs : List Response) (d : Nat) :
    step (withOutside (.core :: rest) rs d s) = .next (withOutside rest rs d t) :=
  calc step (withOutside (.core :: rest) rs d s)
      = completeStep (withOutside rest rs d s) := step_core_busy hbusy rfl
    _ = exec i (withOutside rest rs d s) := completeStep_of_ok hword
    _ = .next (withOutside rest rs d t) := exec_withOutside rest rs d h

/-- R97: `wait` while a command is in progress ends in what the command leaves, with its report in the last answer. -/
theorem run_wait {i : Instr} {s t : State} (hbusy : s.status.busy = true) (hcmd : s.cmd = encode i)
    (h : exec i s = .next t) (polls : Nat) {rest : List Turn} (ha : s.agenda = waitTurns polls ++ rest) :
    Host.Core.run Sys2Proof.core (polls + 2) s =
      .next (withOutside rest
        (statusAnswer t :: (List.replicate polls (statusAnswer s) ++ s.responses)) s.draws t) := by
  have hword : decode s.cmd = .ok i := hcmd ▸ decode_encode i
  have hpolls := run_polls polls 2 (rest := .core :: (lineTurns [.rd .status] ++ rest))
    (ha.trans (List.append_assoc ..))
  rw [hpolls, run_step (step_command hbusy hword h _ _ _), run_step (step_poll rfl)]
  rfl

/-- Settles O22. The line is the issue followed by `wait`, and the command does the same whatever the model's own fields
hold. -/
theorem runLineRunsTheCommandAndReadsItsReport : Obligations.RunLineRunsTheCommandAndReadsItsReport := by
  intro i polls s t rest hidle ha h
  obtain ⟨-, -, hdraws⟩ := exec_sameOutside h
  have hissue : step s = .next (withOutside (waitTurns polls ++ rest) (.write none :: s.responses) s.draws
      (issue (encode i) s)) := step_issue hidle ha
  have hrun := exec_withOutside (waitTurns polls ++ rest) (.write none :: s.responses) s.draws h
  rw [run_step hissue, run_wait rfl rfl hrun polls rfl]
  change _ = Host.Outcome.next (withOutside rest _ t.draws t)
  rw [hdraws]
  rfl

end Sys2Proof.Machine

/-! The reset step (70_reset_and_hazards.md R340, R341): the model's own fields show in no register, and a reset's turn leaves
the state after reset in every other field. -/

namespace Sys2Proof.Machine

section

variable (turns : List Turn) (rs : List Response) (d : Nat)

@[simp] theorem getTriple_withOutside (t : PointReg) (s : State) :
    getTriple t (withOutside turns rs d s) = getTriple t s := by cases t <;> rfl

/-- No register shows the model's own fields. -/
@[simp] theorem regRead_withOutside (name : RegName) (s : State) :
    regRead name (withOutside turns rs d s) = regRead name s := by
  cases name with
  | ptX t => exact congrArg Triple.x (getTriple_withOutside turns rs d t s)
  | ptY t => exact congrArg Triple.y (getTriple_withOutside turns rs d t s)
  | ptInf t => exact congrArg (fun v => infWord v.inf) (getTriple_withOutside turns rs d t s)
  | _ => rfl

end

/-- R340, R341: the reset's turn, whatever runs. -/
theorem step_reset {s : State} {rest : List Turn} (ha : s.agenda = .reset :: rest) :
    step s = .next (withOutside rest s.responses s.draws (State.resetOf s.cap)) := by
  rw [step_turn ha]
  rfl

/-- Settles O8. The next state is the state after reset in all but the model's own fields, which no register shows. -/
theorem resetStepAbandonsTheCommandInProgress : Obligations.ResetStepAbandonsTheCommandInProgress := by
  intro s rest ha
  exact ⟨_, step_reset ha, fun name => regRead_withOutside rest s.responses s.draws name _, rfl, rfl, rfl, rfl, rfl, rfl⟩

end Sys2Proof.Machine

/-! The decoder (30_encoding.md R90 to R93): it accepts the words of the opcode map and no others, as words and as bytes. -/

namespace Sys2Proof.Machine

/-! The fields of a word. -/

theorem splitWord_rsv_toNat (w : Word) : (splitWord w).rsv.toNat = w.toNat / 2 ^ 8 := by
  simp only [splitWord, BitVec.extractLsb'_toNat, Nat.shiftRight_eq_div_pow]
  omega

theorem splitWord_opc_toNat (w : Word) : (splitWord w).opc.toNat = w.toNat % 2 ^ 8 := by
  simp [splitWord]

/-- R91: the reserved field is 0 exactly when bits [31:8] are. -/
theorem rsvZero_splitWord {w : Word} : (splitWord w).rsvZero = true ↔ w.toNat / 2 ^ 8 = 0 := by
  rw [CommandWord.rsvZero, beq_iff_eq, ← splitWord_rsv_toNat]
  exact BitVec.toNat_inj.symm

theorem append_toNat {n m : Nat} (u : BitVec n) (v : BitVec m) : (u ++ v).toNat = u.toNat * 2 ^ m + v.toNat := by
  rw [BitVec.toNat_append, ← Nat.shiftLeft_add_eq_or_of_lt v.isLt, Nat.shiftLeft_eq]

/-- R90: a word is its reserved field followed by its opcode. -/
theorem splitWord_append (w : Word) : (splitWord w).rsv ++ (splitWord w).opc = w := by
  apply BitVec.eq_of_toNat_eq
  rw [append_toNat, splitWord_rsv_toNat, splitWord_opc_toNat, Nat.div_add_mod']

/-! The opcode map. -/

/-- R92: the map finds a command exactly at its own opcode. -/
theorem opcodeMap_eq_some_iff {opc : BitVec 8} {i : Instr} : opcodeMap opc = some i ↔ opc = opcodeOf i := by
  constructor
  · intro h
    rw [opcodeMap] at h
    split at h <;> cases h <;> exact BitVec.eq_of_toNat_eq ‹_›
  · rintro rfl
    cases i <;> rfl

/-- R92: the map ends with the opcode of ECDH. -/
theorem opcodeMap_eq_none_iff {opc : BitVec 8} : opcodeMap opc = none ↔ 0x0B < opc.toNat := by
  constructor
  · intro h
    by_contra hle
    rw [opcodeMap] at h
    interval_cases opc.toNat <;> cases h
  · intro h
    obtain ⟨n, hn⟩ := Nat.exists_eq_add_of_le' h
    rw [opcodeMap, hn]
    rfl

/-! Decoding a word. -/

theorem decode_of_rsv_ne_zero {w : Word} (h : w.toNat / 2 ^ 8 ≠ 0) : decode w = .error .reservedBits :=
  if_neg (mt rsvZero_splitWord.mp h)

theorem decode_of_rsv_zero {w : Word} (h : w.toNat / 2 ^ 8 = 0) :
    decode w = (opcodeMap (splitWord w).opc).elim (.error .reservedOpcode) .ok := by
  rw [decode, if_pos (rsvZero_splitWord.mpr h)]
  cases opcodeMap (splitWord w).opc <;> rfl

/-- R91, R92: the words that decode to a command are its own. -/
theorem decode_eq_ok_iff {w : Word} {i : Instr} : decode w = .ok i ↔ w = encode i := by
  refine ⟨fun h => ?_, fun h => h ▸ decode_encode i⟩
  have hrsv : w.toNat / 2 ^ 8 = 0 := by
    by_contra hne
    cases (decode_of_rsv_ne_zero hne).symm.trans h
  rw [decode_of_rsv_zero hrsv] at h
  cases hopc : opcodeMap (splitWord w).opc with
  | none => simp [hopc] at h
  | some j =>
    obtain rfl : j = i := by simpa [hopc] using h
    have hzero : (splitWord w).rsv = 0 := BitVec.eq_of_toNat_eq (by rw [splitWord_rsv_toNat, hrsv]; rfl)
    rw [← splitWord_append w, hzero, opcodeMap_eq_some_iff.mp hopc, encode]

/-- Settles O3. The reserved field is looked at first, then the opcode map. -/
theorem legalWordsHaveZeroReservedBitsAndAKnownOpcode :
    Obligations.LegalWordsHaveZeroReservedBitsAndAKnownOpcode := by
  intro w
  have hunknown (hrsv : w.toNat / 2 ^ 8 = 0) (hopc : 0x0B < w.toNat % 2 ^ 8) : decode w = .error .reservedOpcode := by
    rw [decode_of_rsv_zero hrsv, opcodeMap_eq_none_iff.mpr (by rwa [splitWord_opc_toNat])]
    rfl
  refine ⟨⟨?legal, ?known⟩, decode_of_rsv_ne_zero, hunknown⟩
  case legal =>
    rintro ⟨i, h⟩
    rw [decode_eq_ok_iff.mp h]
    cases i <;> decide
  case known =>
    rintro ⟨hrsv, hopc⟩
    cases hmap : opcodeMap (splitWord w).opc with
    | none =>
      have := opcodeMap_eq_none_iff.mp hmap
      rw [splitWord_opc_toNat] at this
      omega
    | some i => exact ⟨i, by rw [decode_of_rsv_zero hrsv, hmap]; rfl⟩

/-! Decoding bytes. -/

theorem wordOfLanes_toNat (b0 b1 b2 b3 : Byte) :
    (wordOfLanes b0 b1 b2 b3).toNat = ((b3.toNat * 2 ^ 8 + b2.toNat) * 2 ^ 8 + b1.toNat) * 2 ^ 8 + b0.toNat := by
  simp only [wordOfLanes, append_toNat]

theorem laneOf_toNat (w : Word) (k : Nat) : (laneOf w k).toNat = w.toNat / 2 ^ (8 * k) % 2 ^ 8 := by
  rw [laneOf, BitVec.extractLsb'_toNat, Nat.shiftRight_eq_div_pow]

/-- R65: lane `k` of the word that four bytes make is byte `k`. -/
theorem lanesOf_wordOfLanes (b0 b1 b2 b3 : Byte) : lanesOf (wordOfLanes b0 b1 b2 b3) = [b0, b1, b2, b3] := by
  have hlane (k : Nat) (b : Byte) (h : (wordOfLanes b0 b1 b2 b3).toNat / 2 ^ (8 * k) % 2 ^ 8 = b.toNat) :
      laneOf (wordOfLanes b0 b1 b2 b3) k = b := BitVec.eq_of_toNat_eq ((laneOf_toNat _ k).trans h)
  rw [wordOfLanes_toNat] at hlane
  rw [lanesOf, hlane 0 b0 (by omega), hlane 1 b1 (by omega), hlane 2 b2 (by omega), hlane 3 b3 (by omega)]

/-- Settles O2. Four bytes are the lanes of the word they make, and that word decodes to its own command only; of another
number of bytes none is a word. -/
theorem decodeInvertsEncodeAndAcceptsNothingElse : Obligations.DecodeInvertsEncodeAndAcceptsNothingElse := by
  intro bs i
  constructor
  · intro h
    unfold decodeBytes at h
    split at h
    · rw [encodeBytes, ← decode_eq_ok_iff.mp h, lanesOf_wordOfLanes]
    · cases h
  · rintro rfl
    cases i <;> decide

/-- Settles O1. The words of the map are those of their commands (O2); the two others break one rule of R91 each (O3). -/
theorem wordsOfTheOpcodeMapDecode : Obligations.WordsOfTheOpcodeMapDecode := by
  have hword (bs : List Byte) (i : Instr) := (decodeInvertsEncodeAndAcceptsNothingElse bs i).mpr
  obtain ⟨-, -, hopcode⟩ := legalWordsHaveZeroReservedBitsAndAKnownOpcode (wordOfLanes 0x0C 0 0 0)
  exact ⟨hword _ _ (by decide), hword _ _ (by decide), hword _ _ (by decide), hopcode (by decide) (by decide),
    decode_of_rsv_ne_zero (by decide)⟩

end Sys2Proof.Machine

/-! The register window (10_state.md R21, R24, 20_memory.md R64): which offsets have a register, and the fields of the STATUS
word. -/

namespace Sys2Proof.Machine

/-- R64: an offset has a register exactly when it is a register's own. -/
theorem regAt_eq_some_iff {off : Nat} {name : RegName} : regAt off = some name ↔ regOffset name = off := by
  constructor
  · intro h
    simpa using List.find?_some h
  · rintro rfl
    exact regAt_regOffset name

/-- R64: the reserved offsets, read off the register map at each of the 128 words of the window. -/
theorem regAt_word_eq_none_iff : ∀ k < 0x80, regAt (4 * k) = none ↔
    4 * k = 0x01C ∨ 4 * k = 0x028 ∨ 4 * k = 0x02C ∨ 4 * k = 0x03C ∨ 4 * k = 0x04C ∨ (0x054 ≤ 4 * k ∧ 4 * k ≤ 0x05C) ∨
      4 * k = 0x06C ∨ (0x084 ≤ 4 * k ∧ 4 * k ≤ 0x08C) ∨ 4 * k = 0x09C ∨ 4 * k = 0x0AC ∨ 4 * k = 0x0BC ∨ 4 * k = 0x0CC ∨
      (0x0D8 ≤ 4 * k ∧ 4 * k ≤ 0x0DC) ∨ 4 * k = 0x0EC ∨ 4 * k = 0x0FC ∨ 4 * k = 0x10C ∨ 0x120 ≤ 4 * k := by decide

/-- Settles O5. The reserved offsets are evaluated; a register is found at its own offset because no two share one. -/
theorem reservedOffsetsAreExactlyThoseListed : Obligations.ReservedOffsetsAreExactlyThoseListed := by
  refine ⟨fun off hlt halign => ?_, fun off name => regAt_eq_some_iff⟩
  obtain ⟨k, rfl⟩ := Nat.dvd_of_mod_eq_zero halign
  exact regAt_word_eq_none_iff k (by omega)

/-! The STATUS word. -/

theorem extractLsb'_eq_of_toNat {w : Word} {start len : Nat} {field : BitVec len}
    (h : w.toNat / 2 ^ start % 2 ^ len = field.toNat) : w.extractLsb' start len = field :=
  BitVec.eq_of_toNat_eq (by rw [BitVec.extractLsb'_toNat, Nat.shiftRight_eq_div_pow, h])

theorem getLsbD_eq_of_toNat {w : Word} {i : Nat} {f : Bool} (h : w.toNat / 2 ^ i % 2 = f.toNat) : w.getLsbD i = f := by
  rw [BitVec.getLsbD, Nat.testBit_eq_decide_div_mod_eq, h]
  cases f <;> rfl

/-- R24: the STATUS word as a number, from its most significant field. -/
theorem statusWord_toNat (f : Status) : (statusWord f).toNat =
    ((((((f.errstep.toNat * 2 ^ 4 + f.errcode.toNat) * 2 ^ 3 * 2 + f.busywr.toNat) * 2 + f.ptvalid.toNat) * 2 +
      f.err.toNat) * 2 + f.done.toNat) * 2 + f.busy.toNat) := by
  simp only [statusWord, append_toNat, flagBit, BitVec.toNat_ofBool, BitVec.ofNat_eq_ofNat, BitVec.toNat_ofNat]
  omega

/-- Settles O4. Each field is read off the number the word is. -/
theorem statusWordHasTheFieldsAtTheirBits : Obligations.StatusWordHasTheFieldsAtTheirBits := by
  intro f
  have hbusy := f.busy.toNat_lt
  have hdone := f.done.toNat_lt
  have herr := f.err.toNat_lt
  have hptvalid := f.ptvalid.toNat_lt
  have hbusywr := f.busywr.toNat_lt
  have hcode := f.errcode.isLt
  have hstep := f.errstep.isLt
  refine ⟨getLsbD_eq_of_toNat ?_, getLsbD_eq_of_toNat ?_, getLsbD_eq_of_toNat ?_, getLsbD_eq_of_toNat ?_,
    getLsbD_eq_of_toNat ?_, extractLsb'_eq_of_toNat ?_, extractLsb'_eq_of_toNat ?_, extractLsb'_eq_of_toNat ?_,
    extractLsb'_eq_of_toNat ?_⟩
  all_goals
    rw [statusWord_toNat]
    simp only [Nat.reducePow, BitVec.ofNat_eq_ofNat, BitVec.toNat_ofNat]
    omega

end Sys2Proof.Machine

/-! The host's accesses (20_memory.md R60 to R69): what each answers and changes, and that none disturbs a command in
progress. -/

namespace Sys2Proof.Machine

/-! One access. -/

/-- Settles O11. With BUSY 0 no completion is enabled. -/
theorem idleCoreDoesNothing : Obligations.IdleCoreDoesNothing := by
  intro s rest hidle ha
  rw [step_turn ha]
  exact coreTurn_idle hidle

/-- Settles O14. Every such access is illegal (`target_illegal`), whichever of the three faults it has. -/
theorem illegalAccessIsABusErrorAndChangesNothing : Obligations.IllegalAccessIsABusErrorAndChangesNothing := by
  intro s rest off size v hoff hbad
  have htarget := target_illegal hoff hbad
  refine ⟨fun ha => ?read, fun ha => ?write⟩
  case read =>
    rw [step_turn ha, takeTurn, hostTurn, busRead, htarget]
    rfl
  case write =>
    rw [step_turn ha, takeTurn, hostTurn, busWrite, htarget]
    rfl

@[simp] theorem regRead_withAgenda (name : RegName) (turns : List Turn) (s : State) :
    regRead name (withAgenda turns s) = regRead name s := regRead_withOutside turns s.responses s.draws name s

@[simp] theorem regRead_answer (name : RegName) (q : Response) (s : State) :
    regRead name (answer q s) = regRead name s := regRead_withOutside s.agenda (q :: s.responses) s.draws name s

/-- Settles O15. The read's two cases are those of `readRegister`, after the turn is taken off the agenda. -/
theorem readAnswersTheRegisterWithoutSideEffect : Obligations.ReadAnswersTheRegisterWithoutSideEffect := by
  intro s rest name ha
  rw [step_read ha]
  refine ⟨fun hstored => ?stored, fun hbusy hresult => ?free⟩
  case stored =>
    rw [readRegister_stored (by exact hstored), regRead_withAgenda]
    rfl
  case free => exact ⟨Config.busyReadWord s.draws, by rw [readRegister_free (by exact hbusy) hresult]; rfl⟩

/-- Settles O16. Of the registers only STATUS takes a write while BUSY is 1. -/
theorem writeWhileBusyIsDiscarded : Obligations.WriteWhileBusyIsDiscarded := by
  intro s rest name v hbusy hname ha
  rw [step_write ha, writeRegister_busy (by exact hbusy) hname]
  rfl

/-- R24: bit 4 of a word written to STATUS clears BUSYWR. -/
theorem statusWritten_eq (v : Word) (f : Status) :
    statusWritten v f = { f with busywr := if v.getLsbD 4 then false else f.busywr } := by
  rw [statusWritten]
  cases v.getLsbD 4 <;> simp

/-- Settles O17. A write of STATUS does the same whether BUSY is 0 or 1. -/
theorem statusWriteClearsOnlyBusywr : Obligations.StatusWriteClearsOnlyBusywr := by
  intro s rest v ha
  rw [step_write (name := .status) ha, writeRegister_status, statusWritten_eq]
  rfl

/-- R21: the read-only registers by name. -/
theorem writeClass_of_readOnly : ∀ name ∈
    [.id, .cap, .rn, .mreg, .hreg, .pcount, .px, .py] ++ regsOf [.r, .qa, .qb, .sa, .sb, .qm, .c, .sp],
    writeClass name = .ro := by decide

/-- Settles O19. The registers listed are of class RO, whose write stores nothing. -/
theorem writeOfAReadOnlyRegisterIsIgnored : Obligations.WriteOfAReadOnlyRegisterIsIgnored := by
  intro s rest name v hidle hname ha
  have hclass := writeClass_of_readOnly name hname
  have hstatus : name ≠ .status := by rintro rfl; cases hclass
  rw [step_write ha, writeRegister_idle (by exact hidle) hstatus, hclass]
  rfl

/-! An accepted write. -/

/-- R30: an INF register keeps bit 0 of the word. -/
theorem infWord_getLsbD_zero (v : Word) : infWord (v.getLsbD 0) = v % 2 := by
  apply BitVec.eq_of_toNat_eq
  rw [infWord, flagBit, BitVec.getLsbD, Nat.testBit_zero]
  rcases Nat.mod_two_eq_zero_or_one v.toNat with h | h <;> simp [h]

/-- A host writes a register of a triple only when the triple is an operand (R21, R29). -/
theorem isOperand_of_accepted {t : PointReg} {c : WriteClass} (hc : c = .rw ∨ c = .param)
    (h : (if isOperand t then WriteClass.rw else .ro) = c) : isOperand t = true := by
  by_contra hn
  rw [if_neg hn] at h
  subst h
  simp at hc

/-- R67, R30: what an accepted write of a word leaves to be read: the word, or for an INF register bit 0 of it. -/
def keptWord (name : RegName) (v : Word) : Word :=
  match name with
  | .ptInf _ => v % 2
  | _ => v

theorem regRead_regStore_same {name : RegName} (h : writeClass name = .rw ∨ writeClass name = .param) (v : Word)
    (s : State) : regRead name (regStore name v s) = keptWord name v := by
  cases name with
  | ptX t | ptY t => simp [regRead, regStore, keptWord, isOperand_of_accepted h rfl]
  | ptInf t =>
    rw [regRead, regStore, if_pos (isOperand_of_accepted h rfl), getTriple_setTriple_same]
    exact infWord_getLsbD_zero v
  | p | a | b | n | k | gx | gy | da | db | msg | pidx => rfl
  | id | cmd | status | cap | rn | mreg | hreg | pcount | px | py => simp [writeClass] at h

/-- What a write of a triple leaves in a register: of the triple's own the content given, any other as it was. -/
theorem regRead_setTriple_eq {other : RegName} {t : PointReg} {v : Triple} {s : State}
    (hx : other = .ptX t → v.x = (getTriple t s).x) (hy : other = .ptY t → v.y = (getTriple t s).y)
    (hinf : other = .ptInf t → v.inf = (getTriple t s).inf) : regRead other (setTriple t v s) = regRead other s := by
  cases other with
  | ptX u | ptY u | ptInf u =>
    by_cases hu : u = t
    · subst hu
      simp_all [regRead]
    · simp [regRead, getTriple_setTriple_ne hu]
  | _ => simp [regRead, ptEntry]

/-- R67, R37: every other register reads as before, but for PX and PY after a write of PIDX. -/
theorem regRead_regStore_ne {name other : RegName} (hne : other ≠ name)
    (hview : name = .pidx → other ≠ .px ∧ other ≠ .py) (v : Word) (s : State) :
    regRead other (regStore name v s) = regRead other s := by
  cases name with
  | ptX t | ptY t | ptInf t =>
    rw [regStore]
    split
    · exact regRead_setTriple_eq (fun h => by simp_all) (fun h => by simp_all) fun h => by simp_all
    · rfl
  | id | cmd | status | cap | rn | mreg | hreg | pcount | px | py => rfl
  | pidx =>
    obtain ⟨hpx, hpy⟩ := hview rfl
    cases other with
    | pidx => exact absurd rfl hne
    | px => exact absurd rfl hpx
    | py => exact absurd rfl hpy
    | ptX u | ptY u | ptInf u => cases u <;> rfl
    | _ => rfl
  | p | a | b | n | k | gx | gy | da | db | msg =>
    cases other with
    | ptX u | ptY u | ptInf u => cases u <;> rfl
    | _ => first | rfl | exact absurd rfl hne

theorem regRead_setStatus {name : RegName} (h : name ≠ .status) (f : Status) (s : State) :
    regRead name (setStatus f s) = regRead name s := by
  cases name with
  | status => exact absurd rfl h
  | ptX t | ptY t | ptInf t => simp [regRead]
  | _ => rfl

/-- R27: the class of P, A and B is theirs alone. -/
theorem writeClass_eq_param_iff {name : RegName} : writeClass name = .param ↔ name = .p ∨ name = .a ∨ name = .b := by
  cases name with
  | ptX t | ptY t | ptInf t => cases t <;> decide
  | _ => decide

/-- R67, R27: an accepted write stores the word; of STATUS it clears PTVALID when it is of P, A or B. -/
theorem writeRegister_accepted {name : RegName} {s : State} (hidle : s.status.busy = false)
    (h : writeClass name = .rw ∨ writeClass name = .param) (v : Word) :
    writeRegister name v s = setStatus
      (if name = .p ∨ name = .a ∨ name = .b then { s.status with ptvalid := false } else s.status)
      (regStore name v s) := by
  have hstatus : name ≠ .status := by rintro rfl; simp [writeClass] at h
  rw [writeRegister_idle hidle hstatus]
  rcases h with h | h
  · rw [h, if_neg (mt writeClass_eq_param_iff.mpr (by simp [h])), ← regStore_status name v s]
    rfl
  · rw [h, if_pos (writeClass_eq_param_iff.mp h)]
    rfl

/-- Settles O18. The write is `regStore` but for PTVALID, and no register shows the agenda or the responses. -/
theorem acceptedWriteIsStored : Obligations.AcceptedWriteIsStored := by
  intro s rest name v hidle hclass ha
  have hstatus : name ≠ .status := by rintro rfl; simp [writeClass] at hclass
  have hwrite := step_write ha
  rw [writeRegister_accepted (by exact hidle) hclass] at hwrite
  refine ⟨_, hwrite, ?stored, rfl, fun other hne hother hview => ?frame, ?list, ?agenda, ?responses, ?draws⟩
  case stored =>
    rw [regRead_answer, regRead_setStatus hstatus]
    exact regRead_regStore_same hclass v _
  case frame => rw [regRead_answer, regRead_setStatus hother, regRead_regStore_ne hne hview, regRead_withAgenda]
  case list => exact ⟨by simp, by simp⟩
  case agenda => simp
  case responses => simp
  case draws => simp

end Sys2Proof.Machine

/-! The host while a command is in progress (20_memory.md R67, R69): no access changes more than BUSYWR and the model's own
fields, so no number of them does. -/

namespace Sys2Proof.Machine

/-- `t` is `s` but for STATUS.BUSYWR, the responses and the count of draws. -/
def sameButBusywr (s t : State) : Prop :=
  t = withOutside s.agenda t.responses t.draws (setStatus { s.status with busywr := t.status.busywr } s)

theorem sameButBusywr_trans {s t u : State} (hst : sameButBusywr s t) (htu : sameButBusywr t u) : sameButBusywr s u := by
  rw [sameButBusywr, hst] at htu
  exact htu

theorem sameButBusywr_withAgenda {s t : State} (h : sameButBusywr s t) (turns : List Turn) :
    sameButBusywr (withAgenda turns s) (withAgenda turns t) := congrArg (withAgenda turns) h

theorem sameButBusywr_busy {s t : State} (h : sameButBusywr s t) : t.status.busy = s.status.busy := by rw [h]; rfl

theorem sameButBusywr_agenda {s t : State} (h : sameButBusywr s t) : t.agenda = s.agenda := by rw [h]; rfl

theorem readRegister_sameButBusywr (name : RegName) (s : State) : sameButBusywr s (readRegister name s) := by
  rw [readRegister]
  split <;> rfl

/-- R67: while a command runs a write is discarded, or is of STATUS and can clear BUSYWR only. -/
theorem writeRegister_sameButBusywr {s : State} (hbusy : s.status.busy = true) (name : RegName) (v : Word) :
    sameButBusywr s (writeRegister name v s) := by
  by_cases hn : name = .status
  · rw [hn, writeRegister_status]
    rfl
  · rw [writeRegister_busy hbusy hn]
    rfl

/-- What one access that this block decodes does: it answers, with nothing else changed, or reads or writes a register. -/
theorem hostTurn_cases {acc : Access} {s t : State} (h : hostTurn acc s = .next t) :
    (∃ r, t = answer r s) ∨ (∃ name, t = readRegister name s) ∨
      ∃ name v, t = answer (.write none) (writeRegister name v s) := by
  cases acc with
  | read off size =>
    simp only [hostTurn, busRead] at h
    split at h
    · exact .inr (.inl ⟨_, (Host.Outcome.next.inj h).symm⟩)
    · exact .inl ⟨_, (Host.Outcome.next.inj h).symm⟩
    · cases h
  | write off size v =>
    simp only [hostTurn, busWrite] at h
    split at h
    · exact .inr (.inr ⟨_, v, (Host.Outcome.next.inj h).symm⟩)
    · exact .inl ⟨_, (Host.Outcome.next.inj h).symm⟩
    · cases h

/-- R39, R67, R69: one access while a command runs. -/
theorem hostTurn_sameButBusywr {acc : Access} {s t : State} (hbusy : s.status.busy = true)
    (h : hostTurn acc s = .next t) : sameButBusywr s t := by
  rcases hostTurn_cases h with ⟨r, rfl⟩ | ⟨name, rfl⟩ | ⟨name, v, rfl⟩
  · rfl
  · exact readRegister_sameButBusywr name s
  · exact sameButBusywr_trans (writeRegister_sameButBusywr hbusy name v) rfl

theorem step_host_sameButBusywr {acc : Access} {s t : State} {rest : List Turn} (hbusy : s.status.busy = true)
    (ha : s.agenda = .host acc :: rest) (h : step s = .next t) : sameButBusywr (withAgenda rest s) t :=
  hostTurn_sameButBusywr hbusy ((step_turn ha).symm.trans h)

/-- A run of one step and more takes its first step. -/
theorem run_succ_next {s t : State} {k : Nat} (h : Host.Core.run Sys2Proof.core (k + 1) s = .next t) :
    ∃ u, step s = .next u ∧ Host.Core.run Sys2Proof.core k u = .next t := by
  cases hs : step s with
  | next u => exact ⟨u, rfl, (run_step hs k).symm.trans h⟩
  | fault r =>
    have hcore : Sys2Proof.core.step s = .fault r := hs
    simp [Host.Core.run, hcore] at h
  | refused r =>
    have hcore : Sys2Proof.core.step s = .refused r := hs
    simp [Host.Core.run, hcore] at h

/-- R69: any number of accesses while a command runs. -/
theorem run_host_sameButBusywr {accs : List Access} {s t : State} {rest : List Turn} (hbusy : s.status.busy = true)
    (ha : s.agenda = accs.map .host ++ rest) (h : Host.Core.run Sys2Proof.core accs.length s = .next t) :
    sameButBusywr (withAgenda rest s) t := by
  induction accs generalizing s with
  | nil =>
    obtain rfl := Host.Outcome.next.inj h
    rw [show rest = s.agenda from ha.symm]
    rfl
  | cons acc accs ih =>
    obtain ⟨u, hstep, hrun⟩ := run_succ_next h
    have hsu := step_host_sameButBusywr hbusy ha hstep
    have hut := ih ((sameButBusywr_busy hsu).trans hbusy) (sameButBusywr_agenda hsu) hrun
    exact sameButBusywr_trans (sameButBusywr_withAgenda hsu rest) hut

/-- Settles O21. By induction on the accesses: each leaves the command in progress, so the next one meets it too. -/
theorem hostCannotDisturbACommandInProgress : Obligations.HostCannotDisturbACommandInProgress := by
  intro accs s t rest hbusy ha h
  have hsame := run_host_sameButBusywr hbusy ha h
  exact ⟨sameButBusywr_agenda hsame, hsame⟩

end Sys2Proof.Machine

/-! The result registers (10_state.md R32, R33, R35): a point written to a triple, what every write of a result leaves
canonical, and that every step keeps the invariant; and the four invariants at reset. -/

namespace Sys2Proof.Machine

/-! Points in triples. -/

/-- Settles O6. The triple holds `tripleOf` the point, whose words read back as the coordinates. -/
theorem pointWrittenToATripleReadsBack : Obligations.PointWrittenToATripleReadsBack := by
  intro t v p s hp hv
  have htriple := getTriple_pointOut_same t v s
  refine ⟨pointIn_of_getTriple hp hv htriple, ?_⟩
  rintro rfl
  simp only [regRead, htriple]
  exact ⟨rfl, rfl, rfl⟩

/-- The word of a residue is the residue, for a modulus a register holds (R7). -/
theorem enc32_toNat_lt {x p : Int} (h0 : 0 ≤ x) (hx : x < p) (hp : p ≤ 2 ^ 31 - 1) : (enc32 x).toNat < 2 ^ 31 - 1 := by
  rw [enc32_toNat h0 (by omega)]
  omega

theorem canonicalTriple_zero : canonicalTriple .zero := ⟨nofun, by decide, by decide⟩

/-- R32: a point in range is written canonically. -/
theorem canonicalTriple_tripleOf {v : Point} {p : Int} (hp : p ≤ 2 ^ 31 - 1) (hv : inRange v p = true) :
    canonicalTriple (tripleOf v) := by
  cases v with
  | inf => exact ⟨fun _ => ⟨rfl, rfl⟩, by decide, by decide⟩
  | aff x y =>
    obtain ⟨hx0, hxp, hy0, hyp⟩ := inRange_aff.mp hv
    exact ⟨nofun, enc32_toNat_lt hx0 hxp hp, enc32_toNat_lt hy0 hyp hp⟩

/-! Writes that keep the invariant. -/

/-- `ResultsInv` depends on the result registers only. -/
theorem ResultsInv.congr {s t : State} (hs : ResultsInv s)
    (htriples : ∀ u, isOperand u = false → getTriple u t = getTriple u s) (hrn : t.rn = s.rn) (hmreg : t.mreg = s.mreg)
    (hhreg : t.hreg = s.hreg) : ResultsInv t where
  triples u hu := htriples u hu ▸ hs.triples u hu
  rn := hrn ▸ hs.rn
  mreg := hmreg ▸ hs.mreg
  hreg := hhreg ▸ hs.hreg

theorem ResultsInv.setTriple {s : State} (hs : ResultsInv s) {v : Triple} (hv : canonicalTriple v) (u : PointReg) :
    ResultsInv (setTriple u v s) where
  triples t ht := by
    rw [getTriple_setTriple]
    split
    · exact hv
    · exact hs.triples t ht
  rn := by simpa using hs.rn
  mreg := by simpa using hs.mreg
  hreg := by simpa using hs.hreg

theorem ResultsInv.pointOut {s : State} (hs : ResultsInv s) {v : Point} {w : Word} (hv : inRange v (sext32 w) = true)
    (u : PointReg) : ResultsInv (pointOut u v s) :=
  hs.setTriple (canonicalTriple_tripleOf (sext32_le w) hv) u

theorem ResultsInv.setRn {s : State} (hs : ResultsInv s) {w : Word} {r : Int} (h0 : 0 ≤ r) (hr : r < sext32 w) :
    ResultsInv (setRn (enc32 r) s) where
  triples t ht := by simpa using hs.triples t ht
  rn := enc32_toNat_lt h0 hr (sext32_le w)
  mreg := hs.mreg
  hreg := hs.hreg

/-- R210, R211: `M` and `h` of a message and a modulus that registers hold. -/
theorem ResultsInv.setCodec {s : State} (hs : ResultsInv s) (m : Word) {w : Word} (hp : 0 ≤ sext32 w) :
    ResultsInv (setCodec (enc32 (chooseM (sext32 m))) (enc32 (slotWidth (sext32 w) (sext32 m))) s) where
  triples t ht := by simpa using hs.triples t ht
  rn := hs.rn
  mreg := by
    obtain ⟨h1, hle⟩ := chooseM_range m
    rw [setCodec_mreg, enc32_toNat (by omega) (by omega)]
    omega
  hreg := by
    obtain ⟨h0, hle⟩ := slotWidth_range hp m
    have hw := sext32_le w
    rw [setCodec_hreg, enc32_toNat h0 (by omega)]
    omega

/-! The curve list. -/

theorem Memory.mem_of_read {m : Memory} {i : Nat} {v : Int × Int} (h : m.read i = some v) : (i, v) ∈ m := by
  induction m with
  | nil => cases h
  | cons e rest ih =>
    obtain ⟨j, w⟩ := e
    rw [Memory.read] at h
    split at h
    · obtain rfl := Option.some.inj h
      subst_vars
      exact List.mem_cons_self ..
    · exact List.mem_cons_of_mem _ (ih h)

/-- R36: the points of the list are held, with coordinates a register holds. -/
theorem curveList_inRange {s : State} (hs : MemoryInv s) : ∀ q ∈ curveList s, inRange (.aff q.1 q.2) (2 ^ 31 - 1) = true := by
  refine forall_mem_curveList.mpr fun i hi => ?_
  obtain ⟨v, hv⟩ := Option.isSome_iff_exists.mp (hs.listed i hi)
  obtain ⟨-, hx0, hx1, hy0, hy1⟩ := hs.entries _ (Memory.mem_of_read hv)
  rw [ptEntry, hv]
  exact inRange_aff.mpr ⟨hx0, hx1, hy0, hy1⟩

/-! The commands. -/

/-- On a state that meets the point memory's invariant the body keeps the results canonical. -/
def keepsResults (body : State → Ran) : Prop := ∀ s, MemoryInv s → ResultsInv s → ResultsInv (body s).state

theorem keepsResults_attempt {α : Type} {value : State → Except ErrCode α} {errors : List ErrCode} {good : State → α → Prop}
    {commit : α → State → State} (hvalue : ∀ s, endsIn (value s) errors (good s))
    (hcommit : ∀ s v, good s v → ResultsInv s → ResultsInv (commit v s)) :
    keepsResults fun s => attempt (value s) commit s := by
  intro s _ hs
  obtain ⟨e, he, -⟩ | ⟨v, hv, hgood⟩ := hvalue s
  · simpa only [attempt, he] using hs
  · simpa only [attempt, hv] using hcommit s v hgood hs

theorem keepsResults_setRn {value : State → Except ErrCode Int} {errors : List ErrCode}
    (hvalue : ∀ s, endsIn (value s) errors fun r => 2 ≤ sext32 s.p ∧ 0 ≤ r ∧ r < sext32 s.p) :
    keepsResults fun s => attempt (value s) (fun r => setRn (enc32 r)) s :=
  keepsResults_attempt hvalue fun _ _ ⟨_, h0, hr⟩ hs => hs.setRn h0 hr

theorem keepsResults_pointOut {value : State → Except ErrCode Point} {errors : List ErrCode}
    (hvalue : ∀ s, endsIn (value s) errors fun v => 2 ≤ sext32 s.p ∧ inRange v (sext32 s.p) = true) (u : PointReg) :
    keepsResults fun s => attempt (value s) (pointOut u) s :=
  keepsResults_attempt hvalue fun _ _ ⟨_, hv⟩ hs => hs.pointOut hv u

theorem enumBody_keepsResults : keepsResults enumBody := by
  intro s _ hs
  rcases enumBody_cases s with ⟨-, h⟩ | ⟨-, -, h⟩ | ⟨-, -, h⟩
  · rw [h]
    exact hs
  · rw [h]
    exact hs.congr (fun _ _ => getTriple_setList ..) rfl rfl rfl
  · rw [h]
    exact hs.congr (fun _ _ => getTriple_setList ..) rfl rfl rfl

theorem keygenBody_keepsResults : keepsResults keygenBody :=
  keepsResults_attempt keygenValue_ends fun _ _ ⟨_, h1, h2⟩ hs => (hs.pointOut h1 .qa).pointOut h2 .qb

theorem sharedBody_keepsResults : keepsResults sharedBody := by
  intro s _ hs
  rcases sharedBody_cases s with ⟨e, h, -⟩ | ⟨v, w, -, hv, hw, h⟩
  · rw [h]
    exact hs
  · rw [h]
    exact (hs.pointOut hv .sa).pointOut hw .sb

/-- ENCODE copies a point of the list to QM, which is why the point memory's invariant is needed. -/
theorem encodeBody_keepsResults : keepsResults encodeBody := by
  intro s hmem hs
  rcases encodeBody_cases s with ⟨e, h, -⟩ | ⟨hp, -, -, _, rfl, h | ⟨q, hq, h⟩⟩
  · rw [h]
    exact hs
  · rw [h]
    exact hs.setCodec s.msg (by omega)
  · rw [h]
    exact (hs.setCodec s.msg (by omega)).setTriple (canonicalTriple_tripleOf le_rfl (curveList_inRange hmem q hq)) .qm

theorem encryptBody_keepsResults : keepsResults encryptBody :=
  keepsResults_attempt encryptValue_ends fun _ _ ⟨_, hv⟩ hs => (hs.pointOut hv .c).setTriple (hs.triples .qa rfl) .sp

theorem ResultsInv.setStatus {s : State} (hs : ResultsInv s) (f : Status) : ResultsInv (setStatus f s) :=
  hs.congr (fun _ _ => getTriple_setStatus ..) rfl rfl rfl

theorem finish_resultsInv {body : State → Ran} (hb : keepsResults body) {s t : State} (hmem : MemoryInv s)
    (hs : ResultsInv s) (h : finish (body s) = .next t) : ResultsInv t := by
  obtain rfl := Host.Outcome.next.inj h
  exact (hb s hmem hs).setStatus _

theorem exec_resultsInv_of_ne_ecdh {i : Instr} (hi : i ≠ .ecdh) {s t : State} (hmem : MemoryInv s) (hs : ResultsInv s)
    (h : exec i s = .next t) : ResultsInv t := by
  cases i with
  | nop => exact finish_resultsInv (body := fun s => ⟨s, none⟩) (fun _ _ hs => hs) hmem hs h
  | reduce => exact finish_resultsInv (keepsResults_setRn reduceValue_ends) hmem hs h
  | inv => exact finish_resultsInv (keepsResults_setRn invValue_ends) hmem hs h
  | pdbl => exact finish_resultsInv (keepsResults_pointOut pdblValue_ends .r) hmem hs h
  | padd => exact finish_resultsInv (keepsResults_pointOut paddValue_ends .r) hmem hs h
  | pmul => exact finish_resultsInv (keepsResults_pointOut pmulValue_ends .r) hmem hs h
  | enum => exact finish_resultsInv enumBody_keepsResults hmem hs h
  | encode => exact finish_resultsInv encodeBody_keepsResults hmem hs h
  | keygen => exact finish_resultsInv keygenBody_keepsResults hmem hs h
  | shared => exact finish_resultsInv sharedBody_keepsResults hmem hs h
  | encrypt => exact finish_resultsInv encryptBody_keepsResults hmem hs h
  | ecdh => exact absurd rfl hi

/-- ECDH keeps both invariants together, step by step, because ENCODE needs the memory's. -/
theorem exec_resultsInv {i : Instr} {s t : State} (hmem : MemoryInv s) (hs : ResultsInv s) (h : exec i s = .next t) :
    ResultsInv t := by
  by_cases hi : i = .ecdh
  · subst hi
    refine (exec_ecdh_rel (R := fun s t => MemoryInv s ∧ ResultsInv s → MemoryInv t ∧ ResultsInv t) (fun _ => id)
      (fun hst htu => htu ∘ hst) (fun _ _ ⟨hm, hr⟩ => ⟨hm.of_memoryView rfl, hr.setStatus _⟩)
      (fun j hj _ _ hst ⟨hm, hr⟩ => ?_) h ⟨hmem, hs⟩).2
    exact ⟨exec_memoryInv hst hm, exec_resultsInv_of_ne_ecdh (ecdh_row_covers j hj).1 hm hr hst⟩
  · exact exec_resultsInv_of_ne_ecdh hi hmem hs h

/-! The other turns. -/

theorem readRegister_resultsInv {s : State} (hs : ResultsInv s) (name : RegName) : ResultsInv (readRegister name s) := by
  rw [readRegister]
  split <;> exact hs.congr (fun _ _ => getTriple_withOutside ..) rfl rfl rfl

/-- R21: no result register takes a host write. -/
theorem writeRegister_resultsInv {s : State} (hs : ResultsInv s) (name : RegName) (v : Word) :
    ResultsInv (writeRegister name v s) := by
  have hstore : ResultsInv (regStore name v s) :=
    hs.congr (fun _ hu => getTriple_regStore hu name v s) (regStore_rn ..) (regStore_mreg ..) (regStore_hreg ..)
  by_cases hn : name = .status
  · rw [hn, writeRegister_status]
    exact hs.setStatus _
  cases hb : s.status.busy with
  | true =>
    rw [writeRegister_busy hb hn]
    exact hs.setStatus _
  | false =>
    rw [writeRegister_idle hb hn]
    cases writeClass name with
    | ro | status => exact hs
    | rw => exact hstore
    | cmd => exact hs.congr (fun _ _ => getTriple_issue ..) rfl rfl rfl
    | param => exact hstore.setStatus _

theorem resultsInv_resetOf (capacity : Word) : ResultsInv (State.resetOf capacity) where
  triples t _ := by rw [getTriple_resetOf]; exact canonicalTriple_zero
  rn := (by decide : (0 : Word).toNat < 2 ^ 31 - 1)
  mreg := Nat.zero_le _
  hreg := Nat.zero_le _

theorem ResultsInv.withOutside {s : State} (hs : ResultsInv s) (turns : List Turn) (rs : List Response) (d : Nat) :
    ResultsInv (withOutside turns rs d s) := hs.congr (fun _ _ => getTriple_withOutside ..) rfl rfl rfl

/-- Settles O56. A command writes residues of a modulus a register holds, `M`, `h` and copies of canonical triples; a reset
writes 0; no other turn reaches a result. -/
theorem stepKeepsResultsCanonical : Obligations.StepKeepsResultsCanonical := by
  intro s t hmem hs hstep
  have hmem0 : MemoryInv (withAgenda s.agenda.tail s) := hmem.of_memoryView rfl
  have hs0 : ResultsInv (withAgenda s.agenda.tail s) := hs.withOutside ..
  cases step_effect hstep with
  | idle _ same => exact same ▸ hs0
  | command _ _ _ ran => exact exec_resultsInv hmem0 hs0 ran
  | illegal _ _ _ failed => exact failed ▸ hs0.setStatus _
  | reset zeroed => exact zeroed ▸ (resultsInv_resetOf _).withOutside ..
  | busError _ answered => exact answered ▸ hs0.withOutside ..
  | read name answered => exact answered ▸ readRegister_resultsInv hs0 name
  | write name v written => exact written ▸ (writeRegister_resultsInv hs0 name v).withOutside ..

/-- Settles O52. At reset no list is held and none is valid, nothing is reported, and every result is 0. -/
theorem resetMeetsTheInvariants : Obligations.ResetMeetsTheInvariants := fun capacity hcap =>
  ⟨memoryInv_of_empty hcap rfl rfl, listInv_of_not_ptvalid rfl, statusInv_of_noReport rfl rfl rfl nofun,
    resultsInv_resetOf capacity⟩

end Sys2Proof.Machine

/-! Facts about every command: the modulus check (40_modular.md R122), what a failed command leaves (60_exceptions.md R303),
and that B is read by ENUM and ECDH only (41_curve_group.md R158). -/

namespace Sys2Proof.Machine

/-! An illegal modulus. -/

/-- R122, R234: ECDH meets it in step 1. -/
theorem exec_ecdh_of_small {s : State} (hp : sext32 s.p < 2) :
    exec .ecdh s = .next { s with status := errStatus s.status 5 1 } := by
  have henum : enumBody s = ⟨s, some .badModulus⟩ := by rw [enumBody, checkModulus_small hp]
  rw [exec, execEcdh, ecdhSteps, runSteps, henum]
  rfl

/-- Settles O24. Every computation starts with the check of the modulus. -/
theorem badModulusStopsEveryCommandButNop : Obligations.BadModulusStopsEveryCommandButNop := by
  intro s i hp hi
  obtain ⟨hreduce, hinv, -, -, -, -, -, -, hencode⟩ := values_small hp
  cases i with
  | nop => exact absurd rfl hi
  | reduce => exact finish_attempt_error hreduce _ s
  | inv => exact finish_attempt_error hinv _ s
  | pdbl => exact exec_pdbl_of_small hp
  | padd => exact exec_padd_of_small hp
  | pmul => exact exec_pmul_of_small hp
  | enum => exact exec_enum_of_small hp
  | encode => exact exec_encode_of_check_error hencode
  | keygen => exact exec_keygen_of_small hp
  | shared => exact exec_shared_of_small hp
  | encrypt => exact exec_encrypt_of_small hp
  | ecdh => exact exec_ecdh_of_small hp

/-! A command in error. -/

theorem failedWith_of_finish_error {s t : State} {e : ErrCode} (h : finish ⟨s, some e⟩ = .next t) :
    t = failedWith t.status.errcode s := by
  obtain rfl := Host.Outcome.next.inj h
  rfl

/-- R303: a computation that fails commits nothing. -/
theorem failedWith_of_attempt {α : Type} {result : Except ErrCode α} {commit : α → State → State} {s t : State}
    (h : finish (attempt result commit s) = .next t) (herr : t.status.err = true) :
    t = failedWith t.status.errcode s := by
  cases result with
  | ok v =>
    obtain rfl := Host.Outcome.next.inj h
    cases herr
  | error e => exact failedWith_of_finish_error h

/-- R192, R303: only an overflow makes a failed ENUM write. -/
theorem exec_enum_failed {s t : State} (h : exec .enum s = .next t) (herr : t.status.err = true)
    (hcode : t.status.errcode ≠ 8) : t = failedWith t.status.errcode s := by
  rw [exec_enum] at h
  rcases enumBody_cases s with ⟨-, hb⟩ | ⟨-, -, hb⟩ | ⟨-, -, hb⟩
  · exact failedWith_of_finish_error (hb ▸ h)
  · rw [hb] at h
    obtain rfl := Host.Outcome.next.inj h
    exact absurd rfl hcode
  · rw [hb] at h
    obtain rfl := Host.Outcome.next.inj h
    cases herr

/-- R231, R303: only a mismatch makes a failed SHARED write. -/
theorem exec_shared_failed {s t : State} (h : exec .shared s = .next t) (herr : t.status.err = true)
    (hcode : t.status.errcode ≠ 10) : t = failedWith t.status.errcode s := by
  rw [exec_shared] at h
  rcases sharedBody_cases s with ⟨e, hb, -⟩ | ⟨v, w, -, -, -, hb⟩
  · exact failedWith_of_finish_error (hb ▸ h)
  · rw [hb] at h
    obtain rfl := Host.Outcome.next.inj h
    by_cases hvw : v = w
    · simp [complete, hvw] at herr
    · simp [complete, hvw, errNumberOf, errNumber] at hcode

/-- R213, R303: a failed ENCODE writes MREG and HREG exactly when it ends with EncodingNotFound. -/
theorem exec_encode_failed {s t : State} (h : exec .encode s = .next t) (herr : t.status.err = true) :
    (t.status.errcode = 2 ∧ t = { s with mreg := t.mreg, hreg := t.hreg, status := errStatus s.status 2 0 }) ∨
      (t.status.errcode ≠ 2 ∧ t = failedWith t.status.errcode s) := by
  rw [exec_encode] at h
  rcases encodeBody_cases s with ⟨e, hb, -, he⟩ | ⟨-, -, -, _, rfl, hb | ⟨q, -, hb⟩⟩
  · rw [hb] at h
    have hcodes : ∀ e ∈ [ErrCode.badModulus, .notEnumerated, .degenerateCurve], errNumber e ≠ 2 := by decide
    refine .inr ⟨?_, failedWith_of_finish_error h⟩
    obtain rfl := Host.Outcome.next.inj h
    exact hcodes e he
  · rw [hb] at h
    obtain rfl := Host.Outcome.next.inj h
    exact .inl ⟨rfl, rfl⟩
  · rw [hb] at h
    obtain rfl := Host.Outcome.next.inj h
    cases herr

/-- Settles O49. A failed `attempt` writes nothing; the bodies that write although they fail are the three above. -/
theorem failedCommandCommitsNothing : Obligations.FailedCommandCommitsNothing := by
  intro i s t h herr hecdh henum hshared
  cases i with
  | encode =>
    rcases exec_encode_failed h herr with ⟨hcode, ht⟩ | ⟨hcode, ht⟩
    · exact ⟨fun _ _ => ht, fun hne => absurd ⟨rfl, hcode⟩ hne⟩
    · exact ⟨fun _ h2 => absurd h2 hcode, fun _ => ht⟩
  | ecdh => exact absurd rfl hecdh
  | nop =>
    obtain rfl := Host.Outcome.next.inj h
    cases herr
  | enum => exact ⟨nofun, fun _ => exec_enum_failed h herr fun hcode => henum ⟨rfl, hcode⟩⟩
  | shared => exact ⟨nofun, fun _ => exec_shared_failed h herr fun hcode => hshared ⟨rfl, hcode⟩⟩
  | reduce | inv | pdbl | padd | pmul | keygen | encrypt => exact ⟨nofun, fun _ => failedWith_of_attempt h herr⟩

/-! B. -/

/-- The state with another word in B. -/
def withB (w : Word) (s : State) : State := { s with b := w }

/-- A body that neither reads nor writes B. -/
def ignoresB (w : Word) (body : State → Ran) : Prop :=
  ∀ s, body (withB w s) = ⟨withB w (body s).state, (body s).error⟩

section

variable (w : Word)

theorem pointOut_withB (t : PointReg) (v : Point) (s : State) : pointOut t v (withB w s) = withB w (pointOut t v s) := by
  cases t <;> rfl

theorem ignoresB_attempt {α : Type} {value : State → Except ErrCode α} {commit : α → State → State}
    (hvalue : ∀ s, value (withB w s) = value s) (hcommit : ∀ v s, commit v (withB w s) = withB w (commit v s)) :
    ignoresB w fun s => attempt (value s) commit s := by
  intro s
  simp only [hvalue]
  cases value s with
  | ok v => simp only [attempt, hcommit]
  | error e => rfl

theorem keygenBody_ignoresB : ignoresB w keygenBody :=
  ignoresB_attempt w (value := keygenValue) (fun _ => rfl) fun _ _ => by rfl

theorem encryptBody_ignoresB : ignoresB w encryptBody :=
  ignoresB_attempt w (value := encryptValue) (fun _ => rfl) fun _ _ => by rfl

theorem sharedBody_ignoresB : ignoresB w sharedBody := by
  intro s
  have hvalue : sharedValue (withB w s) = sharedValue s := rfl
  rw [sharedBody, sharedBody, hvalue]
  cases sharedValue s <;> rfl

theorem encodeBody_ignoresB : ignoresB w encodeBody := by
  intro s
  have hchecks : encodeChecks (withB w s) = encodeChecks s := rfl
  rw [encodeBody, encodeBody, hchecks]
  cases encodeChecks s with
  | error e => rfl
  | ok p =>
    exact ignoresB_attempt w (value := fun _ => encodePoint (sext32 s.msg) (curveList s) p) (fun _ => rfl)
      (pointOut_withB w .qm) (setCodec (enc32 (chooseM (sext32 s.msg))) (enc32 (slotWidth p (sext32 s.msg))) s)

theorem finish_withB {body : State → Ran} (hb : ignoresB w body) {s t : State} (h : finish (body s) = .next t) :
    finish (body (withB w s)) = .next (withB w t) := by
  obtain rfl := Host.Outcome.next.inj h
  rw [hb]
  rfl

end

/-- Settles O51. Each computation and each commit is the same with another B. -/
theorem groupCommandsDoNotReadB : Obligations.GroupCommandsDoNotReadB := by
  intro i s t w hlist h
  change exec i (withB w s) = .next (withB w t)
  cases i with
  | nop => exact finish_withB w (body := fun s => ⟨s, none⟩) (fun _ => rfl) h
  | reduce => exact finish_withB w (ignoresB_attempt w (commit := fun r => setRn (enc32 r)) (fun _ => rfl) fun _ _ => rfl) h
  | inv => exact finish_withB w (ignoresB_attempt w (commit := fun r => setRn (enc32 r)) (fun _ => rfl) fun _ _ => rfl) h
  | pdbl => exact finish_withB w (ignoresB_attempt w (fun _ => rfl) (pointOut_withB w .r)) h
  | padd => exact finish_withB w (ignoresB_attempt w (fun _ => rfl) (pointOut_withB w .r)) h
  | pmul => exact finish_withB w (ignoresB_attempt w (fun _ => rfl) (pointOut_withB w .r)) h
  | encode => exact finish_withB w (encodeBody_ignoresB w) h
  | keygen => exact finish_withB w (keygenBody_ignoresB w) h
  | shared => exact finish_withB w (sharedBody_ignoresB w) h
  | encrypt => exact finish_withB w (encryptBody_ignoresB w) h
  | enum | ecdh => cases hlist

end Sys2Proof.Machine

/-! Two ways to one result: INV and the linear scan (40_modular.md R121, R126), PDBL and PADD (41_curve_group.md R153), PMUL
and the sum of copies (R154, R159). -/

namespace Sys2Proof.Machine

/-- Settles O27. INV runs the Euclidean algorithm, whose answer is the scan's (`inverse_eq_scan`). -/
theorem invAgreesWithTheLinearScan : Obligations.InvAgreesWithTheLinearScan := by
  intro s hp
  rw [← inverse_eq_scan hp]
  refine ⟨fun x hx => exec_inv_of_inverse_ok hp hx, fun e he => ?_⟩
  obtain rfl : e = .noInverseExists := (scanFrom_error_iff.mp ((inverse_eq_scan hp _).symm.trans he)).1
  exact ⟨rfl, exec_inv_of_inverse_error hp he⟩

/-- Settles O30. With a legal modulus both compute the sum of P1 with itself, after the same check, which PADD makes twice. -/
theorem doublingIsAddingAPointToItself : Obligations.DoublingIsAddingAPointToItself := by
  intro s hsame
  rcases lt_or_ge (sext32 s.p) 2 with hp | hp
  · rw [exec_pdbl_of_small hp, exec_padd_of_small hp]
  have hpoint : pointIn .p2 s = pointIn .p1 s := by
    rw [pointIn, pointIn, show getTriple .p2 s = getTriple .p1 s from hsame]
  cases hr : inRange (pointIn .p1 s) (sext32 s.p) with
  | false => rw [exec_pdbl_of_badPoint hp hr, exec_padd_of_badPoint hp (.inl hr)]
  | true =>
    have hvalue : pdblValue s = paddValue s :=
      (pdblValue_of_inRange hp rfl hr).trans (paddValue_of_inRange hp rfl hpoint hr hr).symm
    rw [exec, execPdbl, hvalue, exec, execPadd]

/-! Multiples. -/

/-- R159: every multiple of infinity is infinity. -/
theorem mulLoop_inf (fuel n : Nat) (a p : Int) : mulLoop fuel .inf .inf n a p = .ok .inf := by
  induction fuel generalizing n with
  | zero => rfl
  | succ more ih =>
    rcases Nat.eq_zero_or_pos n with rfl | hn
    · exact mulLoop_zero ..
    · have hodd : addWhenOdd n .inf .inf a p = .ok .inf := by
        rw [addWhenOdd]
        split <;> rfl
      rw [mulLoop_pass hn, hodd, ok_bind, ecAdd_inf_left, ok_bind, ih]

/-- Settles O34. The loop adds infinity to infinity, or makes no pass. -/
theorem pmulOfInfinityOrByZeroIsInfinity : Obligations.PmulOfInfinityOrByZeroIsInfinity := by
  intro s hp hr hk hcase
  refine exec_pmul_of_ok (u := .inf) hp hr hk ?_
  rcases hcase with hinf | hzero
  · rw [hinf]
    exact mulLoop_inf ..
  · rw [hzero]
    exact mulLoop_zero ..

section

variable {q : ℕ} [Fact q.Prime] {a b : Int}

/-- Over an odd prime the sum of `n` copies, added one by one, is the multiple in the curve's group. -/
theorem repeatedSum_represents (h2 : 2 < q) {v : Point} {g : (shortCurve q a b).toAffine.Point} (hv : represents v g)
    (rv : inRange v q = true) (n : Nat) :
    ∃ u, repeatedSum n v a q = .ok u ∧ inRange u q = true ∧ represents u (n • g) := by
  induction n with
  | zero => exact ⟨.inf, rfl, rfl, zero_nsmul g⟩
  | succ n ih =>
    obtain ⟨u, hu, ru, hrep⟩ := ih
    have hprime : Prime (q : Int) := Nat.prime_iff_prime_int.mp Fact.out
    obtain ⟨u', hadd, ru'⟩ := ecAdd_ok_of_oddPrime hprime (by omega) a ru rv
    refine ⟨u', by rw [repeatedSum, hu, ok_bind, hadd], ru', ?_⟩
    rw [succ_nsmul]
    exact ecAdd_represents h2 hrep hv ru rv hadd

end

/-- R154, R235 (K4): on a non-singular curve over a prime above 3 double-and-add gives the sum of the copies. -/
theorem scalarMul_eq_repeatedSum {p a b x y : Int} (hp : Prime p) (h3 : 3 < p)
    (hdisc : ¬p ∣ 4 * a * a * a + 27 * b * b) (hr : inRange (.aff x y) p = true)
    (hcurve : p ∣ y * y - (x * x * x + a * x + b)) (k : Int) :
    ∃ u, repeatedSum k.toNat (.aff x y) a p = .ok u ∧ inRange u p = true ∧ scalarMul (.aff x y) k a p = .ok u := by
  obtain ⟨q, rfl⟩ : ∃ q : ℕ, p = q := ⟨p.toNat, by omega⟩
  have : Fact q.Prime := ⟨Nat.prime_iff_prime_int.mpr hp⟩
  have h2 : 2 < q := by omega
  obtain ⟨g, hg⟩ := represents_of_solution (b := b) hdisc h2 hcurve
  obtain ⟨u, hsum, ru, hu⟩ := repeatedSum_represents h2 hg hr k.toNat
  obtain ⟨u', hmul, ru'⟩ := scalarMul_ok_of_oddPrime hp (by omega) hr k a
  obtain rfl : u = u' := represents_unique hu (scalarMul_represents h2 hg hr hmul) ru ru'
  exact ⟨u, hsum, ru, hmul⟩

/-- Settles O33. Both stand for the same multiple in the curve's group, and both are canonical. -/
theorem pmulIsTheRepeatedSumOnANonsingularCurve : Obligations.PmulIsTheRepeatedSumOnANonsingularCurve := by
  rintro s _ _ b x y rfl rfl hprime h3 hdisc hv hx0 hxp hy0 hyp hcurve hk
  have hr : inRange (.aff x y) (sext32 s.p) = true := inRange_aff.mpr ⟨hx0, hxp, hy0, hyp⟩
  obtain ⟨u, hsum, ru, hmul⟩ := scalarMul_eq_repeatedSum hprime h3 hdisc hr hcurve (sext32 s.k)
  rw [← hv] at hr hmul
  exact ⟨u, hsum, ru, exec_pmul_of_ok (by omega) hr hk hmul⟩

end Sys2Proof.Machine
